-- ==== Sys2Proof/Word.lean ====
section
/-! DEFINITION. The widths of R6 and the few closed types that syntax, parameters and state share. -/

namespace Sys2Proof

/-- A data byte, an I/O table index or a vector: 8 bits (R6). -/
abbrev Byte := BitVec 8

/-- A bus address: 16 bits, arithmetic modulo 65536 (R6). -/
abbrev Bits16 := BitVec 16

/-- A control-line pattern `LMA*4 + RD*2 + WR` (R51). -/
abbrev Bits3 := BitVec 3

/-- What agents other than this device drive on `D[7:0]` at one clock edge (R65), as a script gives it (R63). -/
inductive Drive where
  /-- `D=<byte>` or `D=-`: the byte, or nobody else drives. -/
  | given (e : Option Byte)
  /-- `D=` left out: what the host peers of R38 drive. -/
  | peers
deriving DecidableEq, Repr

/-- The allowed values of the parameter `INTACK_PATTERN` (R52): `111`, `110`, `101`, `100`. -/
inductive IntAckPattern where
  | p111 | p110 | p101 | p100
deriving DecidableEq, Repr

/-- The parameter `RESUME_POINT` (R5, R123): when the release happens after the last byte. -/
inductive ResumePoint where
  | sameCycleP1F | nextCycleP1R
deriving DecidableEq, Repr

/-- The BusCycleState of R18. -/
inductive BusState where
  | idle | read | write | dmaAck | interruptAck
deriving DecidableEq, Repr

end Sys2Proof
end

