-- ==== Sys2Proof/Syntax.lean ====
section
/-! DEFINITION. The operations of the block: one constructor per row of spec/opcode_table.json. -/

namespace Sys2Proof

/-- The eight bus-cycle classes (format ctrl3, R53), the seventeen foreground commands (format fgcmd, R58)
and the reserved opcodes (R60).

A bus-cycle class is one event `EvP1F(e, p, pri)` of R65: `e` is what the other agents drive at the `P1F`
capture of that event, `p` is the pattern the class stands for, sampled at the `SP2` that follows, and `pri` is
`PRI_IN` at that `SP2`. -/
inductive Instr where
  /-- IDLE, pattern `000` (R75). -/
  | idle (e : Drive) (pri : Bool)
  /-- ADDR_LOAD, pattern `100` (R76). -/
  | addrLoad (e : Drive) (pri : Bool)
  /-- READ, pattern `010` (R77). -/
  | read (e : Drive) (pri : Bool)
  /-- READ_AL, LMA and RD asserted (R78): pattern `110`, or `111` (`wr` true) where INTACK_PATTERN is another
  pattern than `111` (R52). -/
  | readAl (wr : Bool) (e : Drive) (pri : Bool)
  /-- WRITE, pattern `001` (R79). -/
  | write (e : Drive) (pri : Bool)
  /-- WRITE_AL, pattern `101` (R80). -/
  | writeAl (e : Drive) (pri : Bool)
  /-- DMA_ACK, pattern `011` (R81). -/
  | dmaAck (e : Drive) (pri : Bool)
  /-- INT_ACK, the pattern INTACK_PATTERN (R82). -/
  | intAck (e : Drive) (pri : Bool)
  /-- REG_READ `lo, h` (R90). -/
  | regRead (lo : Byte) (h : Nat)
  /-- REG_WRITE `lo, h` (R91). -/
  | regWrite (lo : Byte) (h : Nat)
  /-- UNREGISTER `lo` (R92). -/
  | unregister (lo : Byte)
  /-- CLAIM_SET `i, c` (R93). -/
  | claimSet (i : Nat) (c : Option Nat)
  /-- ARM (R133). -/
  | arm
  /-- TRACE_START (R134). -/
  | traceStart
  /-- TRACE_STOP (R135). -/
  | traceStop
  /-- INT_SET_VECTOR `v` (R104). -/
  | intSetVector (v : Byte)
  /-- INT_ENABLE `b` (R105). -/
  | intEnable (b : Bool)
  /-- INT_REQUEST `b` (R106). -/
  | intRequest (b : Bool)
  /-- INT_WANT `b` (R107). -/
  | intWant (b : Bool)
  /-- DMA_READ_BLOCK `addr, buf, count` (R110). -/
  | dmaReadBlock (addr : Bits16) (buf : Option Nat) (count : Nat)
  /-- DMA_WRITE_BLOCK `addr, buf, count` (R111). -/
  | dmaWriteBlock (addr : Bits16) (buf : Option Nat) (count : Nat)
  /-- DMA_READ_BYTE `addr` (R126). -/
  | dmaReadByte (addr : Bits16)
  /-- DMA_WRITE_BYTE `addr, v` (R127). -/
  | dmaWriteByte (addr : Bits16) (v : Byte)
  /-- DMA_READ_WORD `addr` (R128). -/
  | dmaReadWord (addr : Bits16)
  /-- DMA_WRITE_WORD `addr, v` (R129). -/
  | dmaWriteWord (addr : Bits16) (v : Bits16)
  /-- A command whose `op` is reserved (R60). -/
  | reserved (op : Byte)
deriving DecidableEq, Repr

/-- Is it a foreground command (format fgcmd)? -/
def Instr.isCommand : Instr → Bool
  | .idle .. | .addrLoad .. | .read .. | .readAl .. | .write .. | .writeAl .. | .dmaAck .. | .intAck .. => false
  | .regRead .. | .regWrite .. | .unregister .. | .claimSet .. | .arm | .traceStart | .traceStop
  | .intSetVector .. | .intEnable .. | .intRequest .. | .intWant .. | .dmaReadBlock .. | .dmaWriteBlock ..
  | .dmaReadByte .. | .dmaWriteByte .. | .dmaReadWord .. | .dmaWriteWord .. | .reserved .. => true

/-- The column "blocking" of R58: the DMA commands `0x20` to `0x25` (R139). -/
def Instr.isBlocking : Instr → Bool
  | .dmaReadBlock .. | .dmaWriteBlock .. | .dmaReadByte .. | .dmaWriteByte .. | .dmaReadWord ..
  | .dmaWriteWord .. => true
  | .idle .. | .addrLoad .. | .read .. | .readAl .. | .write .. | .writeAl .. | .dmaAck .. | .intAck ..
  | .regRead .. | .regWrite .. | .unregister .. | .claimSet .. | .arm | .traceStart | .traceStop
  | .intSetVector .. | .intEnable .. | .intRequest .. | .intWant .. | .reserved .. => false

/-- `Cmd` of R27 and R89: a foreground command, the reserved ones among them. -/
abbrev Cmd := { i : Instr // i.isCommand = true }

end Sys2Proof
end

