-- ==== Sys2Proof/Config.lean ====
section
/-! DEFINITION. The parameters of R5 and R33, and the free values (draws, R7).

A parameter is fixed for a machine: `Params` is plain data that `State` carries and no step writes, so a theorem
over all states holds for every value of every parameter. `Config.launch` gives the parameters of the machine that
starts at `State.reset`: the spec's defaults, and a constant WITHOUT A BODY for each parameter the spec leaves OPEN. -/

namespace Sys2Proof

/-- The device emulations' state (R29), one number per field. The spec leaves the type OPEN (R5). -/
abbrev Dev := List Nat

/-- What a read handler returns (R89). -/
structure ReadReply where
  claimed : Bool
  value : Byte
  dev : Dev
  cmds : List Cmd
deriving DecidableEq, Repr, Inhabited

/-- What a write handler returns (R89). -/
structure WriteReply where
  dev : Dev
  cmds : List Cmd
deriving DecidableEq, Repr, Inhabited

/-- Arguments of the oracle functions at which a launch pins their value. Everywhere else an oracle is a function
without a body (`Config.readH` and the others), of which nothing can be proved but that it is a function. -/
structure Logic where
  readH : List ((Nat × Dev) × ReadReply)
  writeH : List ((Nat × Dev × Byte) × WriteReply)
  claimP : List ((Nat × Dev × Bits16) × Bool)
  claimR : List ((Nat × Dev × Bits16) × Byte)
  claimW : List ((Nat × Dev × Bits16 × Byte) × Dev)
  aux : List ((Bits3 × Bits16 × Byte × Dev) × Byte)
deriving DecidableEq, Repr

/-- The functional parameters of R5. -/
structure Params where
  /-- `IO_PAGE` -/
  ioPage : Byte
  /-- `INTACK_PATTERN` -/
  intack : IntAckPattern
  /-- `MAX_CLAIMS` -/
  maxClaims : Nat
  /-- `TRACE_LOG2` -/
  traceLog2 : Nat
  /-- `BURST_MAX` -/
  burstMax : Nat
  /-- `REFRESH_IDLE_CYCLES` -/
  refreshIdle : Nat
  /-- `DMA_COUNT_MAX` -/
  dmaCountMax : Nat
  /-- `BUF_SIZE` -/
  bufSize : Nat
  /-- `RESUME_POINT` -/
  resume : ResumePoint
  /-- pinned values of `readH`, `writeH`, `claimP`, `claimR`, `claimW`, `AUX` -/
  logic : Logic
deriving DecidableEq, Repr

/-- `TRACE_SIZE = 2^TRACE_LOG2` (R5). -/
def Params.traceSize (p : Params) : Nat := 2 ^ p.traceLog2

/-- The bounds R5 puts on the parameters. -/
abbrev Params.legal (p : Params) : Prop := 1 ≤ p.maxClaims ∧ 1 ≤ p.burstMax

namespace Config

/-- `draw` of R7 at type Byte: the n-th draw of the run. -/
opaque drawByte : Nat → Byte
/-- `draw` at type Bits16. -/
opaque drawBits16 : Nat → Bits16
/-- `draw` at type Bool. -/
opaque drawBit : Nat → Bool
/-- `draw` at type Nat. -/
opaque drawNat : Nat → Nat
/-- What a slot of the trace ring holds before the first push into it (R28, R158): one byte per byte of the record.
Arguments: the draw count at the reset, the slot, the byte's place in the record. -/
opaque drawTrace : Nat → Nat → Nat → Byte

/-- `readH` of R89, OPEN. -/
opaque readH : Nat → Dev → ReadReply
/-- `writeH` of R89, OPEN. -/
opaque writeH : Nat → Dev → Byte → WriteReply
/-- `claimP` of R89, OPEN. -/
opaque claimP : Nat → Dev → Bits16 → Bool
/-- `claimR` of R89, OPEN. -/
opaque claimR : Nat → Dev → Bits16 → Byte
/-- `claimW` of R89, OPEN. -/
opaque claimW : Nat → Dev → Bits16 → Byte → Dev

/-- `MAX_CLAIMS` less 1: OPEN, at least 1 (R5). -/
opaque maxClaimsLess1 : Nat
/-- `TRACE_LOG2`: OPEN, at least 0 (R5). -/
opaque traceLog2 : Nat
/-- `BURST_MAX` less 1: OPEN, at least 1 (R5). -/
opaque burstMaxLess1 : Nat
/-- `REFRESH_IDLE_CYCLES`: OPEN, at least 0 (R5). -/
opaque refreshIdle : Nat
/-- `BUF_SIZE`: OPEN (R5). -/
opaque bufSize : Nat
/-- The launch value of `dev` (R29, R158). -/
opaque launchDev : Dev

/-- What a byte of `BUF` that nothing has written reads as. DESIGN CHOICE, unsafe: assumption 6. -/
def bufUnlisted : Byte := 0x00

/-- The parameters of the machine that starts at `State.reset` (R5). -/
def launch : Params where
  ioPage := 0xFF
  intack := .p111
  maxClaims := maxClaimsLess1 + 1
  traceLog2 := traceLog2
  burstMax := burstMaxLess1 + 1
  refreshIdle := refreshIdle
  dmaCountMax := 65535
  bufSize := bufSize
  resume := .sameCycleP1F
  logic := ⟨[], [], [], [], [], []⟩

end Config
end Sys2Proof
end

