-- ==== Sys2Proof/WellFormed.lean ====
section
/-! DEFINITION. Which terms of `Instr` are instructions of a machine with a given `INTACK_PATTERN`. -/

namespace Sys2Proof

/-- The opcodes of R58. Every other opcode is reserved (R60). -/
def listedOps : List Nat :=
  [0x01, 0x02, 0x03, 0x04, 0x08, 0x09, 0x0A] ++ [0x10, 0x11, 0x12, 0x13] ++
    [0x20, 0x21, 0x22, 0x23, 0x24, 0x25]

/-- A class is well formed where the pattern it stands for is not taken by INT_ACK (R52). A reserved command is well
formed where its opcode is not listed (R60). The operands of every other command are values of their types (R58). -/
def Instr.wf (k : IntAckPattern) : Instr → Bool
  | .addrLoad .. => k != .p100
  | .writeAl .. => k != .p101
  | .readAl wr _ _ => if wr then k != .p111 else k != .p110
  | .reserved op => !listedOps.contains op.toNat
  | .idle .. | .read .. | .write .. | .dmaAck .. | .intAck .. => true
  | .regRead .. | .regWrite .. | .unregister .. | .claimSet .. | .arm | .traceStart | .traceStop
  | .intSetVector .. | .intEnable .. | .intRequest .. | .intWant .. | .dmaReadBlock .. | .dmaWriteBlock ..
  | .dmaReadByte .. | .dmaWriteByte .. | .dmaReadWord .. | .dmaWriteWord .. => true

end Sys2Proof
end

