-- ==== Sys2Proof/Decode.lean ====
section
/-! DEFINITION. Decoding and encoding of both formats: the control-line pattern (ctrl3, R51 to R53) and the
foreground command (fgcmd, R58 to R60, R63).

A command is encoded as "its `op` byte followed by its operands" (R63), and "operands are values, not bit fields of
a word" (R58): here a list of numbers, the opcode first and then one number per operand. A Bool is 0 or 1 and an
Option is 0 for `None` and n+1 for `Some n` (assumption 9). -/

namespace Sys2Proof

/-- The pattern of the parameter `INTACK_PATTERN` (R52). -/
def intackBits : IntAckPattern → Bits3
  | .p111 => 0b111
  | .p110 => 0b110
  | .p101 => 0b101
  | .p100 => 0b100

/-- `Classify(p)` of R52. -/
def classify (k : IntAckPattern) (p : Bits3) : BusState × Bool :=
  if p = intackBits k then (.interruptAck, false)
  else if p.getLsbD 2 = false ∧ p.getLsbD 1 = true ∧ p.getLsbD 0 = true then (.dmaAck, false)
  else if p.getLsbD 1 = true then (.read, p.getLsbD 2)
  else if p.getLsbD 0 = true then (.write, p.getLsbD 2)
  else (.idle, p.getLsbD 2)

/-- The bus-cycle class of a pattern (R53), with the other inputs of the event that samples it (R65). -/
def decodeCycle (k : IntAckPattern) (p : Bits3) (e : Drive) (pri : Bool) : Instr :=
  match classify k p with
  | (.interruptAck, _) => .intAck e pri
  | (.dmaAck, _) => .dmaAck e pri
  | (.read, false) => .read e pri
  | (.read, true) => .readAl (p.getLsbD 0) e pri
  | (.write, false) => .write e pri
  | (.write, true) => .writeAl e pri
  | (.idle, false) => .idle e pri
  | (.idle, true) => .addrLoad e pri

/-- Why a list of numbers is no command. -/
inductive DecodeError where
  /-- there is no opcode -/
  | noOpcode
  /-- the opcode or an operand is a number its type does not hold -/
  | tooWide
  /-- an operand is missing -/
  | missingOperand
deriving DecidableEq, Repr

/-- One operand of at most `bound - 1`. -/
def takeBelow (bound : Nat) : List Nat → Except DecodeError (Nat × List Nat)
  | [] => .error .missingOperand
  | n :: r => if n < bound then .ok (n, r) else .error .tooWide

/-- One operand that is any number. -/
def takeNat : List Nat → Except DecodeError (Nat × List Nat)
  | [] => .error .missingOperand
  | n :: r => .ok (n, r)

/-- The value of an Option operand. -/
def optionOfNat : Nat → Option Nat
  | 0 => none
  | n + 1 => some n

/-- A command with one operand below `bound`. -/
def takeOne (bound : Nat) (f : Nat → Instr) (r : List Nat) : Except DecodeError (Instr × List Nat) :=
  match takeBelow bound r with
  | .ok (x, r1) => .ok (f x, r1)
  | .error d => .error d

/-- A command with a first operand below `bound` and a second that is any number. -/
def takeBelowNat (bound : Nat) (f : Nat → Nat → Instr) (r : List Nat) : Except DecodeError (Instr × List Nat) :=
  match takeBelow bound r with
  | .ok (x, r1) =>
    match takeNat r1 with
    | .ok (y, r2) => .ok (f x y, r2)
    | .error d => .error d
  | .error d => .error d

/-- A command with two operands below bounds of their own. -/
def takeTwo (b1 b2 : Nat) (f : Nat → Nat → Instr) (r : List Nat) : Except DecodeError (Instr × List Nat) :=
  match takeBelow b1 r with
  | .ok (x, r1) =>
    match takeBelow b2 r1 with
    | .ok (y, r2) => .ok (f x y, r2)
    | .error d => .error d
  | .error d => .error d

/-- CLAIM_SET's operands: any two numbers. -/
def takeNatNat (f : Nat → Nat → Instr) (r : List Nat) : Except DecodeError (Instr × List Nat) :=
  match takeNat r with
  | .ok (x, r1) =>
    match takeNat r1 with
    | .ok (y, r2) => .ok (f x y, r2)
    | .error d => .error d
  | .error d => .error d

/-- A block command's operands: an address, then any two numbers. -/
def takeBlock (f : Nat → Nat → Nat → Instr) (r : List Nat) : Except DecodeError (Instr × List Nat) :=
  match takeBelow 65536 r with
  | .ok (x, r1) => takeNatNat (f x) r1
  | .error d => .error d

/-- The operands that follow an opcode (R58). An opcode that is not listed is a reserved command (R60). -/
def decodeOperands (op : Nat) (r : List Nat) : Except DecodeError (Instr × List Nat) :=
  match op with
  | 0x01 => takeBelowNat 256 (fun lo h => .regRead (BitVec.ofNat 8 lo) h) r
  | 0x02 => takeBelowNat 256 (fun lo h => .regWrite (BitVec.ofNat 8 lo) h) r
  | 0x03 => takeOne 256 (fun lo => .unregister (BitVec.ofNat 8 lo)) r
  | 0x04 => takeNatNat (fun i c => .claimSet i (optionOfNat c)) r
  | 0x08 => .ok (.arm, r)
  | 0x09 => .ok (.traceStart, r)
  | 0x0A => .ok (.traceStop, r)
  | 0x10 => takeOne 256 (fun v => .intSetVector (BitVec.ofNat 8 v)) r
  | 0x11 => takeOne 2 (fun b => .intEnable (b == 1)) r
  | 0x12 => takeOne 2 (fun b => .intRequest (b == 1)) r
  | 0x13 => takeOne 2 (fun b => .intWant (b == 1)) r
  | 0x20 => takeBlock (fun a b n => .dmaReadBlock (BitVec.ofNat 16 a) (optionOfNat b) n) r
  | 0x21 => takeBlock (fun a b n => .dmaWriteBlock (BitVec.ofNat 16 a) (optionOfNat b) n) r
  | 0x22 => takeOne 65536 (fun a => .dmaReadByte (BitVec.ofNat 16 a)) r
  | 0x23 => takeTwo 65536 256 (fun a v => .dmaWriteByte (BitVec.ofNat 16 a) (BitVec.ofNat 8 v)) r
  | 0x24 => takeOne 65536 (fun a => .dmaReadWord (BitVec.ofNat 16 a)) r
  | 0x25 => takeTwo 65536 65536 (fun a v => .dmaWriteWord (BitVec.ofNat 16 a) (BitVec.ofNat 16 v)) r
  | _ => .ok (.reserved (BitVec.ofNat 8 op), r)

/-- One foreground command at the head of a list of numbers, with the rest of the list (R58, R60, R63). -/
def decodeCmd : List Nat → Except DecodeError (Instr × List Nat)
  | [] => .error .noOpcode
  | op :: r => if op < 256 then decodeOperands op r else .error .tooWide

/-! The encoder, from the tables of R53 and R58. -/

/-- What a host event carries of a bus-cycle class (R53, R65): the pattern on the control lines, what the other agents
drive at the `P1F` capture, and `PRI_IN`. A command has none. -/
def encodeCycle (k : IntAckPattern) : Instr → Option (Bits3 × Drive × Bool)
  | .idle e pri => some (0b000, e, pri)
  | .addrLoad e pri => some (0b100, e, pri)
  | .read e pri => some (0b010, e, pri)
  | .readAl wr e pri => some (if wr then 0b111 else 0b110, e, pri)
  | .write e pri => some (0b001, e, pri)
  | .writeAl e pri => some (0b101, e, pri)
  | .dmaAck e pri => some (0b011, e, pri)
  | .intAck e pri => some (intackBits k, e, pri)
  | .regRead .. | .regWrite .. | .unregister .. | .claimSet .. | .arm | .traceStart | .traceStop
  | .intSetVector .. | .intEnable .. | .intRequest .. | .intWant .. | .dmaReadBlock .. | .dmaWriteBlock ..
  | .dmaReadByte .. | .dmaWriteByte .. | .dmaReadWord .. | .dmaWriteWord .. | .reserved .. => none

/-- The number of an Option operand. -/
def natOfOption : Option Nat → Nat
  | none => 0
  | some n => n + 1

/-- The numbers of a foreground command (R58). A bus-cycle class has none. -/
def encodeCmd : Instr → List Nat
  | .regRead lo h => [0x01, lo.toNat, h]
  | .regWrite lo h => [0x02, lo.toNat, h]
  | .unregister lo => [0x03, lo.toNat]
  | .claimSet i c => [0x04, i, natOfOption c]
  | .arm => [0x08]
  | .traceStart => [0x09]
  | .traceStop => [0x0A]
  | .intSetVector v => [0x10, v.toNat]
  | .intEnable b => [0x11, b.toNat]
  | .intRequest b => [0x12, b.toNat]
  | .intWant b => [0x13, b.toNat]
  | .dmaReadBlock a b n => [0x20, a.toNat, natOfOption b, n]
  | .dmaWriteBlock a b n => [0x21, a.toNat, natOfOption b, n]
  | .dmaReadByte a => [0x22, a.toNat]
  | .dmaWriteByte a v => [0x23, a.toNat, v.toNat]
  | .dmaReadWord a => [0x24, a.toNat]
  | .dmaWriteWord a v => [0x25, a.toNat, v.toNat]
  | .reserved op => [op.toNat]
  | .idle .. | .addrLoad .. | .read .. | .readAl .. | .write .. | .writeAl .. | .dmaAck .. | .intAck .. => []

/-! The host's question about one row of the opcode table. -/

/-- The two formats share their small numbers: 0 to 7 are patterns of ctrl3, and 1 to 4 are opcodes of fgcmd as well.
A word of fewer than 8 bits is a pattern. A word of 8 bits is a listed opcode where there is one, else a pattern
where it is below 8 (assumption 10). -/
def tableWordIsCycle (nbits w : Nat) : Bool :=
  decide (nbits < 8) || (decide (w < 8) && !listedOps.contains w)

/-- The numbers of a command whose row's word is `w`: the opcode, then zeros (or the word's further bytes). -/
def tableWordFields (w : Nat) : List Nat :=
  [w % 256, w / 256 % 256, w / 65536 % 256, w / 16777216 % 256]

/-- The instruction the decoder reads from a row's word (INTACK_PATTERN at its default). -/
def decodeTableWord (nbits w : Nat) : Option Instr :=
  if tableWordIsCycle nbits w then
    some (decodeCycle .p111 (BitVec.ofNat 3 w) (.given none) false)
  else
    match decodeCmd (tableWordFields w) with
    | .ok (i, _) => some i
    | .error _ => none

end Sys2Proof
end

