-- ==== Sys2Proof/Machine/State.lean ====
section
/-! DEFINITION. The machine's state: every element of spec/10_state.md (R11 to R32), the host peers of R38, the
launch parameters (R5, R33), the draw counter, and the inputs the environment has still to deliver (R4, R65).
Fields are grouped as the spec groups them. -/

namespace Sys2Proof.Machine
open Sys2Proof

/-- Why the model stops with a fault: the one FaultReason of R32. -/
inductive Fault where
  /-- A capture of `D[7:0]` found this device and another agent both driving (R37, code F1). The capture records it in
  `State.marks.fault` and its step completes. `step` raises it at every later turn but a reset. Safe: the spec gives
  such a state no meaning. -/
  | busContention
deriving DecidableEq, Repr

/-- The RefuseReason of R32 (codes X1 to X5 of R139): why the spec gives a command no meaning. -/
inductive RefuseReason where
  /-- X1: the opcode is reserved (R60). -/
  | reservedCommand
  /-- X2: `count > DMA_COUNT_MAX`, or a claim index `≥ MAX_CLAIMS` (R59). -/
  | argumentOutOfRange
  /-- X3: a registration command when `armed_once` (R94). -/
  | lateRegistration
  /-- X4: a handler returned a blocking command (R89, R139). -/
  | blockingFromHandler
  /-- X5: a DMA buffer that runs past `BUF_SIZE` (R112). -/
  | bufferOutOfRange
deriving DecidableEq, Repr

/-- Why a step gives no meaning. -/
inductive Refusal where
  /-- Raised by an arm of `exec` whose instruction has no meaning yet. No arm is one now. Safe. -/
  | notModelled (mnemonic : String)
  /-- Raised by `step` at every turn but a reset in a state whose `refused` record is set (R32): the spec withholds a
  meaning from there on. The command that set the record completed its own step. Safe. -/
  | withheld (r : RefuseReason)
  /-- Raised by `step` for a clock event of the same kind as the last one: the host's duty is that events alternate, and
  a run that breaks a duty "is not modelled" (R154, I29). Safe. -/
  | eventsDoNotAlternate
  /-- Raised by `step` when the foreground's next numbers are no command of R58 with its operands. Safe. -/
  | undecodableCommand
deriving DecidableEq, Repr

/-- A table with numbers for keys, in one canonical form: keys strictly rising, and no entry equal to what an unlisted
key reads as. -/
abbrev Sparse (α : Type) := List (Nat × α)

/-- Keys strictly rise. -/
abbrev Sparse.rising {α : Type} (m : Sparse α) : Prop := (m.map Prod.fst).Pairwise (· < ·)

/-- Who drives `LMA`, `RD` and `WR` (R15). -/
inductive CtrlMode where
  | host | device
deriving DecidableEq, Repr

/-- Where a scheduled write goes (R19). -/
inductive WriteTarget where
  | claimT (i : Nat)
  | ioT (lo : Byte)
deriving DecidableEq, Repr

/-- The kind of a host clock event (R21). -/
inductive EventKind where
  | p1r | p1f
deriving DecidableEq, Repr

/-- The arbiter's state (R24). -/
inductive ArbState where
  | idle | requestPending
deriving DecidableEq, Repr

/-- The DMA sub-state (R26, R109). -/
inductive DmaSub where
  | dIdle | dSettle | dWaitAck | dAddrLo | dAddrHi | dXfer | dYield
deriving DecidableEq, Repr

/-- The DMA transfer direction (R26). -/
inductive DmaDir where
  | rd | wr
deriving DecidableEq, Repr

/-- Where a DMA transfer's bytes go or come from (R26). -/
inductive DmaTarget where
  | buf (b : Nat)
  | scratch
deriving DecidableEq, Repr

/-- The value a foreground command returns (R27). -/
inductive Value where
  /-- `()` -/
  | done
  /-- a number of bytes transferred -/
  | count (n : Nat)
  /-- what DMA_READ_BYTE returns -/
  | byte (v : Byte)
  /-- what DMA_READ_WORD returns -/
  | word (v : Bits16)
deriving DecidableEq, Repr

/-- The five bytes of a trace record (R61). -/
structure TraceRecord where
  ctrl : Byte
  addrLo : Byte
  addrHi : Byte
  data : Byte
  aux : Byte
deriving DecidableEq, Repr

/-- The line drivers: R11 to R15. -/
structure Lines where
  /-- `drv_d` -/
  drvD : Option Byte
  rdy : Bool
  halt : Bool
  irq : Bool
  priOut : Bool
  ctrlMode : CtrlMode
  ctrlOut : Bits3
deriving DecidableEq, Repr

/-- The dispatcher's registers: R16 to R19. -/
structure Dispatcher where
  /-- `A`, the AddressRegister -/
  a : Bits16
  /-- `PLB`, the PendingLowByte -/
  plb : Byte
  cyc : BusState
  al : Bool
  lastCtrl : Bits3
  schedWrite : Option WriteTarget
  schedLoad : Bool
  schedInc : Bool
deriving DecidableEq, Repr

/-- The enables and the last event: R20 and R21. -/
structure Enables where
  armed : Bool
  sysint : Bool
  armedOnce : Bool
  lastEvent : Option EventKind
deriving DecidableEq, Repr

/-- The I/O dispatch table and the claim list: R22 and R23. An unlisted slot is `None`. -/
structure Tables where
  rdTab : Sparse Nat
  wrTab : Sparse Nat
  claims : Sparse Nat
deriving DecidableEq, Repr

/-- The interrupt arbiter: R24. -/
structure Arbiter where
  arb : ArbState
  vector : Byte
  enable : Bool
  pending : Bool
  want : Bool
deriving DecidableEq, Repr

/-- The DmaTransferRequest flags and the DMA sequencer: R25 and R26. -/
structure Dma where
  request : Bool
  ack : Bool
  active : Bool
  state : DmaSub
  dir : DmaDir
  addr : Bits16
  tgt : DmaTarget
  wbuf0 : Byte
  wbuf1 : Byte
  count : Nat
  k : Nat
  burstK : Nat
  yieldK : Nat
  xferPending : Bool
  addrDrive : Bool
deriving DecidableEq, Repr

/-- The foreground context: R27. -/
structure Foreground where
  /-- `fg_wait` -/
  wait : Option Cmd
  /-- `fg_result` -/
  result : Option Value
deriving DecidableEq, Repr

/-- The diagnostic trace: R28. An unlisted slot holds what it held at the reset, a draw (`traceByteAt`). -/
structure Trace where
  active : Bool
  idx : Nat
  buf : Sparse TraceRecord
  /-- the model's own: which reset's draws the unlisted slots hold -/
  seed : Nat
deriving DecidableEq, Repr

/-- The host peers: R38. `mem` is the host bus address space (R34): an unlisted address is one no peer serves. -/
structure Peers where
  /-- `HostMem` -/
  mem : List Host.Cell
  /-- `HA` -/
  ha : Bits16
  /-- `HPLB` -/
  hplb : Byte
  /-- an address load is to be completed at the next `P1F` -/
  load : Bool
  /-- an address increment is to be completed at the next `P1F` -/
  inc : Bool
  /-- what the peers drive in the next phase 1 -/
  drive : Option Byte
  /-- the address of a Write transaction whose byte comes at the next `P1R` -/
  write : Option Bits16
deriving DecidableEq, Repr

/-- The model's bookkeeping record: R32. -/
structure Marks where
  fault : Option Fault
  refused : Option RefuseReason
deriving DecidableEq, Repr

/-- One move of the environment. The environment decides in which order the agents move (R4, R44, R154). -/
inductive Turn where
  /-- `EvP1R(e1)` (R65) -/
  | rise (e1 : Drive)
  /-- `EvP1F(e2, p, pri)` (R65) -/
  | fall (e2 : Drive) (p : Bits3) (pri : Bool)
  /-- the foreground may take one of its steps (R45, R113) -/
  | foreground
  /-- the foreground's own work, outside the block: it sets `dev` (R30) -/
  | setDev (d : Dev)
  /-- an external reset (R154, R157) -/
  | reset
deriving DecidableEq, Repr

/-- The machine. -/
structure State where
  /-- launch parameters (R5, R33): no step writes them -/
  par : Params
  lines : Lines
  disp : Dispatcher
  en : Enables
  tabs : Tables
  int : Arbiter
  dma : Dma
  fg : Foreground
  trace : Trace
  /-- `dev` (R29) -/
  dev : Dev
  /-- `BUF` (R29) -/
  buf : List Host.Cell
  peers : Peers
  marks : Marks
  /-- how many draws the run has made (R7) -/
  draws : Nat
  /-- the commands the foreground has still to issue, encoded (R58, R63) -/
  prog : List Nat
  /-- the foreground's whole program, from its first command: what `prog` is again after a reset (R157) -/
  boot : List Nat
  /-- the moves the environment has still to make -/
  turns : List Turn
deriving DecidableEq, Repr

/-! Reset: R157 and R158. The draws of a reset are numbered from `n`. -/

/-- `drv_d`, `rdy`, `halt`, `irq`, `pri_out`, `ctrl_mode`, `ctrl_out` at reset (R158). -/
def Lines.reset : Lines := ⟨none, false, false, false, false, .host, 0b000⟩

/-- The dispatcher's registers at reset (R158): `A` and `PLB` are draws. -/
def Dispatcher.reset (n : Nat) : Dispatcher :=
  ⟨Config.drawBits16 n, Config.drawByte n, .idle, false, 0b000, none, false, false⟩

/-- The enables at reset (R158). -/
def Enables.reset : Enables := ⟨false, false, false, none⟩

/-- The tables at reset (R158): every slot is the default handler, every claim slot empty. -/
def Tables.reset : Tables := ⟨[], [], []⟩

/-- The arbiter at reset (R158): `int_vector` is a draw. -/
def Arbiter.reset (n : Nat) : Arbiter := ⟨.idle, Config.drawByte (n + 1), false, false, false⟩

/-- The DMA registers at reset (R158): direction, address, target, count and scratch are draws of their types. -/
def Dma.reset (p : Params) (n : Nat) : Dma where
  request := false
  ack := false
  active := false
  state := .dIdle
  dir := if Config.drawBit n then .rd else .wr
  addr := Config.drawBits16 (n + 1)
  tgt := if Config.drawBit (n + 1) then .buf (Config.drawNat n) else .scratch
  wbuf0 := Config.drawByte (n + 2)
  wbuf1 := Config.drawByte (n + 3)
  count := Config.drawNat (n + 1) % p.dmaCountMax + 1
  k := 0
  burstK := 0
  yieldK := 0
  xferPending := false
  addrDrive := false

/-- The foreground context at reset (R158). -/
def Foreground.reset : Foreground := ⟨none, none⟩

/-- The trace at reset (R158): every slot a draw. -/
def Trace.reset (n : Nat) : Trace := ⟨false, 0, [], n⟩

/-- `fault` and `refused` at reset (R158). -/
def Marks.reset : Marks := ⟨none, none⟩

/-- How many draws of one type a reset makes, at most. -/
def resetDraws : Nat := 5

/-- The host peers at launch. They are no part of the block: no memory is served, nothing is in flight, and their
address registers are draws (assumption 5). -/
def Peers.launch (n : Nat) : Peers :=
  ⟨[], Config.drawBits16 (n + 2), Config.drawByte (n + 4), false, false, none, none⟩

/-- The machine right after reset (R158), with the launch parameters of `Config.launch` and no input delivered. -/
def State.reset : State where
  par := Config.launch
  lines := .reset
  disp := .reset 0
  en := .reset
  tabs := .reset
  int := .reset 0
  dma := .reset Config.launch 0
  fg := .reset
  trace := .reset 0
  dev := Config.launchDev
  buf := []
  peers := .launch 0
  marks := .reset
  draws := resetDraws
  prog := []
  boot := []
  turns := []

end Sys2Proof.Machine
end

