-- ==== Sys2Proof/Machine/Ops.lean ====
section
/-! DEFINITION. Named operations on the state: sparse tables, host memory and `BUF`, draws, the fault and refusal
records, and the external reset. -/

namespace Sys2Proof.Machine
open Sys2Proof

/-! Sparse tables. -/

/-- What a table lists at a key. -/
def sparseGet {α : Type} (k : Nat) : Sparse α → Option α
  | [] => none
  | (j, v) :: r => if j = k then some v else sparseGet k r

/-- The table with `v` listed at `k`. -/
def sparseSet {α : Type} (k : Nat) (v : α) : Sparse α → Sparse α
  | [] => [(k, v)]
  | (j, w) :: r => if k < j then (k, v) :: (j, w) :: r else if j = k then (k, v) :: r else (j, w) :: sparseSet k v r

/-- The table with nothing listed at `k`. -/
def sparseErase {α : Type} (k : Nat) : Sparse α → Sparse α
  | [] => []
  | (j, w) :: r => if j = k then sparseErase k r else (j, w) :: sparseErase k r

/-- A slot of type Option: `None` is listed as nothing. -/
def sparsePut {α : Type} (k : Nat) (v : Option α) (m : Sparse α) : Sparse α :=
  match v with
  | some x => sparseSet k x m
  | none => sparseErase k m

/-! Host memory (R38) and the foreground buffer memory (R29, R36). -/

/-- `HostMem[a]`: `None` where no peer serves the address (R38). -/
def hostRead (m : List Host.Cell) (a : Bits16) : Option Byte := sparseGet a.toNat m

/-- `HostMem[a] <- v`, when a peer serves `a` (R38). -/
def hostWrite (m : List Host.Cell) (a : Bits16) (v : Byte) : List Host.Cell :=
  match hostRead m a with
  | some _ => sparseSet a.toNat v m
  | none => m

/-- `BUF[i]`. -/
def bufRead (m : List Host.Cell) (i : Nat) : Byte := (sparseGet i m).getD Config.bufUnlisted

/-- `BUF[i] <- v`. -/
def bufWrite (m : List Host.Cell) (i : Nat) (v : Byte) : List Host.Cell :=
  if v = Config.bufUnlisted then sparseErase i m else sparseSet i v m

/-- The canonical form of host memory: addresses rise, and each is a 16-bit address (R34). -/
abbrev hostMemWf (m : List Host.Cell) : Prop := Sparse.rising m ∧ ∀ c ∈ m, c.1 < 65536

/-- The canonical form of `BUF`: indexes rise, and no entry equals what an unlisted index reads as. -/
abbrev bufWf (m : List Host.Cell) : Prop := Sparse.rising m ∧ ∀ c ∈ m, c.2 ≠ Config.bufUnlisted

/-! Draws (R7): the run's next free value. -/

/-- `draw Byte`. -/
def drawByte (s : State) : Byte × State := (Config.drawByte s.draws, { s with draws := s.draws + 1 })

/-- `draw Bits16`. -/
def drawBits16 (s : State) : Bits16 × State := (Config.drawBits16 s.draws, { s with draws := s.draws + 1 })

/-! The bookkeeping record (R32). The hardware raises no exception (R138): these two are all there is. -/

/-- `raise Fault(BusContention)` (R7, R37). -/
def raiseContention (s : State) : State := { s with marks.fault := some .busContention }

/-- `refuse(reason)` (R7, R32). A record already set stays (assumption 11). -/
def refuse (r : RefuseReason) (s : State) : State :=
  { s with marks.refused := some (s.marks.refused.getD r) }

/-- `fg_result <- Some v` (R27). -/
def setResult (v : Value) (s : State) : State := { s with fg.result := some v }

/-! The oracles of R89: a pinned value where the launch gives one, else the constant without a body. -/

/-- `readH(h, dev)` -/
def readH (s : State) (h : Nat) : ReadReply := (s.par.logic.readH.lookup (h, s.dev)).getD (Config.readH h s.dev)

/-- `writeH(h, dev, v)` -/
def writeH (s : State) (h : Nat) (v : Byte) : WriteReply :=
  (s.par.logic.writeH.lookup (h, s.dev, v)).getD (Config.writeH h s.dev v)

/-- `claimP(c, dev, a)` -/
def claimP (s : State) (c : Nat) (a : Bits16) : Bool :=
  (s.par.logic.claimP.lookup (c, s.dev, a)).getD (Config.claimP c s.dev a)

/-- `claimR(c, dev, a)` -/
def claimR (s : State) (c : Nat) (a : Bits16) : Byte :=
  (s.par.logic.claimR.lookup (c, s.dev, a)).getD (Config.claimR c s.dev a)

/-- `claimW(c, dev, a, v)` -/
def claimW (s : State) (c : Nat) (a : Bits16) (v : Byte) : Dev :=
  (s.par.logic.claimW.lookup (c, s.dev, a, v)).getD (Config.claimW c s.dev a v)

/-! External reset. -/

/-- An external reset (R154, R157): all block state takes the values of R158, with fresh draws, and the entry point is
the foreground's first command again. `dev`, `BUF`, the parameters, the host peers and the environment's moves still to
come are not the block's and stay (R29, R157; assumption 7). -/
def externalReset (s : State) : State :=
  { s with
    lines := .reset
    disp := .reset s.draws
    en := .reset
    tabs := .reset
    int := .reset s.draws
    dma := .reset s.par s.draws
    fg := .reset
    trace := .reset s.draws
    marks := .reset
    draws := s.draws + resetDraws
    prog := s.boot }

end Sys2Proof.Machine
end

