-- ==== Sys2Proof/Machine/Operands.lean ====
section
/-! DEFINITION. Addresses and their fields (R35, R55, R56), byte order (R39), and what a capture of the data bus sees
(R37). -/

namespace Sys2Proof.Machine
open Sys2Proof

/-- `a[7:0]`, the I/O table index (R55). -/
def lowByte (a : Bits16) : Byte := a.extractLsb' 0 8

/-- `a[15:8]`, the page (R55). -/
def highByte (a : Bits16) : Byte := a.extractLsb' 8 8

/-- `h ++ l = h*256 + l` (R7, R56). -/
def assemble (h l : Byte) : Bits16 := h ++ l

/-- `a +16 1` (R7, R85). -/
def incr16 (a : Bits16) : Bits16 := a + 1

/-- `IO(a)` (R35). -/
def isIo (p : Params) (a : Bits16) : Bool := highByte a == p.ioPage

/-- What the agents other than this device drive (R65): what the event says, or the host peers' drive (R63). -/
def others (s : State) : Drive → Option Byte
  | .given e => e
  | .peers => s.peers.drive

/-- `BusValue(e)` of R37: the byte a capture of `D[7:0]` sees. -/
def busValue (e : Option Byte) (s : State) : Byte × State :=
  match e, s.lines.drvD with
  | none, none => drawByte s
  | some v, none => (v, s)
  | none, some u => (u, s)
  | some _, some _ => drawByte (raiseContention s)

end Sys2Proof.Machine
end

