-- ==== Sys2Proof/Machine/Flags.lean ====
section
/-! DEFINITION. The status bits that rules compute: the gate of the dispatcher (R20), the classification record
(R18) and the schedule bits (R73). -/

namespace Sys2Proof.Machine
open Sys2Proof

/-- The dispatcher has an activation only while `armed ∧ sysint` (R20, R65). -/
def dispatcherEnabled (s : State) : Bool := s.en.armed && s.en.sysint

/-- A handoff is in progress (R25). -/
def handoffPending (s : State) : Bool := s.dma.ack && !s.dma.active

/-- A DMA request is pending and not yet acknowledged (R74). -/
def requestOutstanding (s : State) : Bool := s.dma.request && !s.dma.ack

/-- The arbiter may request: `int_pending ∧ int_enable ∧ int_want` (R100). -/
def interruptReady (s : State) : Bool := s.int.pending && s.int.enable && s.int.want

/-- Does a transaction of this class at address `a` leave an increment for the next `P1F` (R73)? -/
def incDue (p : Params) (cyc : BusState) (al : Bool) (a : Bits16) : Bool :=
  (cyc == .read || cyc == .write) && !al && !isIo p a

/-- `last_ctrl <- p; (cyc, al) <- Classify(p)` (R70). -/
def setClassification (p : Bits3) (s : State) : State :=
  { s with
    disp.lastCtrl := p
    disp.cyc := (classify s.par.intack p).1
    disp.al := (classify s.par.intack p).2 }

end Sys2Proof.Machine
end

