-- ==== Sys2Proof/Machine/DmaEngine.lean ====
section
/-! DEFINITION. The DMA engine: its commands (R110 to R112, R126 to R129), the request step (R113), its steps as bus
master (R115 to R122) and the release (R123, R125). -/

namespace Sys2Proof.Machine
open Sys2Proof

/-! Commands. -/

/-- Does the buffer run past `BUF_SIZE` (R110, R112)? -/
def bufOverrun (p : Params) (tgt : Option DmaTarget) (count : Nat) : Bool :=
  match tgt with
  | some (.buf b) => decide (0 < count) && decide (p.bufSize < b + count)
  | some .scratch => false
  | none => false

/-- `DmaCommand` accepted: the engine's registers are loaded and the foreground is blocked (R110). -/
def dmaAccept (dir : DmaDir) (addr : Bits16) (tgt : DmaTarget) (count : Nat) (cmd : Cmd) (s : State) : State :=
  { s with
    dma := { s.dma with
      dir := dir, addr := addr, tgt := tgt, count := count, k := 0, burstK := 0, yieldK := 0,
      xferPending := false, addrDrive := false, state := .dSettle }
    fg := { s.fg with wait := some cmd, result := none } }

/-- `DmaCommand` of R110. `misuse` is what a call does that "degrades to a silent no-op" (R112). -/
def dmaCommand (misuse : State → State) (dir : DmaDir) (addr : Bits16) (tgt : Option DmaTarget) (count : Nat)
    (cmd : Cmd) (s : State) : State :=
  if s.par.dmaCountMax < count then refuse .argumentOutOfRange s
  else if bufOverrun s.par tgt count then refuse .bufferOutOfRange s
  else
    match tgt with
    | none => misuse s
    | some t => if count = 0 ∨ s.dma.state ≠ .dIdle then misuse s else dmaAccept dir addr t count cmd s

/-- The no-op that returns 0 (R112). -/
def returnZero (s : State) : State := setResult (.count 0) s

/-- A read wrapper's value when the block call returns 0: a draw (R126). -/
def returnDrawnByte (s : State) : State := setResult (.byte (drawByte s).1) (drawByte s).2

/-- The same for the word wrapper (R126). -/
def returnDrawnWord (s : State) : State := setResult (.word (drawBits16 s).1) (drawBits16 s).2

/-- DMA_READ_BLOCK (R110). -/
def dmaReadBlock (addr : Bits16) (buf : Option Nat) (count : Nat) : State → State :=
  dmaCommand returnZero .rd addr (buf.map .buf) count ⟨.dmaReadBlock addr buf count, rfl⟩

/-- DMA_WRITE_BLOCK (R111). -/
def dmaWriteBlock (addr : Bits16) (buf : Option Nat) (count : Nat) : State → State :=
  dmaCommand returnZero .wr addr (buf.map .buf) count ⟨.dmaWriteBlock addr buf count, rfl⟩

/-- DMA_READ_BYTE (R126). -/
def dmaReadByte (addr : Bits16) : State → State :=
  dmaCommand returnDrawnByte .rd addr (some .scratch) 1 ⟨.dmaReadByte addr, rfl⟩

/-- DMA_WRITE_BYTE (R127). -/
def dmaWriteByte (addr : Bits16) (v : Byte) (s : State) : State :=
  dmaCommand returnZero .wr addr (some .scratch) 1 ⟨.dmaWriteByte addr v, rfl⟩ { s with dma.wbuf0 := v }

/-- DMA_READ_WORD (R128). -/
def dmaReadWord (addr : Bits16) : State → State :=
  dmaCommand returnDrawnWord .rd addr (some .scratch) 2 ⟨.dmaReadWord addr, rfl⟩

/-- DMA_WRITE_WORD (R129). -/
def dmaWriteWord (addr : Bits16) (v : Bits16) (s : State) : State :=
  dmaCommand returnZero .wr addr (some .scratch) 2 ⟨.dmaWriteWord addr v, rfl⟩
    { s with dma.wbuf0 := lowByte v, dma.wbuf1 := highByte v }

/-- `RequestStep` of R113. -/
def requestStep (s : State) : State := { s with dma.request := true, dma.state := .dWaitAck }

/-! The bus-master sequence (file 43_dma_engine.md section 3). -/

/-- `Load(k)`. -/
def dmaLoad (s : State) (k : Nat) : Byte :=
  match s.dma.tgt with
  | .buf b => bufRead s.buf (b + k)
  | .scratch => if k = 0 then s.dma.wbuf0 else s.dma.wbuf1

/-- `Store(k, v)`. -/
def dmaStore (k : Nat) (v : Byte) (s : State) : State :=
  match s.dma.tgt with
  | .buf b => { s with buf := bufWrite s.buf (b + k) v }
  | .scratch => if k = 0 then { s with dma.wbuf0 := v } else { s with dma.wbuf1 := v }

/-- `Result(fg_wait)` of R125. -/
def dmaResult (s : State) : Value :=
  match s.fg.wait with
  | some ⟨.dmaReadByte _, _⟩ => .byte s.dma.wbuf0
  | some ⟨.dmaReadWord _, _⟩ => .word (assemble s.dma.wbuf1 s.dma.wbuf0)
  | some ⟨.dmaWriteByte _ _, _⟩ => .count 1
  | some ⟨.dmaWriteWord _ _, _⟩ => .count 2
  | _ => .count s.dma.count

/-- `Release()` of R123. -/
def dmaRelease (s : State) : State :=
  { s with
    lines := { s.lines with halt := false, ctrlMode := .host, ctrlOut := 0b000, drvD := none }
    dma := { s.dma with
      addrDrive := false, xferPending := false, ack := false, active := false, state := .dIdle,
      k := 0, burstK := 0, yieldK := 0 }
    en := { s.en with armed := true, sysint := true }
    fg := { s.fg with result := some (dmaResult s), wait := none } }

/-- `Release()` at the last byte's data edge. The drive of a write's last byte stays on the bus past this `EvP1R` and ends
at the next `EvP1F`, after its captures (R118, R119, R175, decision D22): the dispatcher, enabled again, ends it (R69).
DESIGN CHOICE, unsafe (assumption 27): the pseudocode of R123 clears `drv_d` here. -/
def dmaReleaseAtEdge (s : State) : State := { dmaRelease s with lines.drvD := s.lines.drvD }

/-- `Issue()` of R119. -/
def dmaIssue (s : State) : State :=
  { s with
    lines := { s.lines with ctrlOut := if s.dma.dir = .rd then 0b010 else 0b001 }
    dma := { s.dma with burstK := s.dma.burstK + 1, xferPending := true, state := .dXfer } }

/-- The start of a refresh yield (R121, R122). -/
def dmaBeginYield (s : State) : State :=
  { s with
    lines := { s.lines with ctrlOut := 0b000 }
    dma := { s.dma with yieldK := s.par.refreshIdle - 1, state := .dYield } }

/-- `NextCycle()` (R121 to R123). -/
def dmaNextCycle (s : State) : State :=
  if s.dma.k = s.dma.count then
    let s1 := { s with lines := { s.lines with ctrlOut := 0b000 } }
    if s.par.resume = .sameCycleP1F then dmaReleaseAtEdge s1 else s1
  else if s.dma.state = .dXfer ∧ s.dma.burstK = s.par.burstMax then
    let s1 := { s with dma := { s.dma with burstK := 0 } }
    if 0 < s.par.refreshIdle then dmaBeginYield s1 else dmaIssue s1
  else if s.dma.state = .dYield ∧ 0 < s.dma.yieldK then
    { s with
      lines := { s.lines with ctrlOut := 0b000 }
      dma := { s.dma with yieldK := s.dma.yieldK - 1 } }
  else dmaIssue s

/-- The data edge of a strobed byte (R120). -/
def dmaDataEdge (e : Option Byte) (s : State) : State :=
  let s1 :=
    match s.dma.dir with
    | .rd => dmaStore s.dma.k (busValue e s).1 (busValue e s).2
    | .wr => s
  { s1 with dma := { s1.dma with k := s1.dma.k + 1, xferPending := false } }

/-- `EngP1R(e1)` (R115 to R122). -/
def engP1R (e : Option Byte) (s : State) : State :=
  match s.dma.state with
  | .dWaitAck =>
    { s with
      en := { s.en with sysint := false }
      lines := { s.lines with ctrlOut := 0b100 }
      dma := { s.dma with state := .dAddrLo } }
  | .dAddrLo =>
    { s with
      lines := { s.lines with ctrlOut := 0b100 }
      dma := { s.dma with state := .dAddrHi } }
  | .dAddrHi => dmaIssue s
  | .dXfer => dmaNextCycle (if s.dma.xferPending then dmaDataEdge e s else s)
  | .dYield => dmaNextCycle s
  | .dIdle => s
  | .dSettle => s

/-- The address byte driven and to be released at the next `P1F` (R116 to R118). -/
def dmaDriveAddress (v : Byte) (s : State) : State :=
  { s with
    lines := { s.lines with drvD := some v }
    dma := { s.dma with addrDrive := true } }

/-- In a strobed cycle of a write the engine drives `Load(dma_k)` (R119). -/
def dmaDriveData (s : State) : State :=
  if s.dma.xferPending ∧ s.dma.dir = .wr then
    { s with lines := { s.lines with drvD := some (dmaLoad s s.dma.k) } }
  else s

/-- The release at the falling edge, where RESUME_POINT puts it there (R123). -/
def dmaLateRelease (s : State) : State :=
  if s.dma.k = s.dma.count ∧ s.par.resume = .nextCycleP1R then dmaRelease s else s

/-- The end of the engine's own drive of the data bus at the falling edge (R118, R119). -/
def dmaEndDrive (s : State) : State :=
  { s with
    lines := { s.lines with drvD := none }
    dma := { s.dma with addrDrive := false } }

/-- `EngP1F()` (R116 to R119, R123). -/
def engP1F (s : State) : State :=
  match s.dma.state with
  | .dAddrLo => dmaDriveAddress (lowByte s.dma.addr) (dmaEndDrive s)
  | .dAddrHi => dmaDriveAddress (highByte s.dma.addr) (dmaEndDrive s)
  | .dXfer => dmaLateRelease (dmaDriveData (dmaEndDrive s))
  | .dYield => dmaEndDrive s
  | .dWaitAck => dmaEndDrive s
  | .dIdle => dmaEndDrive s
  | .dSettle => dmaEndDrive s

/-- DMA_READ_BLOCK (R110). -/
def execDmaReadBlock (addr : Bits16) (buf : Option Nat) (count : Nat) (s : State) :
    Host.Outcome State Fault Refusal := .next (dmaReadBlock addr buf count s)

/-- DMA_WRITE_BLOCK (R111). -/
def execDmaWriteBlock (addr : Bits16) (buf : Option Nat) (count : Nat) (s : State) :
    Host.Outcome State Fault Refusal := .next (dmaWriteBlock addr buf count s)

/-- DMA_READ_BYTE (R126). -/
def execDmaReadByte (addr : Bits16) (s : State) : Host.Outcome State Fault Refusal := .next (dmaReadByte addr s)

/-- DMA_WRITE_BYTE (R127). -/
def execDmaWriteByte (addr : Bits16) (v : Byte) (s : State) : Host.Outcome State Fault Refusal :=
  .next (dmaWriteByte addr v s)

/-- DMA_READ_WORD (R128). -/
def execDmaReadWord (addr : Bits16) (s : State) : Host.Outcome State Fault Refusal := .next (dmaReadWord addr s)

/-- DMA_WRITE_WORD (R129). -/
def execDmaWriteWord (addr : Bits16) (v : Bits16) (s : State) : Host.Outcome State Fault Refusal :=
  .next (dmaWriteWord addr v s)

end Sys2Proof.Machine
end

