-- ==== Sys2Proof/Machine/Control.lean ====
section
/-! DEFINITION. ARM, the trace commands and the trace push (R133 to R137), and the reserved commands (R60). -/

namespace Sys2Proof.Machine
open Sys2Proof

/-- ARM (R133). -/
def armDispatcher (s : State) : State :=
  setResult .done { s with en.armed := true, en.sysint := true, en.armedOnce := true }

/-- TRACE_START (R134). -/
def traceStart (s : State) : State := setResult .done { s with trace.active := true }

/-- TRACE_STOP (R135). -/
def traceStop (s : State) : State := setResult .done { s with trace.active := false }

/-- `AUX(last_ctrl, A, d, dev)` of R136: a pinned value where the launch gives one, else a draw. -/
def auxByte (d : Byte) (s : State) : Byte × State :=
  match s.par.logic.aux.lookup (s.disp.lastCtrl, s.disp.a, d, s.dev) with
  | some b => (b, s)
  | none => drawByte s

/-- The record of R61 for a byte `d` captured at `P1R`. -/
def traceRecord (s : State) (d aux : Byte) : TraceRecord where
  ctrl := s.disp.lastCtrl.zeroExtend 8
  addrLo := lowByte s.disp.a
  addrHi := highByte s.disp.a
  data := d
  aux := aux

/-- `TracePush(d)` of R136. -/
def tracePush (d : Byte) (s : State) : State :=
  let x := auxByte d s
  { x.2 with
    trace.buf := sparseSet s.trace.idx (traceRecord s d x.1) s.trace.buf
    trace.idx := (s.trace.idx + 1) % s.par.traceSize }

/-- `trace_buf[k]` (R28): the last record pushed there, or the reset's draw. -/
def traceAt (t : Trace) (k : Nat) : TraceRecord :=
  (sparseGet k t.buf).getD
    ⟨Config.drawTrace t.seed k 0, Config.drawTrace t.seed k 1, Config.drawTrace t.seed k 2,
      Config.drawTrace t.seed k 3, Config.drawTrace t.seed k 4⟩

/-- ARM (R133). -/
def execArm (s : State) : Host.Outcome State Fault Refusal := .next (armDispatcher s)

/-- TRACE_START (R134). -/
def execTraceStart (s : State) : Host.Outcome State Fault Refusal := .next (traceStart s)

/-- TRACE_STOP (R135). -/
def execTraceStop (s : State) : Host.Outcome State Fault Refusal := .next (traceStop s)

/-- A reserved command (R60): the state is marked refused, whatever the opcode. -/
def execReserved (_op : Byte) (s : State) : Host.Outcome State Fault Refusal := .next (refuse .reservedCommand s)

end Sys2Proof.Machine
end

