-- ==== Sys2Proof/Machine/Interrupt.lean ====
section
/-! DEFINITION. Interrupt arbitration (R97 to R103) and its commands (R104 to R107). -/

namespace Sys2Proof.Machine
open Sys2Proof

/-- The request: both lines asserted, the arbiter in RequestPending (R100). -/
def assertRequest (s : State) : State :=
  { s with lines.irq := true, lines.priOut := true, int.arb := .requestPending }

/-- The end of a request: both lines released, the arbiter in Idle (R101, R102). -/
def releaseRequest (s : State) : State :=
  { s with lines.irq := false, lines.priOut := false, int.arb := .idle }

/-- The claimed acknowledge: the vector is supplied as the cycle's read data and the request marked serviced (R101). -/
def supplyVector (s : State) : State :=
  { s with lines.drvD := some s.int.vector, lines.rdy := true, int.pending := false }

/-- `ArbStep(cyc, pri)` of R98. DESIGN CHOICE (assumption 28): at a DMA_ACK an Idle arbiter requests as at any other `SP2`
(R98, R100), where the gloss of R81 says that the arbiter does nothing on it. -/
def arbStep (cyc : BusState) (pri : Bool) (s : State) : State :=
  match s.int.arb with
  | .idle =>
    if cyc == .interruptAck && pri then { s with int.enable := false }
    else if interruptReady s then assertRequest s
    else s
  | .requestPending =>
    if cyc == .interruptAck && !pri then supplyVector (releaseRequest s)
    else if cyc == .interruptAck && pri then releaseRequest s
    else s

/-- INT_SET_VECTOR (R104). -/
def intSetVector (v : Byte) (s : State) : State := setResult .done { s with int.vector := v }

/-- INT_ENABLE (R105). -/
def intEnable (b : Bool) (s : State) : State := setResult .done { s with int.enable := b }

/-- INT_REQUEST (R106). -/
def intRequest (b : Bool) (s : State) : State := setResult .done { s with int.pending := b }

/-- INT_WANT (R107). -/
def intWant (b : Bool) (s : State) : State := setResult .done { s with int.want := b }

/-- INT_SET_VECTOR (R104). -/
def execIntSetVector (v : Byte) (s : State) : Host.Outcome State Fault Refusal := .next (intSetVector v s)

/-- INT_ENABLE (R105). -/
def execIntEnable (b : Bool) (s : State) : Host.Outcome State Fault Refusal := .next (intEnable b s)

/-- INT_REQUEST (R106). -/
def execIntRequest (b : Bool) (s : State) : Host.Outcome State Fault Refusal := .next (intRequest b s)

/-- INT_WANT (R107). -/
def execIntWant (b : Bool) (s : State) : Host.Outcome State Fault Refusal := .next (intWant b s)

end Sys2Proof.Machine
end

