-- ==== Sys2Proof/Machine/Registration.lean ====
section
/-! DEFINITION. The registration commands (R90 to R94) and the accessor searches (R71, R72, R95). -/

namespace Sys2Proof.Machine
open Sys2Proof

/-- What the three table commands share: a late one is refused (R94), else the tables change and `()` is returned. -/
def registerStep (f : Tables → Tables) (s : State) : State :=
  if s.en.armedOnce then refuse .lateRegistration s
  else setResult .done { s with tabs := f s.tabs }

/-- REG_READ (R90). -/
def regRead (lo : Byte) (h : Nat) : State → State :=
  registerStep fun t => { t with rdTab := sparseSet lo.toNat h t.rdTab }

/-- REG_WRITE (R91). -/
def regWrite (lo : Byte) (h : Nat) : State → State :=
  registerStep fun t => { t with wrTab := sparseSet lo.toNat h t.wrTab }

/-- UNREGISTER (R92): both directions. -/
def unregister (lo : Byte) : State → State :=
  registerStep fun t =>
    { t with rdTab := sparseErase lo.toNat t.rdTab, wrTab := sparseErase lo.toNat t.wrTab }

/-- CLAIM_SET (R93): the range check comes first. -/
def claimSet (i : Nat) (c : Option Nat) (s : State) : State :=
  if i ≥ s.par.maxClaims then refuse .argumentOutOfRange s
  else registerStep (fun t => { t with claims := sparsePut i c t.claims }) s

/-- The first claim in slot order whose predicate covers `a`, with its slot (R71, R72, R95). The list holds the
claimed slots in rising order. -/
def firstClaim (s : State) (a : Bits16) : Sparse Nat → Option (Nat × Nat)
  | [] => none
  | (i, c) :: r => if claimP s c a then some (i, c) else firstClaim s a r

/-- `ResolveWrite(a)` of R72. -/
def resolveWrite (s : State) (a : Bits16) : Option WriteTarget :=
  match firstClaim s a s.tabs.claims with
  | some (i, _) => some (.claimT i)
  | none =>
    if isIo s.par a && (sparseGet (lowByte a).toNat s.tabs.wrTab).isSome then some (.ioT (lowByte a)) else none

/-- REG_READ (R90). -/
def execRegRead (lo : Byte) (h : Nat) (s : State) : Host.Outcome State Fault Refusal := .next (regRead lo h s)

/-- REG_WRITE (R91). -/
def execRegWrite (lo : Byte) (h : Nat) (s : State) : Host.Outcome State Fault Refusal := .next (regWrite lo h s)

/-- UNREGISTER (R92). -/
def execUnregister (lo : Byte) (s : State) : Host.Outcome State Fault Refusal := .next (unregister lo s)

/-- CLAIM_SET (R93). -/
def execClaimSet (i : Nat) (c : Option Nat) (s : State) : Host.Outcome State Fault Refusal := .next (claimSet i c s)

end Sys2Proof.Machine
end

