-- ==== Sys2Proof/Machine/Handlers.lean ====
section
/-! DEFINITION. The calls of device logic from inside the dispatcher: the commands a handler returns (R89, R139), the
read accessor search (R71) and the write dispatch (R67). -/

namespace Sys2Proof.Machine
open Sys2Proof

/-- One command returned by a handler (R89): a reserved or a blocking one is refused, any other is performed by its
rule, as if it were a foreground step. DESIGN CHOICE, unsafe (assumption 29): that rule's write of `fg_result` is performed
too, where R30 gives it to the foreground's commands and the DMA release, and R144 leaves the foreground's state alone. -/
def applyCmd (s : State) (cmd : Cmd) : State :=
  match cmd with
  | ⟨.reserved _, _⟩ => refuse .reservedCommand s
  | ⟨.dmaReadBlock .., _⟩ => refuse .blockingFromHandler s
  | ⟨.dmaWriteBlock .., _⟩ => refuse .blockingFromHandler s
  | ⟨.dmaReadByte .., _⟩ => refuse .blockingFromHandler s
  | ⟨.dmaWriteByte .., _⟩ => refuse .blockingFromHandler s
  | ⟨.dmaReadWord .., _⟩ => refuse .blockingFromHandler s
  | ⟨.dmaWriteWord .., _⟩ => refuse .blockingFromHandler s
  | ⟨.regRead lo h, _⟩ => regRead lo h s
  | ⟨.regWrite lo h, _⟩ => regWrite lo h s
  | ⟨.unregister lo, _⟩ => unregister lo s
  | ⟨.claimSet i c, _⟩ => claimSet i c s
  | ⟨.arm, _⟩ => armDispatcher s
  | ⟨.traceStart, _⟩ => traceStart s
  | ⟨.traceStop, _⟩ => traceStop s
  | ⟨.intSetVector v, _⟩ => intSetVector v s
  | ⟨.intEnable b, _⟩ => intEnable b s
  | ⟨.intRequest b, _⟩ => intRequest b s
  | ⟨.intWant b, _⟩ => intWant b s

/-- `Apply(cmds)` of R89, in list order. -/
def applyCmds (cmds : List Cmd) (s : State) : State := cmds.foldl applyCmd s

/-- The call of a read handler (R71): it may change `dev` and issue commands whether or not it claims. -/
def callReadHandler (h : Nat) (s : State) : Option Byte × State :=
  let r := readH s h
  (if r.claimed then some r.value else none, applyCmds r.cmds { s with dev := r.dev })

/-- The call of a write handler with a byte (R67). -/
def callWriteHandler (h : Nat) (v : Byte) (s : State) : State :=
  let r := writeH s h v
  applyCmds r.cmds { s with dev := r.dev }

/-- `ResolveRead(a)` of R71. -/
def resolveRead (a : Bits16) (s : State) : Option Byte × State :=
  match firstClaim s a s.tabs.claims with
  | some (_, c) => (some (claimR s c a), s)
  | none =>
    if isIo s.par a then
      match sparseGet (lowByte a).toNat s.tabs.rdTab with
      | some h => callReadHandler h s
      | none => (none, s)
    else (none, s)

/-- The scheduled write of R67, with the byte captured at `P1R`. A slot that holds nothing any more runs nothing: no run
reaches such a state (assumption 12). -/
def performWrite (d : Byte) (s : State) : State :=
  match s.disp.schedWrite with
  | none => s
  | some (.claimT i) =>
    match sparseGet i s.tabs.claims with
    | some c => { s with dev := claimW s c s.disp.a d }
    | none => s
  | some (.ioT lo) =>
    match sparseGet lo.toNat s.tabs.wrTab with
    | some h => callWriteHandler h d s
    | none => s

end Sys2Proof.Machine
end

