-- ==== Sys2Proof/Machine/HostPeers.lean ====
section
/-! DEFINITION. The host peers of R38: they decode every transaction as the dispatcher does and keep the bus address by
the same law (R69, R73), and serve Read and Write transactions from `HostMem`. -/

namespace Sys2Proof.Machine
open Sys2Proof

/-- The peers at `P1R`: a Write transaction's byte lands (R38). They capture the bus only then. -/
def peersP1R (e : Option Byte) (s : State) : State :=
  match s.peers.write with
  | none => s
  | some a =>
    let x := busValue e s
    { x.2 with peers := { s.peers with mem := hostWrite s.peers.mem a x.1, write := none } }

/-- The peers' address register after a `P1F` capture `d`, by the law of R69. -/
def peersAddress (d : Byte) (p : Peers) : Bits16 :=
  if p.load then assemble d p.hplb else if p.inc then incr16 p.ha else p.ha

/-- What the peers do with a transaction of pattern `p` sampled at `SP2`, at their address `a` (R38, R73). -/
def peersSample (par : Params) (p : Bits3) (a : Bits16) (q : Peers) : Peers :=
  let c := classify par.intack p
  { q with
    load := c.2
    inc := incDue par c.1 c.2 a
    drive := if c.1 = .read ∧ c.2 = false then hostRead q.mem a else none
    write := if c.1 = .write ∧ c.2 = false then some a else none }

/-- The peers at `P1F` and the `SP2` that follows (R38). -/
def peersP1F (e : Option Byte) (p : Bits3) (s : State) : State :=
  let x := busValue e s
  let a := peersAddress x.1 s.peers
  { x.2 with peers := peersSample s.par p a { s.peers with ha := a, hplb := x.1 } }

end Sys2Proof.Machine
end

