-- ==== Sys2Proof/Machine/Events.lean ====
section
/-! DEFINITION. The per-edge steps of the dispatcher (R67 to R74) and the two host clock events (R65). -/

namespace Sys2Proof.Machine
open Sys2Proof

/-- `OnP1R(e1)` of R67. -/
def onP1R (e : Option Byte) (s : State) : State :=
  let x := busValue e s
  let s1 := performWrite x.1 x.2
  let s2 := { s1 with disp.schedWrite := none }
  if s2.trace.active then tracePush x.1 s2 else s2

/-- The end of a read or vector drive (R69). -/
def endDrive (s : State) : State :=
  match s.lines.drvD with
  | some _ => { s with lines := { s.lines with drvD := none, rdy := false } }
  | none => s

/-- The address register after a `P1F` capture `d` (R69). -/
def nextAddress (d : Byte) (r : Dispatcher) : Bits16 :=
  if r.schedLoad then assemble d r.plb else if r.schedInc then incr16 r.a else r.a

/-- `OnP1F(e2)` of R69. -/
def onP1F (e : Option Byte) (s : State) : State :=
  let x := busValue e s
  endDrive { x.2 with
    disp := { x.2.disp with
      a := nextAddress x.1 x.2.disp, schedLoad := false, schedInc := false, plb := x.1 } }

/-- The read response of R70: drive the byte and assert RDY where an accessor matched, else stay silent. -/
def respondRead (s : State) : State :=
  let r := resolveRead s.disp.a s
  match r.1 with
  | some v => { r.2 with lines := { r.2.lines with drvD := some v, rdy := true } }
  | none => r.2

/-- The DMA request line (R74). -/
def driveHalt (s : State) : State := if requestOutstanding s then { s with lines.halt := true } else s

/-- The acknowledge of an outstanding request (R81). -/
def acknowledgeDma (s : State) : State :=
  if s.disp.cyc = .dmaAck ∧ requestOutstanding s then
    { s with
      en := { s.en with armed := false }
      dma := { s.dma with ack := true, request := false } }
  else s

/-- `Schedule(cyc, al)` of R73. -/
def scheduleNext (s : State) : State :=
  { s with
    disp := { s.disp with
      schedLoad := s.disp.al
      schedInc := incDue s.par s.disp.cyc s.disp.al s.disp.a
      schedWrite := if s.disp.cyc = .write ∧ s.disp.al = false then resolveWrite s s.disp.a else none } }

/-- `OnSP2(p, pri)` of R70. -/
def onSP2 (p : Bits3) (pri : Bool) (s : State) : State :=
  let s1 := setClassification p s
  let s2 := if s1.disp.cyc = .read then respondRead s1 else s1
  let s3 := arbStep s1.disp.cyc pri s2
  scheduleNext (acknowledgeDma (driveHalt s3))

/-- `HandoffStep` of R68, where a handoff is in progress. -/
def handoffStep (s : State) : State :=
  if handoffPending s then
    { s with
      lines := { s.lines with ctrlMode := .device, ctrlOut := 0b000 }
      dma := { s.dma with active := true } }
  else s

/-- The last event seen (R21, R65). -/
def markEvent (k : EventKind) (s : State) : State := { s with en := { s.en with lastEvent := some k } }

/-- The event `EvP1R(e1)` of R65. The peers' capture sees the lines as they stood before the event (R109). -/
def evP1R (d : Drive) (s : State) : State :=
  let e := others s d
  let s1 := handoffStep (peersP1R e s)
  let s2 := if dispatcherEnabled s1 then onP1R e s1 else s1
  let s3 := if s2.dma.active then engP1R e s2 else s2
  markEvent .p1r s3

/-- The event `EvP1F(e2, p, pri)` of R65. -/
def evP1F (d : Drive) (p : Bits3) (pri : Bool) (s : State) : State :=
  let e := others s d
  let s1 := peersP1F e p s
  let s2 := if dispatcherEnabled s1 then onSP2 p pri (onP1F e s1) else s1
  let s3 := if s2.dma.active then engP1F s2 else s2
  markEvent .p1f s3

end Sys2Proof.Machine
end

