-- ==== Sys2Proof/Machine/BusCycle.lean ====
section
/-! DEFINITION. The eight bus-cycle classes (R75 to R82): each is the event `EvP1F` with the class's pattern. What the
class leaves for phase 1 of the next cycle is in the schedule, which `evP1R` and the next `EvP1F` carry out (R66). -/

namespace Sys2Proof.Machine
open Sys2Proof

/-- IDLE (R75). -/
def execIdle (e : Drive) (pri : Bool) (s : State) : Host.Outcome State Fault Refusal := .next (evP1F e 0b000 pri s)

/-- ADDR_LOAD (R76). -/
def execAddrLoad (e : Drive) (pri : Bool) (s : State) : Host.Outcome State Fault Refusal :=
  .next (evP1F e 0b100 pri s)

/-- READ (R77). -/
def execRead (e : Drive) (pri : Bool) (s : State) : Host.Outcome State Fault Refusal := .next (evP1F e 0b010 pri s)

/-- READ_AL (R78, R52). -/
def execReadAl (wr : Bool) (e : Drive) (pri : Bool) (s : State) : Host.Outcome State Fault Refusal :=
  .next (evP1F e (if wr then 0b111 else 0b110) pri s)

/-- WRITE (R79). -/
def execWrite (e : Drive) (pri : Bool) (s : State) : Host.Outcome State Fault Refusal := .next (evP1F e 0b001 pri s)

/-- WRITE_AL (R80). -/
def execWriteAl (e : Drive) (pri : Bool) (s : State) : Host.Outcome State Fault Refusal :=
  .next (evP1F e 0b101 pri s)

/-- DMA_ACK (R81). -/
def execDmaAck (e : Drive) (pri : Bool) (s : State) : Host.Outcome State Fault Refusal := .next (evP1F e 0b011 pri s)

/-- INT_ACK (R82). -/
def execIntAck (e : Drive) (pri : Bool) (s : State) : Host.Outcome State Fault Refusal :=
  .next (evP1F e (intackBits s.par.intack) pri s)

end Sys2Proof.Machine
end

