-- ==== Sys2Proof/Machine/Dispatch.lean ====
section
/-! DEFINITION. One arm per operation of the block, each one call of its meaning. -/

namespace Sys2Proof.Machine
open Sys2Proof

def exec (i : Instr) (s : State) : Host.Outcome State Fault Refusal :=
  match i with
  -- the bus-cycle classes (R75 to R82)
  | .idle e pri => Sys2Proof.Machine.execIdle e pri s
  | .addrLoad e pri => Sys2Proof.Machine.execAddrLoad e pri s
  | .read e pri => Sys2Proof.Machine.execRead e pri s
  | .readAl wr e pri => Sys2Proof.Machine.execReadAl wr e pri s
  | .write e pri => Sys2Proof.Machine.execWrite e pri s
  | .writeAl e pri => Sys2Proof.Machine.execWriteAl e pri s
  | .dmaAck e pri => Sys2Proof.Machine.execDmaAck e pri s
  | .intAck e pri => Sys2Proof.Machine.execIntAck e pri s
  -- the registration commands (R90 to R93)
  | .regRead lo h => Sys2Proof.Machine.execRegRead lo h s
  | .regWrite lo h => Sys2Proof.Machine.execRegWrite lo h s
  | .unregister lo => Sys2Proof.Machine.execUnregister lo s
  | .claimSet n c => Sys2Proof.Machine.execClaimSet n c s
  -- arming and the trace (R133 to R135)
  | .arm => Sys2Proof.Machine.execArm s
  | .traceStart => Sys2Proof.Machine.execTraceStart s
  | .traceStop => Sys2Proof.Machine.execTraceStop s
  -- the arbiter's commands (R104 to R107)
  | .intSetVector v => Sys2Proof.Machine.execIntSetVector v s
  | .intEnable b => Sys2Proof.Machine.execIntEnable b s
  | .intRequest b => Sys2Proof.Machine.execIntRequest b s
  | .intWant b => Sys2Proof.Machine.execIntWant b s
  -- the DMA commands (R110, R111, R126 to R129)
  | .dmaReadBlock addr buf count => Sys2Proof.Machine.execDmaReadBlock addr buf count s
  | .dmaWriteBlock addr buf count => Sys2Proof.Machine.execDmaWriteBlock addr buf count s
  | .dmaReadByte addr => Sys2Proof.Machine.execDmaReadByte addr s
  | .dmaWriteByte addr v => Sys2Proof.Machine.execDmaWriteByte addr v s
  | .dmaReadWord addr => Sys2Proof.Machine.execDmaReadWord addr s
  | .dmaWriteWord addr v => Sys2Proof.Machine.execDmaWriteWord addr v s
  -- the reserved opcodes (R60)
  | .reserved op => Sys2Proof.Machine.execReserved op s

end Sys2Proof.Machine
end

