-- ==== Sys2Proof/Machine/Fetch.lean ====
section
/-! DEFINITION. Where the next operation comes from. The block fetches no instructions (R48): the host's control lines
give the bus-cycle classes and the foreground gives the commands. -/

namespace Sys2Proof.Machine
open Sys2Proof

/-- The pattern sampled at `SP2`: this device's own `ctrl_out` while it drives the control lines (R65). -/
def sampledPattern (s : State) (p : Bits3) : Bits3 :=
  match s.lines.ctrlMode with
  | .host => p
  | .device => s.lines.ctrlOut

/-- What the foreground does with a turn: its request step while a DMA command settles (R113), nothing while it is
blocked or has no command left (R125), else its next command. -/
inductive ForegroundMove where
  | request
  | hold
  | issue (i : Instr) (rest : List Nat)
  | undecodable
deriving DecidableEq, Repr

/-- The foreground's move. -/
def foregroundMove (s : State) : ForegroundMove :=
  if s.dma.state = .dSettle then .request
  else if s.fg.wait.isSome then .hold
  else
    match s.prog with
    | [] => .hold
    | n :: r =>
      match decodeCmd (n :: r) with
      | .ok (i, rest) => .issue i rest
      | .error _ => .undecodable

/-- The foreground's own work on `dev` (R30); it does none while it is blocked (R125). -/
def workOnDev (d : Dev) (s : State) : State := if s.fg.wait.isSome then s else { s with dev := d }

/-- Does an event of this kind keep the host's duty that events alternate (R154)? -/
def alternates (s : State) (k : EventKind) : Bool := s.en.lastEvent != some k

/-- The state in which the next turn delivers a bus-cycle class: the event alone is to come, and it may come. -/
def placeCycle (s : State) (e : Drive) (p : Bits3) (pri : Bool) : State :=
  { s with
    turns := [.fall e p pri]
    en := { s.en with lastEvent := if s.en.lastEvent = some .p1f then none else s.en.lastEvent } }

/-- The state in which the next turn lets the foreground issue a command. -/
def placeCommand (s : State) (ws : List Nat) : State := { s with turns := [.foreground], prog := ws }

end Sys2Proof.Machine
end

