-- ==== Sys2Proof/Machine/Step.lean ====
section
/-! DEFINITION. One step: the environment's next turn. -/

namespace Sys2Proof.Machine
open Sys2Proof

/-- A foreground turn. -/
def stepForeground (s : State) : Host.Outcome State Fault Refusal :=
  match foregroundMove s with
  | .request => .next (requestStep s)
  | .hold => .next s
  | .issue i rest => exec i { s with prog := rest }
  | .undecodable => .refused .undecodableCommand

/-- One turn of a machine whose record is clear. -/
def stepTurn (t : Turn) (s : State) : Host.Outcome State Fault Refusal :=
  match t with
  | .rise e => if alternates s .p1r then .next (evP1R e s) else .refused .eventsDoNotAlternate
  | .fall e p pri =>
    if alternates s .p1f then exec (decodeCycle s.par.intack (sampledPattern s p) e pri) s
    else .refused .eventsDoNotAlternate
  | .foreground => stepForeground s
  | .setDev d => .next (workOnDev d s)
  | .reset => .next (externalReset s)

/-- One step (R65). With no turn left the clock has stopped and nothing happens (R170). An external reset is taken in
every state (R154). In a state whose record is set the spec gives no meaning to anything else (R32). -/
def step (s : State) : Host.Outcome State Fault Refusal :=
  match s.turns with
  | [] => .next s
  | .reset :: ts => stepTurn .reset { s with turns := ts }
  | t :: ts =>
    match s.marks.fault, s.marks.refused with
    | some f, _ => .fault f
    | none, some r => .refused (.withheld r)
    | none, none => stepTurn t { s with turns := ts }

/-- The state whose next step runs the instruction of one row of the opcode table. A class is delivered by the host's
control lines and a command by the foreground (assumption 13). -/
def State.withFetchWord (s : State) (nbits w : Nat) : State :=
  if tableWordIsCycle nbits w then placeCycle s (.given none) (BitVec.ofNat 3 w) false
  else placeCommand s (tableWordFields w)

end Sys2Proof.Machine
end

