-- ==== Sys2Proof/Safety.lean ====
section
/-! DEFINITION. What claims call a good state: the invariants of R31 with the facts they rest on, the ranges of R26 and
R28, the canonical forms, and the end of a run (R177). -/

namespace Sys2Proof.Machine
open Sys2Proof

/-- The invariants 2 to 7 of R31. -/
structure Exclusive (s : State) : Prop where
  active_acked : s.dma.active = true → s.dma.ack = true
  ack_ends_request : s.dma.ack = true → s.dma.request = false
  active_is_master : s.dma.active = true → s.en.armed = false ∧ s.lines.ctrlMode = .device
  master_is_active : s.lines.ctrlMode = .device → s.dma.active = true
  load_excludes_inc : s.disp.schedLoad = true → s.disp.schedInc = false
  ready_drives : s.lines.rdy = true → s.lines.drvD ≠ none

/-- The invariants of R31 and what makes them hold over every step: the engine is busy exactly while a command is in
progress (R26, R27, invariant 1 of R31), a request is outstanding and a handoff is due only in `DWaitAck`, an
acknowledged transfer has the dispatcher disarmed and `RDY` released, and only an ARM made the dispatcher run (R20). -/
structure Coherent (s : State) : Prop extends Exclusive s where
  busy_iff_waiting : s.dma.state = .dIdle ↔ s.fg.wait = none
  request_waits : s.dma.request = true → s.dma.state = .dWaitAck
  ack_is_busy : s.dma.ack = true → s.dma.state ≠ .dIdle ∧ s.dma.state ≠ .dSettle
  handoff_waits : s.dma.ack = true → s.dma.active = false → s.dma.state = .dWaitAck
  ack_disarms : s.dma.ack = true → s.en.armed = false
  ack_is_quiet : s.dma.ack = true → s.lines.rdy = false
  armed_by_arm : s.en.armed = true ∨ s.dma.ack = true → s.en.armedOnce = true

/-- The ranges the spec gives the counters: `dma_count` from 1, `dma_k` to `dma_count`, `burst_k` to `BURST_MAX`,
`yield_k` to `REFRESH_IDLE_CYCLES` (R26), `trace_idx` below `TRACE_SIZE` (R28), and what keeps them there. -/
structure InRange (s : State) : Prop where
  parameters_legal : s.par.legal
  count_positive : 1 ≤ s.dma.count
  k_le_count : s.dma.k ≤ s.dma.count
  burst_le_max : s.dma.burstK ≤ s.par.burstMax
  yield_le_refresh : s.dma.yieldK ≤ s.par.refreshIdle
  trace_idx_lt : s.trace.idx < s.par.traceSize
  pending_in_xfer : s.dma.xferPending = true → s.dma.state = .dXfer ∧ s.dma.k < s.dma.count
  burst_only_in_xfer : s.dma.state ≠ .dXfer → s.dma.burstK = 0
  buffer_fits : ∀ b, s.dma.state ≠ .dIdle → s.dma.tgt = .buf b → b + s.dma.count ≤ s.par.bufSize
  no_byte_before_xfer : s.dma.state ≠ .dXfer → s.dma.state ≠ .dYield → s.dma.k = 0

/-- Every memory and table is in its canonical form, and lists only keys its space has (R22, R23, R28, R34, R36). -/
structure Canonical (s : State) : Prop where
  host_memory : hostMemWf s.peers.mem
  buffer : bufWf s.buf ∧ ∀ c ∈ s.buf, c.1 < s.par.bufSize
  read_table : Sparse.rising s.tabs.rdTab ∧ ∀ c ∈ s.tabs.rdTab, c.1 < 256
  write_table : Sparse.rising s.tabs.wrTab ∧ ∀ c ∈ s.tabs.wrTab, c.1 < 256
  claim_list : Sparse.rising s.tabs.claims ∧ ∀ c ∈ s.tabs.claims, c.1 < s.par.maxClaims
  trace_ring : Sparse.rising s.trace.buf ∧ ∀ c ∈ s.trace.buf, c.1 < s.par.traceSize

/-- The record of R32 is clear: the spec gives the state a meaning. -/
abbrev Unmarked (s : State) : Prop := s.marks.fault = none ∧ s.marks.refused = none

/-- The end of a run (R177): the script's last line is done (no event and no command is left of it), nothing is in
flight, and the record is clear. -/
abbrev Ended (s : State) : Prop := s.turns = [] ∧ s.prog = [] ∧ s.fg.wait = none ∧ Unmarked s

/-! What claims about one event say. -/

/-- Exactly one side drives the data bus, with byte `v` (R37). -/
abbrev OneDriver (s : State) (d : Drive) (v : Byte) : Prop :=
  (others s d = some v ∧ s.lines.drvD = none) ∨ (others s d = none ∧ s.lines.drvD = some v)

/-- Both sides drive the data bus (R37). -/
abbrev Contended (s : State) (d : Drive) : Prop := (others s d).isSome = true ∧ s.lines.drvD.isSome = true

/-- The elements R158 gives a reset value, at that value. -/
structure AtReset (t : State) : Prop where
  lines : t.lines.drvD = none ∧ t.lines.rdy = false ∧ t.lines.halt = false ∧ t.lines.irq = false ∧
    t.lines.priOut = false ∧ t.lines.ctrlMode = .host ∧ t.lines.ctrlOut = 0b000
  classification : t.disp.cyc = .idle ∧ t.disp.al = false ∧ t.disp.lastCtrl = 0b000
  schedule : t.disp.schedWrite = none ∧ t.disp.schedLoad = false ∧ t.disp.schedInc = false
  enables : t.en.armed = false ∧ t.en.sysint = false ∧ t.en.armedOnce = false ∧ t.en.lastEvent = none
  tables : ∀ k, sparseGet k t.tabs.rdTab = none ∧ sparseGet k t.tabs.wrTab = none ∧ sparseGet k t.tabs.claims = none
  arbiter : t.int.arb = .idle ∧ t.int.enable = false ∧ t.int.pending = false ∧ t.int.want = false
  dma_flags : t.dma.request = false ∧ t.dma.ack = false ∧ t.dma.active = false ∧ t.dma.state = .dIdle
  dma_counters : t.dma.k = 0 ∧ t.dma.burstK = 0 ∧ t.dma.yieldK = 0 ∧ t.dma.xferPending = false ∧
    t.dma.addrDrive = false
  foreground : t.fg.wait = none ∧ t.fg.result = none
  trace : t.trace.active = false ∧ t.trace.idx = 0
  record : t.marks.fault = none ∧ t.marks.refused = none

/-- What every `EvP1F` with the dispatcher enabled does, whatever its class: phase 1 completes what the previous class
left (R69), `SP2` classifies and schedules (R70, R73), and the request line follows an outstanding request (R74). `v`
is the byte captured at `P1F`. -/
structure CycleDone (s t : State) (d : Drive) (p : Bits3) (cyc : BusState) (al : Bool) (v : Byte) : Prop where
  captured : ∀ w, OneDriver s d w → v = w
  contention : t.marks.fault = if Contended s d then some .busContention else s.marks.fault
  address : t.disp.a =
    if s.disp.schedLoad then assemble v s.disp.plb else if s.disp.schedInc then s.disp.a + 1 else s.disp.a
  low_byte : t.disp.plb = v
  classified : t.disp.lastCtrl = p ∧ t.disp.cyc = cyc ∧ t.disp.al = al
  load_scheduled : t.disp.schedLoad = al
  inc_scheduled : t.disp.schedInc = true ↔ (cyc = .read ∨ cyc = .write) ∧ al = false ∧ highByte t.disp.a ≠ s.par.ioPage
  halt : t.lines.halt = (s.lines.halt || s.dma.request)
  control_lines : t.lines.ctrlMode = s.lines.ctrlMode ∧ t.lines.ctrlOut = s.lines.ctrlOut
  event : t.en.lastEvent = some .p1f
  kept : t.par = s.par ∧ t.tabs = s.tabs ∧ t.buf = s.buf ∧ t.fg.wait = s.fg.wait ∧ t.trace.idx = s.trace.idx ∧
    t.trace.buf = s.trace.buf ∧ t.prog = s.prog ∧ t.boot = s.boot ∧
    t.turns = s.turns
  host_memory : ∀ a, hostRead t.peers.mem a = hostRead s.peers.mem a

/-- What an `EvP1F` leaves unchanged beside that when no handler runs in it and it acknowledges no DMA request. -/
abbrev NoHandlerFrame (s t : State) : Prop :=
  t.dev = s.dev ∧ t.dma = s.dma ∧ t.en = { s.en with lastEvent := some .p1f } ∧ t.fg = s.fg ∧ t.trace = s.trace ∧
    t.marks.refused = s.marks.refused

/-- The arbiter outside an interrupt acknowledge (R100, R103): from Idle it requests where it may, else nothing of it
changes. -/
abbrev ArbiterOutsideAck (s t : State) : Prop :=
  if s.int.arb = .idle ∧ s.int.pending = true ∧ s.int.enable = true ∧ s.int.want = true then
    t.int = { s.int with arb := .requestPending } ∧ t.lines.irq = true ∧ t.lines.priOut = true
  else t.int = s.int ∧ t.lines.irq = s.lines.irq ∧ t.lines.priOut = s.lines.priOut

/-- The device drives nothing and RDY is released. -/
abbrev Silent (t : State) : Prop := t.lines.drvD = none ∧ t.lines.rdy = false

/-- The device drives `v` with RDY. -/
abbrev Answers (t : State) (v : Byte) : Prop := t.lines.drvD = some v ∧ t.lines.rdy = true

/-- The answer to a Read at address `a` (R71, R77, R84): the first claim that covers it, else in I/O space the read
handler of the slot, else silence. A handler that ran has set `dev` and its commands have been applied in order (R89)
before the arbiter's step; beside that the event does what one without a handler does. -/
def ReadAnswered (s t : State) (a : Bits16) : Prop :=
  match firstClaim s a s.tabs.claims with
  | some (_, c) => Answers t (claimR s c a) ∧ NoHandlerFrame s t ∧ ArbiterOutsideAck s t
  | none =>
    match (if highByte a = s.par.ioPage then sparseGet (lowByte a).toNat s.tabs.rdTab else none) with
    | some h =>
      let u := applyCmds (readH s h).cmds { s with dev := (readH s h).dev }
      (if (readH s h).claimed = true then Answers t (readH s h).value else Silent t) ∧ NoHandlerFrame u t ∧
        ArbiterOutsideAck u t
    | none => Silent t ∧ NoHandlerFrame s t ∧ ArbiterOutsideAck s t

/-- The end of an `EvP1R` with the dispatcher enabled (R67): `u` is the state after the scheduled write. The schedule is
cleared, and the byte `v` of the edge is pushed exactly where a trace is active (R136). -/
def EdgeCompleted (v : Byte) (u t : State) : Prop :=
  let w := { u with disp := { u.disp with schedWrite := none } }
  (u.trace.active = true → t = markEvent .p1r (tracePush v w)) ∧ (u.trace.active = false → t = markEvent .p1r w)

end Sys2Proof.Machine
end

