-- ==== Sys2Proof/Certificates/Slice0/Obligations.lean ====
section
/-! DEFINITION. The statements about the model, from the numbered rules of spec/. Each says in its docstring which rule
it formalises, or what it is derived from. `Coherent`, `InRange` and `Canonical` are invariants: that they hold at reset
and over every step are statements of their own. -/

open Sys2Proof Sys2Proof.Machine

/-! ### Encoding -/

/-- R58, R60, R63: a well-formed command decodes to itself and leaves what follows it. That a Bool is written 0 or 1 and
an Option 0 or n+1 is the model's choice (assumption 9). -/
def Obligations.CommandDecodesToItself : Prop :=
  ∀ (k : IntAckPattern) (i : Instr) (rest : List Nat), i.isCommand = true → i.wf k = true →
    decodeCmd (encodeCmd i ++ rest) = .ok (i, rest)

/-- R51 to R53: a well-formed bus-cycle class is the class of its own pattern, for every value of INTACK_PATTERN. -/
def Obligations.CycleDecodesToItself : Prop :=
  ∀ (k : IntAckPattern) (i : Instr) (p : Bits3) (e : Drive) (pri : Bool), i.wf k = true →
    encodeCycle k i = some (p, e, pri) → decodeCycle k p e pri = i

/-- R53, R86: every one of the eight patterns has one class, which stands for that pattern, for every value of
INTACK_PATTERN. -/
def Obligations.EveryPatternIsOneClass : Prop :=
  ∀ (k : IntAckPattern) (p : Bits3) (e : Drive) (pri : Bool),
    (decodeCycle k p e pri).isCommand = false ∧ (decodeCycle k p e pri).wf k = true ∧
      encodeCycle k (decodeCycle k p e pri) = some (p, e, pri)

/-- R52, R53, R58, R63: the classes of the eight patterns with the default INTACK_PATTERN, and five commands, their numbers
written out from the table of opcodes. That a command is written as a list of numbers, and a handler named by one, is the
model's choice (assumptions 9 and 3). -/
def Obligations.WrittenOutWordsDecode : Prop :=
  (∀ (e : Drive) (pri : Bool),
    decodeCycle .p111 0b000 e pri = .idle e pri ∧ decodeCycle .p111 0b100 e pri = .addrLoad e pri ∧
    decodeCycle .p111 0b010 e pri = .read e pri ∧ decodeCycle .p111 0b110 e pri = .readAl false e pri ∧
    decodeCycle .p111 0b001 e pri = .write e pri ∧ decodeCycle .p111 0b101 e pri = .writeAl e pri ∧
    decodeCycle .p111 0b011 e pri = .dmaAck e pri ∧ decodeCycle .p111 0b111 e pri = .intAck e pri) ∧
  classify .p111 0b000 = (.idle, false) ∧ classify .p111 0b100 = (.idle, true) ∧
  classify .p111 0b010 = (.read, false) ∧ classify .p111 0b110 = (.read, true) ∧
  classify .p111 0b001 = (.write, false) ∧ classify .p111 0b101 = (.write, true) ∧
  classify .p111 0b011 = (.dmaAck, false) ∧ classify .p111 0b111 = (.interruptAck, false) ∧
  decodeCmd [0x02, 0x40, 7] = .ok (.regWrite 0x40 7, []) ∧
  decodeCmd [0x08] = .ok (.arm, []) ∧
  decodeCmd [0x10, 0x10] = .ok (.intSetVector 0x10, []) ∧
  decodeCmd [0x23, 0x3000, 0x5A] = .ok (.dmaWriteByte 0x3000 0x5A, []) ∧
  decodeCmd [0x25, 0x2000, 0xBEEF] = .ok (.dmaWriteWord 0x2000 0xBEEF, [])

/-- R60: every opcode not in the table of R58 is a reserved command, and the model refuses it: the step completes with
the state marked refused and nothing else changed. That a record set before stays is the model's choice
(assumption 11). -/
def Obligations.ReservedOpcodesAreRefused : Prop :=
  ∀ (op : Byte) (rest : List Nat) (s : State),
    op = 0x00 ∨ (0x05 ≤ op ∧ op ≤ 0x07) ∨ (0x0B ≤ op ∧ op ≤ 0x0F) ∨ (0x14 ≤ op ∧ op ≤ 0x1F) ∨ 0x26 ≤ op →
    decodeCmd (op.toNat :: rest) = .ok (.reserved op, rest) ∧
      ∃ t, exec (.reserved op) s = .next t ∧ (s.marks.refused = none → t.marks.refused = some .reservedCommand) ∧
        t = { s with marks := { s.marks with refused := t.marks.refused } } ∧ t.marks.refused ≠ none

/-! ### A step -/

/-- R62, R65: a clock event at `P1F` runs the class of the pattern sampled at its `SP2`: the host's pattern while the
host drives the control lines, this device's own `ctrl_out` while it drives them. -/
def Obligations.StepRunsTheSampledClass : Prop :=
  ∀ (s : State) (e : Drive) (p : Bits3) (pri : Bool) (ts : List Turn),
    s.turns = .fall e p pri :: ts → Unmarked s → s.en.lastEvent ≠ some .p1f →
    (s.lines.ctrlMode = .host → step s = exec (decodeCycle s.par.intack p e pri) { s with turns := ts }) ∧
    (s.lines.ctrlMode = .device →
      step s = exec (decodeCycle s.par.intack s.lines.ctrlOut e pri) { s with turns := ts })

/-- R45, R58, R63: a turn of a foreground that is not blocked runs the command its next numbers decode to, and takes
those numbers. -/
def Obligations.StepRunsTheForegroundCommand : Prop :=
  ∀ (s : State) (ts : List Turn) (i : Instr) (rest : List Nat),
    s.turns = .foreground :: ts → Unmarked s → s.dma.state ≠ .dSettle → s.fg.wait = none →
    decodeCmd s.prog = .ok (i, rest) → step s = exec i { s with turns := ts, prog := rest }

/-- R125, R170: while a command is in progress the foreground issues no other, and if the host stops delivering
events, nothing happens. That the environment's moves stand in State is the model's choice (assumption 13). -/
def Obligations.HoldsChangeNothing : Prop :=
  ∀ s : State,
    (∀ ts, s.turns = .foreground :: ts → Unmarked s → s.dma.state ≠ .dSettle → s.fg.wait ≠ none →
      step s = .next { s with turns := ts }) ∧
    (s.turns = [] → step s = .next s)

/-- R113: the request step, a foreground step enabled while `dma_state = DSettle`. -/
def Obligations.SettledCommandRequestsTheBus : Prop :=
  ∀ (s : State) (ts : List Turn), s.turns = .foreground :: ts → Unmarked s → s.dma.state = .dSettle →
    step s = .next { s with turns := ts, dma := { s.dma with request := true, state := .dWaitAck } }

/-- R65: a rising edge runs the event `EvP1R`. That an event of the last event's kind, rising or falling, is refused is the
model's treatment of a broken duty of R154 (assumption 14). -/
def Obligations.ClockEventsAlternate : Prop :=
  ∀ (s : State) (e : Drive) (p : Bits3) (pri : Bool) (ts : List Turn), Unmarked s →
    (s.turns = .rise e :: ts → s.en.lastEvent ≠ some .p1r → step s = .next (evP1R e { s with turns := ts })) ∧
    (s.turns = .rise e :: ts → s.en.lastEvent = some .p1r → step s = .refused .eventsDoNotAlternate) ∧
    (s.turns = .fall e p pri :: ts → s.en.lastEvent = some .p1f → step s = .refused .eventsDoNotAlternate)

/-- R157, R158: the launch state has the reset values the spec gives, and an external reset, in any state, gives every
element its reset value again, with the foreground at its first command; `dev`, `BUF` and the parameters stay. That the
peers stay is the model's choice (assumption 7). -/
def Obligations.BothResetsGiveTheResetValues : Prop :=
  AtReset State.reset ∧ State.reset.prog = State.reset.boot ∧
  ∀ (s : State) (ts : List Turn), s.turns = .reset :: ts →
    ∃ t, step s = .next t ∧ AtReset t ∧ t.prog = s.boot ∧ t.boot = s.boot ∧ t.turns = ts ∧ t.dev = s.dev ∧
      t.par = s.par ∧ (∀ k, bufRead t.buf k = bufRead s.buf k) ∧
      (∀ a, hostRead t.peers.mem a = hostRead s.peers.mem a)

/-- R32: a fault or a refusal marks a state where the model withholds a meaning: no later turn but a reset is taken.
That the record stops later steps is the model's reading (assumption 11). -/
def Obligations.MarkedStatesStop : Prop :=
  ∀ (s : State) (t : Turn) (ts : List Turn), s.turns = t :: ts → t ≠ .reset → ¬ Unmarked s →
    (∀ f, s.marks.fault = some f → step s = .fault f) ∧
    (∀ r, s.marks.fault = none → s.marks.refused = some r → step s = .refused (.withheld r))

/-! ### The data bus and the tables -/

/-- R37: what a capture sees. That a draw is the constant `Config.drawByte` applied to the count of draws, which it advances
by one, is the model's form of a draw (assumption 1). -/
def Obligations.CaptureSeesTheDrivenByte : Prop :=
  ∀ (s : State) (v u : Byte),
    (s.lines.drvD = none → busValue (some v) s = (v, s)) ∧
    (s.lines.drvD = some u → busValue none s = (u, s)) ∧
    (s.lines.drvD = none → busValue none s = (Config.drawByte s.draws, { s with draws := s.draws + 1 })) ∧
    (s.lines.drvD = some u → (busValue (some v) s).1 = Config.drawByte s.draws ∧
      (busValue (some v) s).2.marks.fault = some .busContention)

/-- R90 to R92: registration before ARM, with its frame; UNREGISTER clears both slots. -/
def Obligations.HandlersAreRegisteredAndRemoved : Prop :=
  ∀ (s : State) (lo : Byte) (h : Nat), s.en.armedOnce = false →
    (∃ t, exec (.regRead lo h) s = .next t ∧ sparseGet lo.toNat t.tabs.rdTab = some h ∧
      (∀ j, j ≠ lo.toNat → sparseGet j t.tabs.rdTab = sparseGet j s.tabs.rdTab) ∧
      t = { s with tabs := { s.tabs with rdTab := t.tabs.rdTab }, fg := { s.fg with result := some .done } }) ∧
    (∃ t, exec (.regWrite lo h) s = .next t ∧ sparseGet lo.toNat t.tabs.wrTab = some h ∧
      (∀ j, j ≠ lo.toNat → sparseGet j t.tabs.wrTab = sparseGet j s.tabs.wrTab) ∧
      t = { s with tabs := { s.tabs with wrTab := t.tabs.wrTab }, fg := { s.fg with result := some .done } }) ∧
    (∃ t, exec (.unregister lo) s = .next t ∧ sparseGet lo.toNat t.tabs.rdTab = none ∧
      sparseGet lo.toNat t.tabs.wrTab = none ∧
      (∀ j, j ≠ lo.toNat → sparseGet j t.tabs.rdTab = sparseGet j s.tabs.rdTab ∧
        sparseGet j t.tabs.wrTab = sparseGet j s.tabs.wrTab) ∧
      t = { s with
        tabs := { s.tabs with rdTab := t.tabs.rdTab, wrTab := t.tabs.wrTab }
        fg := { s.fg with result := some .done } })

/-- R93: CLAIM_SET before ARM sets or clears one slot; an index that is not below MAX_CLAIMS is refused. That a
refused command writes no result is the model's reading (assumption 11). -/
def Obligations.ClaimSetWritesOneSlot : Prop :=
  ∀ (s : State) (i : Nat) (c : Option Nat),
    (i < s.par.maxClaims → s.en.armedOnce = false →
      ∃ t, exec (.claimSet i c) s = .next t ∧ sparseGet i t.tabs.claims = c ∧
        (∀ j, j ≠ i → sparseGet j t.tabs.claims = sparseGet j s.tabs.claims) ∧
        t = { s with tabs := { s.tabs with claims := t.tabs.claims }, fg := { s.fg with result := some .done } }) ∧
    (s.par.maxClaims ≤ i → s.marks.refused = none →
      exec (.claimSet i c) s = .next { s with marks := { s.marks with refused := some .argumentOutOfRange } })

/-- R94: registration after arming is refused, from the foreground and from a handler alike. That a refused command
writes no result is the model's reading (assumption 11). -/
def Obligations.LateRegistrationIsRefused : Prop :=
  ∀ (s : State) (i : Cmd) (lo : Byte) (h n : Nat) (c : Option Nat),
    s.en.armedOnce = true → s.marks.refused = none → n < s.par.maxClaims →
    i.1 = .regRead lo h ∨ i.1 = .regWrite lo h ∨ i.1 = .unregister lo ∨ i.1 = .claimSet n c →
    exec i.1 s = .next { s with marks := { s.marks with refused := some .lateRegistration } } ∧
      applyCmd s i = { s with marks := { s.marks with refused := some .lateRegistration } }

/-- R95: the lowest slot whose claim covers the address serves it. -/
def Obligations.LowestCoveringClaimServes : Prop :=
  ∀ (s : State) (a : Bits16) (i c : Nat), Sparse.rising s.tabs.claims →
    (firstClaim s a s.tabs.claims = some (i, c) ↔
      sparseGet i s.tabs.claims = some c ∧ claimP s c a = true ∧
        ∀ j d, j < i → sparseGet j s.tabs.claims = some d → claimP s d a = false)

/-- R96: after UNREGISTER, reads and writes at the slot's addresses resolve as in a state where the slot was never
registered, with equal claims, parameters and `dev`. -/
def Obligations.UnregisterReverts : Prop :=
  ∀ (s t s0 : State) (lo : Byte) (a : Bits16), s.en.armedOnce = false → exec (.unregister lo) s = .next t →
    s0.par = s.par → s0.tabs.claims = s.tabs.claims → s0.dev = s.dev →
    sparseGet lo.toNat s0.tabs.rdTab = none → sparseGet lo.toNat s0.tabs.wrTab = none → lowByte a = lo →
    (resolveRead a t).1 = (resolveRead a s0).1 ∧ (resolveRead a t).2 = t ∧ resolveWrite t a = resolveWrite s0 a

/-- R71, R72: where a claim covers the address it serves and no I/O handler is looked for; where none does, an I/O handler
is looked for only in I/O space. -/
def Obligations.IoHandlersServeOnlyIoSpace : Prop :=
  ∀ (s : State) (a : Bits16),
    (∀ i c, firstClaim s a s.tabs.claims = some (i, c) →
      resolveRead a s = (some (claimR s c a), s) ∧ resolveWrite s a = some (.claimT i)) ∧
    ((∀ d ∈ s.tabs.claims, claimP s d.2 a = false) →
      (highByte a ≠ s.par.ioPage → resolveRead a s = (none, s) ∧ resolveWrite s a = none) ∧
      (highByte a = s.par.ioPage → sparseGet (lowByte a).toNat s.tabs.rdTab = none → resolveRead a s = (none, s)) ∧
      (highByte a = s.par.ioPage →
        resolveWrite s a = (sparseGet (lowByte a).toNat s.tabs.wrTab).map fun _ => .ioT (lowByte a)))

/-- R89, R139: the commands a handler returns are applied in list order. Each that does not block does what it does when the
foreground issues it (a reserved one is refused either way); one that blocks is refused. That the first includes the
write of `fg_result` is the model's choice (assumption 29). -/
def Obligations.HandlerCommandsAreAppliedInOrder : Prop :=
  ∀ (s : State) (c : Cmd) (cs : List Cmd),
    applyCmds [] s = s ∧ applyCmds (c :: cs) s = applyCmds cs (applyCmd s c) ∧
    (c.1.isBlocking = false → exec c.1 s = .next (applyCmd s c)) ∧
    (c.1.isBlocking = true → s.marks.refused = none →
      applyCmd s c = { s with marks := { s.marks with refused := some .blockingFromHandler } })

/-! ### Arming and the trace -/

/-- R133 to R135: ARM, TRACE_START and TRACE_STOP, with their frames: the ring and its index stay. -/
def Obligations.ControlCommandsWriteTheirBits : Prop :=
  ∀ s : State,
    exec .arm s = .next { s with
      en := { s.en with armed := true, sysint := true, armedOnce := true }
      fg := { s.fg with result := some .done } } ∧
    exec .traceStart s = .next { s with
      trace := { s.trace with active := true }, fg := { s.fg with result := some .done } } ∧
    exec .traceStop s = .next { s with
      trace := { s.trace with active := false }, fg := { s.fg with result := some .done } }

/-- R61, R136: a push writes one record at `trace_idx`, packed as R61 says, leaves every other slot, and steps the index
round the ring; nothing else changes but the count of draws, which an unknown `AUX` moves. -/
def Obligations.TracePushWritesOneRecord : Prop :=
  ∀ (s : State) (d : Byte),
    let t := tracePush d s
    let r := traceAt t.trace s.trace.idx
    r.ctrl = s.disp.lastCtrl.zeroExtend 8 ∧ r.addrLo = lowByte s.disp.a ∧ r.addrHi = highByte s.disp.a ∧ r.data = d ∧
      (∀ b, s.par.logic.aux.lookup (s.disp.lastCtrl, s.disp.a, d, s.dev) = some b → r.aux = b) ∧
      (∀ j, j ≠ s.trace.idx → traceAt t.trace j = traceAt s.trace j) ∧
      t.trace.idx = (s.trace.idx + 1) % 2 ^ s.par.traceLog2 ∧
      t = { s with trace := { s.trace with buf := t.trace.buf, idx := t.trace.idx }, draws := t.draws }

/-- R137: after `m` pushes the index has gone `m` slots round the ring, and the record of a push that fewer than
TRACE_SIZE later ones followed is in its slot, as that push left it. -/
def Obligations.TraceRingWraps : Prop :=
  ∀ (s : State) (before after : List Byte) (d : Byte), s.trace.idx < 2 ^ s.par.traceLog2 →
    after.length < 2 ^ s.par.traceLog2 →
    let u := tracePush d (before.foldl (fun u x => tracePush x u) s)
    let t := (before ++ d :: after).foldl (fun u x => tracePush x u) s
    let slot := (s.trace.idx + before.length) % 2 ^ s.par.traceLog2
    t.trace.idx = (s.trace.idx + (before.length + 1 + after.length)) % 2 ^ s.par.traceLog2 ∧
      traceAt t.trace slot = traceAt u.trace slot ∧ (traceAt t.trace slot).data = d

/-! ### Interrupts -/

/-- R104 to R107: the arbiter's commands, with their frames. -/
def Obligations.InterruptCommandsWriteOneField : Prop :=
  ∀ (s : State) (v : Byte) (b : Bool),
    exec (.intSetVector v) s =
      .next { s with int := { s.int with vector := v }, fg := { s.fg with result := some .done } } ∧
    exec (.intEnable b) s =
      .next { s with int := { s.int with enable := b }, fg := { s.fg with result := some .done } } ∧
    exec (.intRequest b) s =
      .next { s with int := { s.int with pending := b }, fg := { s.fg with result := some .done } } ∧
    exec (.intWant b) s =
      .next { s with int := { s.int with want := b }, fg := { s.fg with result := some .done } }

/-- R99, R100: from Idle, an out-prioritized acknowledge clears the enable and changes nothing else; in every other case
the arbiter requests exactly when all three flags are set. -/
def Obligations.IdleArbiterLosesItsEnableOrRequests : Prop :=
  ∀ (s : State) (cyc : BusState) (pri : Bool), s.int.arb = .idle →
    (cyc = .interruptAck ∧ pri = true → arbStep cyc pri s = { s with int := { s.int with enable := false } }) ∧
    (¬ (cyc = .interruptAck ∧ pri = true) →
      arbStep cyc pri s =
        if s.int.pending = true ∧ s.int.enable = true ∧ s.int.want = true then
          { s with
            lines := { s.lines with irq := true, priOut := true }
            int := { s.int with arb := .requestPending } }
        else s)

/-- R101 to R103: from RequestPending, an acknowledge releases both lines; not out-prioritized it supplies the vector and
marks the request serviced, out-prioritized it keeps the request pending. A cycle that is no acknowledge changes
nothing, a withdrawn request included. -/
def Obligations.PendingArbiterIsServedLosesOrWaits : Prop :=
  ∀ s : State, s.int.arb = .requestPending →
    arbStep .interruptAck false s = { s with
      lines := { s.lines with irq := false, priOut := false, drvD := some s.int.vector, rdy := true }
      int := { s.int with pending := false, arb := .idle } } ∧
    arbStep .interruptAck true s = { s with
      lines := { s.lines with irq := false, priOut := false }
      int := { s.int with arb := .idle } } ∧
    (∀ cyc pri, cyc ≠ .interruptAck → arbStep cyc pri s = s)

/-- R108 (a), (c), (d): two devices on one chain, `y`'s PRI_IN being `x`'s priority line before the acknowledge. While
`x` requests, it alone supplies its vector; once it does not, a requesting `y` supplies its own. -/
def Obligations.HigherPriorityIsServedFirst : Prop :=
  ∀ x y : State, (x.lines.priOut = true ↔ x.int.arb = .requestPending) →
    let x' := arbStep .interruptAck false x
    let y' := arbStep .interruptAck x.lines.priOut y
    (x.int.arb = .requestPending →
      Answers x' x.int.vector ∧ x'.int.pending = false ∧ y'.lines.drvD = y.lines.drvD ∧
        y'.lines.rdy = y.lines.rdy ∧ y'.int.pending = y.int.pending ∧
        (y'.int.enable = false ∨ (y.int.arb = .requestPending ∧ y'.int.arb = .idle))) ∧
    (x.int.arb = .idle → y.int.arb = .requestPending →
      Answers y' y.int.vector ∧ y'.int.pending = false ∧ x'.lines.drvD = x.lines.drvD)

/-! ### Bus-cycle classes -/

/-- R75, R76, R80: IDLE, ADDR_LOAD and WRITE_AL with the dispatcher running: no accessor is consulted and no write is
scheduled; after the last two the byte of the next phase 1 is to be loaded. -/
def Obligations.IdleAndAddressLoadCyclesComplete : Prop :=
  ∀ (s : State) (d : Drive) (pri : Bool), Coherent s → dispatcherEnabled s = true →
    (∃ t v, exec (.idle d pri) s = .next t ∧ CycleDone s t d 0b000 .idle false v ∧ t.disp.schedWrite = none ∧
      Silent t ∧ NoHandlerFrame s t ∧ ArbiterOutsideAck s t) ∧
    ((Instr.addrLoad d pri).wf s.par.intack = true →
      ∃ t v, exec (.addrLoad d pri) s = .next t ∧ CycleDone s t d 0b100 .idle true v ∧ t.disp.schedWrite = none ∧
        Silent t ∧ NoHandlerFrame s t ∧ ArbiterOutsideAck s t) ∧
    ((Instr.writeAl d pri).wf s.par.intack = true →
      ∃ t v, exec (.writeAl d pri) s = .next t ∧ CycleDone s t d 0b101 .write true v ∧ t.disp.schedWrite = none ∧
        Silent t ∧ NoHandlerFrame s t ∧ ArbiterOutsideAck s t)

/-- R71, R77, R84: READ with the dispatcher running: the answer of the first accessor, or silence. That a handler's commands
write `fg_result` is the model's choice (assumption 29). -/
def Obligations.ReadCycleCompletes : Prop :=
  ∀ (s : State) (d : Drive) (pri : Bool), Coherent s → dispatcherEnabled s = true →
    ∃ t v, exec (.read d pri) s = .next t ∧ CycleDone s t d 0b010 .read false v ∧ t.disp.schedWrite = none ∧
      ReadAnswered s t t.disp.a

/-- R52, R78: READ_AL with the dispatcher running, under either pattern: answered like a READ, and the byte is to be
loaded. That a handler's commands write `fg_result` is the model's choice (assumption 29). -/
def Obligations.ReadAlCycleCompletes : Prop :=
  ∀ (s : State) (wr : Bool) (d : Drive) (pri : Bool), Coherent s → dispatcherEnabled s = true →
    (Instr.readAl wr d pri).wf s.par.intack = true →
    ∃ t v, exec (.readAl wr d pri) s = .next t ∧
      CycleDone s t d (if wr = true then 0b111 else 0b110) .read true v ∧ t.disp.schedWrite = none ∧
      ReadAnswered s t t.disp.a

/-- R72, R79: WRITE with the dispatcher running: the target is resolved, to be written with the byte of the next
`P1R`. -/
def Obligations.WriteCycleCompletes : Prop :=
  ∀ (s : State) (d : Drive) (pri : Bool), Coherent s → dispatcherEnabled s = true →
    ∃ t v, exec (.write d pri) s = .next t ∧ CycleDone s t d 0b001 .write false v ∧
      t.disp.schedWrite = (match firstClaim s t.disp.a s.tabs.claims with
        | some (i, _) => some (.claimT i)
        | none =>
          if highByte t.disp.a = s.par.ioPage ∧ sparseGet (lowByte t.disp.a).toNat s.tabs.wrTab ≠ none then
            some (.ioT (lowByte t.disp.a))
          else none) ∧
      Silent t ∧ NoHandlerFrame s t ∧ ArbiterOutsideAck s t

/-- R81: DMA_ACK with the dispatcher running: an outstanding request is acknowledged and the dispatcher's source
disabled; with none outstanding nothing more happens. That an Idle arbiter may request in this cycle is the model's choice
between R81 and R100 (assumption 28). -/
def Obligations.DmaAckCycleCompletes : Prop :=
  ∀ (s : State) (d : Drive) (pri : Bool), Coherent s → dispatcherEnabled s = true →
    ∃ t v, exec (.dmaAck d pri) s = .next t ∧ CycleDone s t d 0b011 .dmaAck false v ∧ t.disp.schedWrite = none ∧
      Silent t ∧ ArbiterOutsideAck s t ∧
      (s.dma.request = true →
        t.dma = { s.dma with ack := true, request := false } ∧
          t.en = { s.en with armed := false, lastEvent := some .p1f } ∧ t.dev = s.dev ∧ t.fg = s.fg ∧
          t.trace = s.trace ∧ t.marks.refused = s.marks.refused) ∧
      (s.dma.request = false → NoHandlerFrame s t)

/-- R82, R98: INT_ACK with the dispatcher running, in the arbiter's two states and at both levels of PRI_IN. -/
def Obligations.IntAckCycleCompletes : Prop :=
  ∀ (s : State) (d : Drive) (pri : Bool), Coherent s → dispatcherEnabled s = true →
    ∃ t v, exec (.intAck d pri) s = .next t ∧
      CycleDone s t d (intackBits s.par.intack) .interruptAck false v ∧ t.disp.schedWrite = none ∧
      NoHandlerFrame s t ∧
      (s.int.arb = .requestPending → pri = false →
        Answers t s.int.vector ∧ t.lines.irq = false ∧ t.lines.priOut = false ∧
          t.int = { s.int with arb := .idle, pending := false }) ∧
      (s.int.arb = .requestPending → pri = true →
        Silent t ∧ t.lines.irq = false ∧ t.lines.priOut = false ∧ t.int = { s.int with arb := .idle }) ∧
      (s.int.arb = .idle → pri = true →
        Silent t ∧ t.lines.irq = s.lines.irq ∧ t.lines.priOut = s.lines.priOut ∧
          t.int = { s.int with enable := false }) ∧
      (s.int.arb = .idle → pri = false → Silent t ∧ ArbiterOutsideAck s t)

/-- R20, R65, R140: a class delivered while the dispatcher is disabled and the device is no bus master gives no
activation: no register, line, table or result of the block changes. -/
def Obligations.DisabledDispatcherTakesNoCycle : Prop :=
  ∀ (s : State) (i : Instr), i.isCommand = false → dispatcherEnabled s = false → s.dma.active = false →
    ∃ t, exec i s = .next t ∧ t.lines = s.lines ∧ t.disp = s.disp ∧ t.tabs = s.tabs ∧ t.int = s.int ∧
      t.dma = s.dma ∧ t.fg = s.fg ∧ t.trace = s.trace ∧ t.dev = s.dev ∧ t.buf = s.buf ∧
      t.en = { s.en with lastEvent := some .p1f } ∧ t.marks.refused = s.marks.refused ∧
      (∀ a, hostRead t.peers.mem a = hostRead s.peers.mem a)

/-- R66, R67, R79, R89, R136: the rising edge after a WRITE performs it: the claim or the handler of the target gets the
byte on the bus and the address of the transaction, a handler's commands are applied, nothing is written without a target;
then a record is pushed exactly where a trace is active. That a handler's commands write `fg_result` is the model's choice
(assumption 29). -/
def Obligations.ScheduledWriteIsPerformedOnce : Prop :=
  ∀ (s : State) (d : Drive) (v : Byte), Coherent s → dispatcherEnabled s = true → OneDriver s d v →
    let t := evP1R d s
    let s1 := { s with peers := t.peers }
    t.disp = { s.disp with schedWrite := none } ∧ t.lines = s.lines ∧ t.dma = s.dma ∧
    (∀ k, bufRead t.buf k = bufRead s.buf k) ∧
    (s.disp.schedWrite = none → EdgeCompleted v s1 t) ∧
    (∀ i c, s.disp.schedWrite = some (.claimT i) → sparseGet i s.tabs.claims = some c →
      EdgeCompleted v { s1 with dev := claimW s c s.disp.a v } t) ∧
    (∀ lo h, s.disp.schedWrite = some (.ioT lo) → sparseGet lo.toNat s.tabs.wrTab = some h →
      EdgeCompleted v (applyCmds (writeH s h v).cmds { s1 with dev := (writeH s h v).dev }) t)

/-- R83: the address-register law. (a) After two consecutive address-load cycles carrying `l` then `h` at their `P1F`
captures, the register is `h ++ l`. (b), (c) Over one cycle of any other class, from the `SP2` that samples `p` (state
`m`) to the `P1F` of the next cycle (state `t`), it advances by one, modulo 65536, after a Read or Write outside I/O
space, and else stays. -/
def Obligations.AddressRegisterLaw : Prop :=
  (∀ (s : State) (d0 dl dh e1 e2 : Drive) (p1 p2 q : Bits3) (b0 b1 b2 : Bool) (l h : Byte),
    Coherent s → dispatcherEnabled s = true →
    (classify s.par.intack p1).2 = true → (classify s.par.intack p2).2 = true →
    OneDriver (evP1R e1 (evP1F d0 p1 b0 s)) dl l →
    OneDriver (evP1R e2 (evP1F dl p2 b1 (evP1R e1 (evP1F d0 p1 b0 s)))) dh h →
    (evP1F dh q b2 (evP1R e2 (evP1F dl p2 b1 (evP1R e1 (evP1F d0 p1 b0 s))))).disp.a.toNat =
      h.toNat * 256 + l.toNat) ∧
  (∀ (s : State) (d e f : Drive) (p q : Bits3) (pri qri : Bool), Coherent s → dispatcherEnabled s = true →
    let m := evP1F d p pri s
    let t := evP1F f q qri (evP1R e m)
    (classify s.par.intack p = (.read, false) ∨ classify s.par.intack p = (.write, false) →
      t.disp.a.toNat = if highByte m.disp.a = s.par.ioPage then m.disp.a.toNat else (m.disp.a.toNat + 1) % 65536) ∧
    (classify s.par.intack p = (.idle, false) ∨ classify s.par.intack p = (.dmaAck, false) ∨
      classify s.par.intack p = (.interruptAck, false) → t.disp.a = m.disp.a))

/-! ### DMA -/

/-- R110, R111: an accepted block command loads the engine and blocks the foreground. -/
def Obligations.BlockCommandIsAccepted : Prop :=
  ∀ (s : State) (addr : Bits16) (b n : Nat), 0 < n → n ≤ s.par.dmaCountMax → b + n ≤ s.par.bufSize →
    s.dma.state = .dIdle →
    exec (.dmaReadBlock addr (some b) n) s = .next { s with
      dma := { s.dma with
        dir := .rd, addr := addr, tgt := .buf b, count := n, k := 0, burstK := 0, yieldK := 0,
        xferPending := false, addrDrive := false, state := .dSettle }
      fg := { s.fg with wait := some ⟨.dmaReadBlock addr (some b) n, rfl⟩, result := none } } ∧
    exec (.dmaWriteBlock addr (some b) n) s = .next { s with
      dma := { s.dma with
        dir := .wr, addr := addr, tgt := .buf b, count := n, k := 0, burstK := 0, yieldK := 0,
        xferPending := false, addrDrive := false, state := .dSettle }
      fg := { s.fg with wait := some ⟨.dmaWriteBlock addr (some b) n, rfl⟩, result := none } }

/-- R112: zero length, a null buffer and re-entry return 0 and change nothing else. -/
def Obligations.DmaMisuseReturnsZero : Prop :=
  ∀ (s : State) (addr : Bits16) (buf : Option Nat) (n : Nat), n ≤ s.par.dmaCountMax →
    (∀ b, buf = some b → 0 < n → b + n ≤ s.par.bufSize) → n = 0 ∨ buf = none ∨ s.dma.state ≠ .dIdle →
    exec (.dmaReadBlock addr buf n) s = .next { s with fg := { s.fg with result := some (.count 0) } } ∧
    exec (.dmaWriteBlock addr buf n) s = .next { s with fg := { s.fg with result := some (.count 0) } }

/-- R59, R110, R112: a count above DMA_COUNT_MAX, checked first, and a buffer past BUF_SIZE are refused. That a
refused command writes no result is the model's reading (assumption 11). -/
def Obligations.DmaArgumentsOutOfRangeAreRefused : Prop :=
  ∀ (s : State) (addr : Bits16) (buf : Option Nat) (b n : Nat), s.marks.refused = none →
    (s.par.dmaCountMax < n →
      exec (.dmaReadBlock addr buf n) s = .next { s with marks := { s.marks with refused := some .argumentOutOfRange } } ∧
      exec (.dmaWriteBlock addr buf n) s =
        .next { s with marks := { s.marks with refused := some .argumentOutOfRange } }) ∧
    (n ≤ s.par.dmaCountMax → 0 < n → s.par.bufSize < b + n →
      exec (.dmaReadBlock addr (some b) n) s =
        .next { s with marks := { s.marks with refused := some .bufferOutOfRange } } ∧
      exec (.dmaWriteBlock addr (some b) n) s =
        .next { s with marks := { s.marks with refused := some .bufferOutOfRange } })

/-- R64, R110, R126 to R129: the wrappers are the block commands with the scratch target, count 1 or 2, and for a write the
operand's bytes in the scratch, the low byte first. -/
def Obligations.WrappersUseTheScratch : Prop :=
  ∀ (s : State) (addr v : Bits16) (x : Byte), 2 ≤ s.par.dmaCountMax → s.dma.state = .dIdle →
    exec (.dmaReadByte addr) s = .next { s with
      dma := { s.dma with
        dir := .rd, addr := addr, tgt := .scratch, count := 1, k := 0, burstK := 0, yieldK := 0,
        xferPending := false, addrDrive := false, state := .dSettle }
      fg := { s.fg with wait := some ⟨.dmaReadByte addr, rfl⟩, result := none } } ∧
    exec (.dmaWriteByte addr x) s = .next { s with
      dma := { s.dma with
        dir := .wr, addr := addr, tgt := .scratch, wbuf0 := x, count := 1, k := 0, burstK := 0, yieldK := 0,
        xferPending := false, addrDrive := false, state := .dSettle }
      fg := { s.fg with wait := some ⟨.dmaWriteByte addr x, rfl⟩, result := none } } ∧
    exec (.dmaReadWord addr) s = .next { s with
      dma := { s.dma with
        dir := .rd, addr := addr, tgt := .scratch, count := 2, k := 0, burstK := 0, yieldK := 0,
        xferPending := false, addrDrive := false, state := .dSettle }
      fg := { s.fg with wait := some ⟨.dmaReadWord addr, rfl⟩, result := none } } ∧
    ∃ lo hi : Byte, v.toNat = hi.toNat * 256 + lo.toNat ∧
      exec (.dmaWriteWord addr v) s = .next { s with
        dma := { s.dma with
          dir := .wr, addr := addr, tgt := .scratch, wbuf0 := lo, wbuf1 := hi, count := 2, k := 0, burstK := 0,
          yieldK := 0, xferPending := false, addrDrive := false, state := .dSettle }
        fg := { s.fg with wait := some ⟨.dmaWriteWord addr v, rfl⟩, result := none } }

/-- R68, R115, R116: the rising edge after the acknowledge completes the handoff: the device drives the control lines,
every interrupt is masked, and the first address-load pattern is out. `HALT` stays. -/
def Obligations.HandoffTakesTheBus : Prop :=
  ∀ (s : State) (d : Drive), s.dma.ack = true → s.dma.active = false → s.dma.state = .dWaitAck →
    s.en.armed = false →
    let t := evP1R d s
    t.lines = { s.lines with ctrlMode := .device, ctrlOut := 0b100 } ∧
      t.dma = { s.dma with active := true, state := .dAddrLo } ∧
      t.en = { s.en with sysint := false, lastEvent := some .p1r } ∧ t.disp = s.disp ∧ t.int = s.int ∧
      t.tabs = s.tabs ∧ t.fg = s.fg ∧ t.dev = s.dev ∧ t.trace = s.trace ∧ (∀ k, bufRead t.buf k = bufRead s.buf k)

/-- R116 to R118: the two address bytes, low then high, each driven from one falling edge to the next, past the rising edge
between, under the address-load pattern; of the engine nothing changes but what is named. -/
def Obligations.AddressPhaseSendsLowThenHigh : Prop :=
  ∀ (s : State) (d : Drive) (p : Bits3) (pri : Bool), s.dma.active = true → s.en.armed = false →
    (s.dma.state = .dAddrLo →
      (evP1F d p pri s).lines.drvD = some (lowByte s.dma.addr) ∧
      (evP1F d p pri s).dma = { s.dma with addrDrive := true } ∧
      (evP1R d s).lines = { s.lines with ctrlOut := 0b100 } ∧
      (evP1R d s).dma = { s.dma with state := .dAddrHi }) ∧
    (s.dma.state = .dAddrHi →
      (evP1F d p pri s).lines.drvD = some (highByte s.dma.addr) ∧
      (evP1F d p pri s).dma = { s.dma with addrDrive := true } ∧
      (evP1R d s).lines = { s.lines with ctrlOut := if s.dma.dir = .rd then 0b010 else 0b001 } ∧
      (evP1R d s).dma = { s.dma with burstK := s.dma.burstK + 1, xferPending := true, state := .dXfer })

/-- R119: in a strobed cycle of a write the engine drives byte `dma_k` from the falling edge: of `BUF` from the target's
index, or of the wrappers' scratch; of a read, nothing. -/
def Obligations.StrobedWriteDrivesItsByte : Prop :=
  ∀ (s : State) (d : Drive) (p : Bits3) (pri : Bool), s.dma.active = true → s.en.armed = false →
    s.dma.state = .dXfer → s.dma.xferPending = true → s.dma.k ≠ s.dma.count →
    let t := evP1F d p pri s
    t.dma = { s.dma with addrDrive := false } ∧
      (s.dma.dir = .rd → t.lines.drvD = none) ∧
      (∀ b, s.dma.dir = .wr → s.dma.tgt = .buf b → t.lines.drvD = some (bufRead s.buf (b + s.dma.k))) ∧
      (s.dma.dir = .wr → s.dma.tgt = .scratch → s.dma.k = 0 → t.lines.drvD = some s.dma.wbuf0) ∧
      (s.dma.dir = .wr → s.dma.tgt = .scratch → s.dma.k = 1 → t.lines.drvD = some s.dma.wbuf1)

/-- R120: a data edge. A read stores the byte on the bus at its place in `BUF` or in the scratch, and nowhere else; a write
stores nothing. With more bytes to come and no yield due, the byte is counted and the next strobe, of the same direction,
is out in the same step. -/
def Obligations.DataEdgeCompletesOneByte : Prop :=
  ∀ (s : State) (d : Drive), s.dma.active = true → s.en.armed = false → s.dma.state = .dXfer →
    s.dma.xferPending = true →
    let t := evP1R d s
    (∀ v b, s.dma.dir = .rd → s.dma.tgt = .buf b → OneDriver s d v →
      bufRead t.buf (b + s.dma.k) = v ∧ (∀ j, j ≠ b + s.dma.k → bufRead t.buf j = bufRead s.buf j) ∧
        t.dma.wbuf0 = s.dma.wbuf0 ∧ t.dma.wbuf1 = s.dma.wbuf1) ∧
    (∀ v, s.dma.dir = .rd → s.dma.tgt = .scratch → OneDriver s d v →
      (∀ j, bufRead t.buf j = bufRead s.buf j) ∧
        (s.dma.k = 0 → t.dma.wbuf0 = v ∧ t.dma.wbuf1 = s.dma.wbuf1) ∧
        (s.dma.k = 1 → t.dma.wbuf0 = s.dma.wbuf0 ∧ t.dma.wbuf1 = v)) ∧
    (s.dma.dir = .wr →
      (∀ j, bufRead t.buf j = bufRead s.buf j) ∧ t.dma.wbuf0 = s.dma.wbuf0 ∧ t.dma.wbuf1 = s.dma.wbuf1) ∧
    (s.dma.k + 1 ≠ s.dma.count → s.dma.burstK ≠ s.par.burstMax →
      t.dma = { s.dma with
        wbuf0 := t.dma.wbuf0, wbuf1 := t.dma.wbuf1, k := s.dma.k + 1, burstK := s.dma.burstK + 1,
        xferPending := true } ∧
      t.lines = { s.lines with ctrlOut := if s.dma.dir = .rd then 0b010 else 0b001 })

/-- R121, R122: at the data edge of a byte that fills the burst, with bytes to come, the burst count restarts and the
engine yields REFRESH_IDLE_CYCLES idle cycles, or strobes on where that is 0; a yield drives no data after its falling
edges, counts down at each rising edge and then strobes the next byte, with no address sent again. -/
def Obligations.FullBurstYields : Prop :=
  ∀ (s : State) (d : Drive), s.dma.active = true → s.en.armed = false →
    (s.dma.state = .dXfer → s.dma.xferPending = true → s.dma.k + 1 ≠ s.dma.count → s.dma.burstK = s.par.burstMax →
      let t := evP1R d s
      t.dma.k = s.dma.k + 1 ∧ t.lines.drvD = s.lines.drvD ∧ t.lines.halt = s.lines.halt ∧
      (0 < s.par.refreshIdle → t.dma.state = .dYield ∧ t.dma.burstK = 0 ∧ t.dma.xferPending = false ∧
        t.dma.yieldK = s.par.refreshIdle - 1 ∧ t.lines.ctrlOut = 0b000) ∧
      (s.par.refreshIdle = 0 → t.dma.state = .dXfer ∧ t.dma.burstK = 1 ∧ t.dma.xferPending = true ∧
        t.lines.ctrlOut = (if s.dma.dir = .rd then 0b010 else 0b001))) ∧
    (s.dma.state = .dYield → s.dma.k ≠ s.dma.count → 0 < s.dma.yieldK →
      (evP1R d s).dma = { s.dma with yieldK := s.dma.yieldK - 1 } ∧
        (evP1R d s).lines = { s.lines with ctrlOut := 0b000 }) ∧
    (s.dma.state = .dYield → s.dma.k ≠ s.dma.count → s.dma.yieldK = 0 →
      (evP1R d s).dma = { s.dma with burstK := s.dma.burstK + 1, xferPending := true, state := .dXfer } ∧
        (evP1R d s).lines.ctrlOut = (if s.dma.dir = .rd then 0b010 else 0b001)) ∧
    (s.dma.state = .dYield → ∀ p pri, (evP1F d p pri s).lines = { s.lines with drvD := none } ∧
      (evP1F d p pri s).dma = { s.dma with addrDrive := false })

/-- R118, R119, R123, R125, R175: after the last byte's data edge the bus is released, with RESUME_POINT at its default at
that edge, and the waiting command gets its result. A write's byte stays on the bus until the next falling edge, whose
capture sees it; that the drive does not end at the release is the model's choice (assumption 27). -/
def Obligations.LastByteReleasesTheBus : Prop :=
  ∀ (s : State) (d : Drive), s.dma.active = true → s.en.armed = false → s.dma.state = .dXfer →
    s.dma.xferPending = true → s.dma.k + 1 = s.dma.count → s.par.resume = .sameCycleP1F →
    let t := evP1R d s
    t.lines = { s.lines with halt := false, ctrlMode := .host, ctrlOut := 0b000 } ∧
      (∀ e p pri,
        (∀ w, OneDriver t e w → (evP1F e p pri t).disp.plb = w) ∧
        ((classify s.par.intack p).1 ≠ .read → (classify s.par.intack p).1 ≠ .interruptAck →
          (evP1F e p pri t).lines.drvD = none)) ∧
      t.dma.ack = false ∧ t.dma.active = false ∧ t.dma.state = .dIdle ∧ t.dma.k = 0 ∧ t.dma.burstK = 0 ∧
      t.dma.yieldK = 0 ∧ t.dma.xferPending = false ∧ t.dma.addrDrive = false ∧
      t.en = { s.en with armed := true, sysint := true, lastEvent := some .p1r } ∧ t.fg.wait = none ∧
      t.disp = s.disp ∧
      (∀ a b n, s.fg.wait = some ⟨.dmaReadBlock a b n, rfl⟩ → t.fg.result = some (.count s.dma.count)) ∧
      (∀ a b n, s.fg.wait = some ⟨.dmaWriteBlock a b n, rfl⟩ → t.fg.result = some (.count s.dma.count)) ∧
      (∀ a x, s.fg.wait = some ⟨.dmaWriteByte a x, rfl⟩ → t.fg.result = some (.count 1)) ∧
      (∀ a x, s.fg.wait = some ⟨.dmaWriteWord a x, rfl⟩ → t.fg.result = some (.count 2))

/-- R120, R125, R126, R128: the read wrappers return the bytes captured from the bus, the first in bits 7:0 of a word. The
byte wrapper's one data edge gives its result. Of the word wrapper, the first data edge keeps its byte in the scratch; no
later edge that completes no byte (a yield's among them) changes it; and the second gives the word of both. The last clause
says it of the two edges together where no yield falls between them. -/
def Obligations.ReadWrappersReturnTheBusBytes : Prop :=
  ∀ (s : State) (d : Drive) (a : Bits16), s.dma.active = true → s.en.armed = false → s.dma.dir = .rd →
    s.dma.tgt = .scratch → s.par.resume = .sameCycleP1F →
    (∀ v, s.dma.state = .dXfer → s.dma.xferPending = true → OneDriver s d v →
      (s.dma.count = 1 → s.dma.k = 0 → s.fg.wait = some ⟨.dmaReadByte a, rfl⟩ →
        (evP1R d s).fg.result = some (.byte v)) ∧
      (s.dma.count = 2 → s.dma.k = 0 → s.fg.wait = some ⟨.dmaReadWord a, rfl⟩ →
        (evP1R d s).dma.wbuf0 = v ∧ (evP1R d s).dma.k = 1 ∧ (evP1R d s).fg = s.fg) ∧
      (s.dma.count = 2 → s.dma.k = 1 → s.fg.wait = some ⟨.dmaReadWord a, rfl⟩ →
        ∃ w, (evP1R d s).fg.result = some (.word w) ∧ w.toNat = v.toNat * 256 + s.dma.wbuf0.toNat) ∧
      (∀ f p pri e u, s.dma.count = 2 → s.dma.k = 0 → s.fg.wait = some ⟨.dmaReadWord a, rfl⟩ →
        s.dma.burstK ≠ s.par.burstMax → OneDriver (evP1F f p pri (evP1R d s)) e u →
        ∃ w, (evP1R e (evP1F f p pri (evP1R d s))).fg.result = some (.word w) ∧
          w.toNat = u.toNat * 256 + v.toNat)) ∧
    (s.dma.xferPending = false → (evP1R d s).dma.wbuf0 = s.dma.wbuf0) ∧
    (∀ p pri, (evP1F d p pri s).dma.wbuf0 = s.dma.wbuf0)

/-- R123, R125: with RESUME_POINT = NextCycleP1R the release comes at the falling edge after the last data edge, the
pattern of the cycle in between is `000`, and the waiting command gets its result then. -/
def Obligations.LateReleaseWaitsForTheFallingEdge : Prop :=
  ∀ (s : State) (d e : Drive) (pri : Bool), s.dma.active = true → s.en.armed = false → s.dma.state = .dXfer →
    s.dma.xferPending = true → s.dma.k + 1 = s.dma.count → s.par.resume = .nextCycleP1R →
    let m := evP1R d s
    let t := evP1F e m.lines.ctrlOut pri m
    m.lines = { s.lines with ctrlOut := 0b000 } ∧ m.dma.active = true ∧ m.fg = s.fg ∧ t.dma.active = false ∧
      t.dma.ack = false ∧ t.dma.state = .dIdle ∧ t.lines.ctrlMode = .host ∧ t.lines.halt = false ∧
      t.lines.drvD = none ∧ t.en.armed = true ∧ t.en.sysint = true ∧ t.fg.wait = none ∧ t.disp = s.disp ∧
      (∀ a b n, s.fg.wait = some ⟨.dmaReadBlock a b n, rfl⟩ → t.fg.result = some (.count s.dma.count)) ∧
      (∀ a b n, s.fg.wait = some ⟨.dmaWriteBlock a b n, rfl⟩ → t.fg.result = some (.count s.dma.count)) ∧
      (∀ a x, s.fg.wait = some ⟨.dmaWriteByte a x, rfl⟩ → t.fg.result = some (.count 1)) ∧
      (∀ a x, s.fg.wait = some ⟨.dmaWriteWord a x, rfl⟩ → t.fg.result = some (.count 2)) ∧
      (∀ a v, s.fg.wait = some ⟨.dmaReadByte a, rfl⟩ → s.dma.dir = .rd → s.dma.tgt = .scratch → s.dma.k = 0 →
        OneDriver s d v → t.fg.result = some (.byte v)) ∧
      (∀ a v, s.fg.wait = some ⟨.dmaReadWord a, rfl⟩ → s.dma.dir = .rd → s.dma.tgt = .scratch → s.dma.k = 1 →
        OneDriver s d v →
        ∃ w, t.fg.result = some (.word w) ∧ w.toNat = v.toNat * 256 + s.dma.wbuf0.toNat)

/-! ### The host peers -/

/-- R38, R69, R73: the peers keep the bus address by the dispatcher's law, serve a Read transaction in phase 1 of the next
cycle, and take a Write transaction's byte at the next `P1R`, where a peer serves the address; no other host memory
location ever changes, and one that no peer serves stays so. That the peers stand in State is the model's choice
(assumption 5). -/
def Obligations.PeersServeReadsAndWrites : Prop :=
  ∀ (s : State) (d : Drive) (p : Bits3) (pri : Bool),
    let t := evP1F d p pri s
    let u := evP1R d s
    (∃ v, (∀ w, OneDriver s d w → v = w) ∧ t.peers.hplb = v ∧
      t.peers.ha =
        if s.peers.load then assemble v s.peers.hplb else if s.peers.inc then s.peers.ha + 1 else s.peers.ha) ∧
    t.peers.load = (classify s.par.intack p).2 ∧
    (t.peers.inc = true ↔
      (classify s.par.intack p = (.read, false) ∨ classify s.par.intack p = (.write, false)) ∧
        highByte t.peers.ha ≠ s.par.ioPage) ∧
    t.peers.drive = (if classify s.par.intack p = (.read, false) then hostRead s.peers.mem t.peers.ha else none) ∧
    t.peers.write = (if classify s.par.intack p = (.write, false) then some t.peers.ha else none) ∧
    (∀ a, hostRead t.peers.mem a = hostRead s.peers.mem a) ∧
    u.peers = { s.peers with mem := u.peers.mem, write := none } ∧
    (∀ a v w, s.peers.write = some a → OneDriver s d v → hostRead s.peers.mem a = some w →
      hostRead u.peers.mem a = some v) ∧
    (∀ a b, s.peers.write = some a → b ≠ a → hostRead u.peers.mem b = hostRead s.peers.mem b) ∧
    (s.peers.write = none → ∀ b, hostRead u.peers.mem b = hostRead s.peers.mem b) ∧
    (∀ a, hostRead s.peers.mem a = none → hostRead u.peers.mem a = none)

/-- R126, R130, R38: a DMA_READ_BYTE from first pattern to result. From the state in which the handoff has completed,
through the cycles the engine drives with the host peers on the bus, the byte the peers hold at the address is the
command's result. That the peers stand in State is the model's choice (assumption 5). -/
def Obligations.DmaReadByteReturnsHostMemory : Prop :=
  ∀ (s : State) (a : Bits16) (v : Byte), Coherent s → Unmarked s → s.par.intack = .p111 →
    s.par.resume = .sameCycleP1F →
    s.dma.active = true → s.dma.state = .dAddrLo → s.dma.dir = .rd → s.dma.addr = a → s.dma.tgt = .scratch →
    s.dma.count = 1 → s.dma.k = 0 → s.fg.wait = some ⟨.dmaReadByte a, rfl⟩ →
    s.lines.ctrlOut = 0b100 → s.lines.drvD = none → s.peers.write = none → hostRead s.peers.mem a = some v →
    s.en.lastEvent = some .p1r →
    s.turns = [.fall (.given none) 0 false, .rise (.given none), .fall (.given none) 0 false, .rise (.given none),
      .fall (.given none) 0 false, .rise .peers] →
    ∃ t, Host.Core.run Sys2Proof.core 6 s = .next t ∧ t.fg.result = some (.byte v) ∧ t.fg.wait = none ∧ t.dma.state = .dIdle ∧
      t.lines.ctrlMode = .host ∧ t.lines.halt = false ∧ t.disp = s.disp ∧ Unmarked t ∧
      (∀ b, hostRead t.peers.mem b = hostRead s.peers.mem b)

/-- R119, R125, R129, R130, R38: a DMA_WRITE_WORD from first pattern to result. From the state in which the handoff has
completed, through the cycles the engine drives with nobody else on the bus, the low byte goes to the address and the high
byte to the next one, or to the same one in I/O space, where the peers serve them; no other location changes. The last byte
is still on the bus, until the next falling edge. That the peers stand in State, and that the drive outlasts the release,
is the model's choice (assumptions 5 and 27). -/
def Obligations.DmaWriteWordReachesHostMemory : Prop :=
  ∀ (s : State) (a v : Bits16), Coherent s → Unmarked s → s.par.intack = .p111 → s.par.resume = .sameCycleP1F →
    s.dma.active = true → s.dma.state = .dAddrLo → s.dma.dir = .wr → s.dma.addr = a → s.dma.tgt = .scratch →
    s.dma.count = 2 → s.dma.k = 0 → s.dma.burstK = 0 → 1 < s.par.burstMax → s.dma.wbuf0 = lowByte v →
    s.dma.wbuf1 = highByte v → s.fg.wait = some ⟨.dmaWriteWord a v, rfl⟩ → s.lines.ctrlOut = 0b100 →
    s.lines.drvD = none → s.peers.write = none → s.en.lastEvent = some .p1r →
    s.turns = [.fall (.given none) 0 false, .rise (.given none), .fall (.given none) 0 false, .rise (.given none),
      .fall (.given none) 0 false, .rise (.given none), .fall (.given none) 0 false, .rise (.given none)] →
    let a1 := if highByte a = s.par.ioPage then a else a + 1
    ∃ t, Host.Core.run Sys2Proof.core 8 s = .next t ∧ t.fg.result = some (.count 2) ∧ t.fg.wait = none ∧
      t.dma.state = .dIdle ∧ t.lines.ctrlMode = .host ∧ t.lines.halt = false ∧ t.lines.drvD = some (highByte v) ∧
      t.disp = s.disp ∧ Unmarked t ∧
      (hostRead s.peers.mem a1 ≠ none → hostRead t.peers.mem a1 = some (highByte v)) ∧
      (a1 ≠ a → hostRead s.peers.mem a ≠ none → hostRead t.peers.mem a = some (lowByte v)) ∧
      (∀ b, hostRead s.peers.mem b = none → hostRead t.peers.mem b = none) ∧
      (∀ b, b ≠ a → b ≠ a1 → hostRead t.peers.mem b = hostRead s.peers.mem b)

/-! ### Whole-machine rules -/

/-- R31 (with what it rests on): every step keeps the invariants. -/
def Obligations.EveryStepKeepsCoherence : Prop :=
  ∀ s t : State, Coherent s → step s = .next t → Coherent t

/-- R31, R26, R28, R34: the invariants hold at reset. -/
def Obligations.ResetMeetsTheInvariants : Prop :=
  Coherent State.reset ∧ InRange State.reset ∧ Canonical State.reset

/-- R26, R28: every step keeps the counters in their ranges. -/
def Obligations.EveryStepKeepsTheRanges : Prop :=
  ∀ s t : State, InRange s → step s = .next t → InRange t

/-- R22, R23, R28, R34, R36: every step keeps every memory and table in its canonical form, with keys its space has. -/
def Obligations.EveryStepKeepsTheCanonicalForms : Prop :=
  ∀ s t : State, InRange s → Canonical s → step s = .next t → Canonical t

/-- R33, R47: no step changes a parameter; once the dispatcher has been armed, no step but an external reset changes a
table, or forgets the arming. -/
def Obligations.TablesAreFixedOnceArmed : Prop :=
  ∀ s t : State, step s = .next t → t.par = s.par ∧
    (s.en.armedOnce = true → (∀ ts, s.turns ≠ .reset :: ts) → t.tabs = s.tabs ∧ t.en.armedOnce = true)

/-- R13: only the DMA release (or an external reset) clears `halt`. -/
def Obligations.OnlyTheReleaseClearsHalt : Prop :=
  ∀ s t : State, Coherent s → (∀ ts, s.turns ≠ .reset :: ts) → step s = .next t → s.lines.halt = true →
    t.lines.halt = false → s.dma.active = true ∧ t.dma.active = false

/-- R49, R115, R125, R167: while the engine is bus master, no step but an external reset moves the dispatcher's registers,
the arbiter, the tables, `dev` or the trace: `A` is stale after a DMA. That the foreground, which is blocked then, does not
set `dev` either is the model's reading (assumption 17). -/
def Obligations.DispatcherIsFrozenDuringDma : Prop :=
  ∀ s t : State, Coherent s → s.dma.active = true → (∀ ts, s.turns ≠ .reset :: ts) → step s = .next t →
    t.disp = s.disp ∧ t.int = s.int ∧ t.tabs = s.tabs ∧ t.dev = s.dev ∧ t.trace = s.trace ∧
      t.lines.irq = s.lines.irq ∧ t.lines.priOut = s.lines.priOut

/-- R124: while the device drives the control lines, its pattern is an address load, a strobe or idle. -/
def Obligations.MasterPatternsAreLoadStrobeOrIdle : Prop :=
  ∀ s t : State, Coherent s →
    (s.lines.ctrlMode = .device → s.lines.ctrlOut ∈ [0b100, 0b010, 0b001, 0b000]) → step s = .next t →
    t.lines.ctrlMode = .device → t.lines.ctrlOut ∈ [0b100, 0b010, 0b001, 0b000]

/-- R100 to R102: the request line and the priority line are both asserted exactly while the arbiter is in
RequestPending, over every step. -/
def Obligations.RequestLinesFollowTheArbiter : Prop :=
  ∀ s t : State,
    (s.lines.irq = true ↔ s.int.arb = .requestPending) ∧ (s.lines.priOut = true ↔ s.int.arb = .requestPending) →
    step s = .next t →
    (t.lines.irq = true ↔ t.int.arb = .requestPending) ∧ (t.lines.priOut = true ↔ t.int.arb = .requestPending)
end

