-- ==== Sys2Proof/Laws/State.lean ====
section
/-! SUPPORT. What each named update of the state leaves unchanged, one lemma per field, and what it writes. -/

namespace Sys2Proof.Machine
open Sys2Proof

/-! setResult -/

@[simp] theorem setResult_par (v : Value) (s : State) : (setResult v s).par = s.par := rfl
@[simp] theorem setResult_lines (v : Value) (s : State) : (setResult v s).lines = s.lines := rfl
@[simp] theorem setResult_disp (v : Value) (s : State) : (setResult v s).disp = s.disp := rfl
@[simp] theorem setResult_en (v : Value) (s : State) : (setResult v s).en = s.en := rfl
@[simp] theorem setResult_tabs (v : Value) (s : State) : (setResult v s).tabs = s.tabs := rfl
@[simp] theorem setResult_int (v : Value) (s : State) : (setResult v s).int = s.int := rfl
@[simp] theorem setResult_dma (v : Value) (s : State) : (setResult v s).dma = s.dma := rfl
@[simp] theorem setResult_trace (v : Value) (s : State) : (setResult v s).trace = s.trace := rfl
@[simp] theorem setResult_dev (v : Value) (s : State) : (setResult v s).dev = s.dev := rfl
@[simp] theorem setResult_buf (v : Value) (s : State) : (setResult v s).buf = s.buf := rfl
@[simp] theorem setResult_peers (v : Value) (s : State) : (setResult v s).peers = s.peers := rfl
@[simp] theorem setResult_marks (v : Value) (s : State) : (setResult v s).marks = s.marks := rfl
@[simp] theorem setResult_draws (v : Value) (s : State) : (setResult v s).draws = s.draws := rfl
@[simp] theorem setResult_prog (v : Value) (s : State) : (setResult v s).prog = s.prog := rfl
@[simp] theorem setResult_boot (v : Value) (s : State) : (setResult v s).boot = s.boot := rfl
@[simp] theorem setResult_turns (v : Value) (s : State) : (setResult v s).turns = s.turns := rfl

/-! refuse -/

@[simp] theorem refuse_par (r : RefuseReason) (s : State) : (refuse r s).par = s.par := rfl
@[simp] theorem refuse_lines (r : RefuseReason) (s : State) : (refuse r s).lines = s.lines := rfl
@[simp] theorem refuse_disp (r : RefuseReason) (s : State) : (refuse r s).disp = s.disp := rfl
@[simp] theorem refuse_en (r : RefuseReason) (s : State) : (refuse r s).en = s.en := rfl
@[simp] theorem refuse_tabs (r : RefuseReason) (s : State) : (refuse r s).tabs = s.tabs := rfl
@[simp] theorem refuse_int (r : RefuseReason) (s : State) : (refuse r s).int = s.int := rfl
@[simp] theorem refuse_dma (r : RefuseReason) (s : State) : (refuse r s).dma = s.dma := rfl
@[simp] theorem refuse_fg (r : RefuseReason) (s : State) : (refuse r s).fg = s.fg := rfl
@[simp] theorem refuse_trace (r : RefuseReason) (s : State) : (refuse r s).trace = s.trace := rfl
@[simp] theorem refuse_dev (r : RefuseReason) (s : State) : (refuse r s).dev = s.dev := rfl
@[simp] theorem refuse_buf (r : RefuseReason) (s : State) : (refuse r s).buf = s.buf := rfl
@[simp] theorem refuse_peers (r : RefuseReason) (s : State) : (refuse r s).peers = s.peers := rfl
@[simp] theorem refuse_draws (r : RefuseReason) (s : State) : (refuse r s).draws = s.draws := rfl
@[simp] theorem refuse_prog (r : RefuseReason) (s : State) : (refuse r s).prog = s.prog := rfl
@[simp] theorem refuse_boot (r : RefuseReason) (s : State) : (refuse r s).boot = s.boot := rfl
@[simp] theorem refuse_turns (r : RefuseReason) (s : State) : (refuse r s).turns = s.turns := rfl

/-! raiseContention -/

@[simp] theorem raiseContention_par (s : State) : (raiseContention s).par = s.par := rfl
@[simp] theorem raiseContention_lines (s : State) : (raiseContention s).lines = s.lines := rfl
@[simp] theorem raiseContention_disp (s : State) : (raiseContention s).disp = s.disp := rfl
@[simp] theorem raiseContention_en (s : State) : (raiseContention s).en = s.en := rfl
@[simp] theorem raiseContention_tabs (s : State) : (raiseContention s).tabs = s.tabs := rfl
@[simp] theorem raiseContention_int (s : State) : (raiseContention s).int = s.int := rfl
@[simp] theorem raiseContention_dma (s : State) : (raiseContention s).dma = s.dma := rfl
@[simp] theorem raiseContention_fg (s : State) : (raiseContention s).fg = s.fg := rfl
@[simp] theorem raiseContention_trace (s : State) : (raiseContention s).trace = s.trace := rfl
@[simp] theorem raiseContention_dev (s : State) : (raiseContention s).dev = s.dev := rfl
@[simp] theorem raiseContention_buf (s : State) : (raiseContention s).buf = s.buf := rfl
@[simp] theorem raiseContention_peers (s : State) : (raiseContention s).peers = s.peers := rfl
@[simp] theorem raiseContention_draws (s : State) : (raiseContention s).draws = s.draws := rfl
@[simp] theorem raiseContention_prog (s : State) : (raiseContention s).prog = s.prog := rfl
@[simp] theorem raiseContention_boot (s : State) : (raiseContention s).boot = s.boot := rfl
@[simp] theorem raiseContention_turns (s : State) : (raiseContention s).turns = s.turns := rfl

/-! drawByte -/

@[simp] theorem drawByte_par (s : State) : (drawByte s).2.par = s.par := rfl
@[simp] theorem drawByte_lines (s : State) : (drawByte s).2.lines = s.lines := rfl
@[simp] theorem drawByte_disp (s : State) : (drawByte s).2.disp = s.disp := rfl
@[simp] theorem drawByte_en (s : State) : (drawByte s).2.en = s.en := rfl
@[simp] theorem drawByte_tabs (s : State) : (drawByte s).2.tabs = s.tabs := rfl
@[simp] theorem drawByte_int (s : State) : (drawByte s).2.int = s.int := rfl
@[simp] theorem drawByte_dma (s : State) : (drawByte s).2.dma = s.dma := rfl
@[simp] theorem drawByte_fg (s : State) : (drawByte s).2.fg = s.fg := rfl
@[simp] theorem drawByte_trace (s : State) : (drawByte s).2.trace = s.trace := rfl
@[simp] theorem drawByte_dev (s : State) : (drawByte s).2.dev = s.dev := rfl
@[simp] theorem drawByte_buf (s : State) : (drawByte s).2.buf = s.buf := rfl
@[simp] theorem drawByte_peers (s : State) : (drawByte s).2.peers = s.peers := rfl
@[simp] theorem drawByte_marks (s : State) : (drawByte s).2.marks = s.marks := rfl
@[simp] theorem drawByte_prog (s : State) : (drawByte s).2.prog = s.prog := rfl
@[simp] theorem drawByte_boot (s : State) : (drawByte s).2.boot = s.boot := rfl
@[simp] theorem drawByte_turns (s : State) : (drawByte s).2.turns = s.turns := rfl

/-! drawBits16 -/

@[simp] theorem drawBits16_par (s : State) : (drawBits16 s).2.par = s.par := rfl
@[simp] theorem drawBits16_lines (s : State) : (drawBits16 s).2.lines = s.lines := rfl
@[simp] theorem drawBits16_disp (s : State) : (drawBits16 s).2.disp = s.disp := rfl
@[simp] theorem drawBits16_en (s : State) : (drawBits16 s).2.en = s.en := rfl
@[simp] theorem drawBits16_tabs (s : State) : (drawBits16 s).2.tabs = s.tabs := rfl
@[simp] theorem drawBits16_int (s : State) : (drawBits16 s).2.int = s.int := rfl
@[simp] theorem drawBits16_dma (s : State) : (drawBits16 s).2.dma = s.dma := rfl
@[simp] theorem drawBits16_fg (s : State) : (drawBits16 s).2.fg = s.fg := rfl
@[simp] theorem drawBits16_trace (s : State) : (drawBits16 s).2.trace = s.trace := rfl
@[simp] theorem drawBits16_dev (s : State) : (drawBits16 s).2.dev = s.dev := rfl
@[simp] theorem drawBits16_buf (s : State) : (drawBits16 s).2.buf = s.buf := rfl
@[simp] theorem drawBits16_peers (s : State) : (drawBits16 s).2.peers = s.peers := rfl
@[simp] theorem drawBits16_marks (s : State) : (drawBits16 s).2.marks = s.marks := rfl
@[simp] theorem drawBits16_prog (s : State) : (drawBits16 s).2.prog = s.prog := rfl
@[simp] theorem drawBits16_boot (s : State) : (drawBits16 s).2.boot = s.boot := rfl
@[simp] theorem drawBits16_turns (s : State) : (drawBits16 s).2.turns = s.turns := rfl

/-! setClassification -/

@[simp] theorem setClassification_par (p : Bits3) (s : State) : (setClassification p s).par = s.par := rfl
@[simp] theorem setClassification_lines (p : Bits3) (s : State) : (setClassification p s).lines = s.lines := rfl
@[simp] theorem setClassification_en (p : Bits3) (s : State) : (setClassification p s).en = s.en := rfl
@[simp] theorem setClassification_tabs (p : Bits3) (s : State) : (setClassification p s).tabs = s.tabs := rfl
@[simp] theorem setClassification_int (p : Bits3) (s : State) : (setClassification p s).int = s.int := rfl
@[simp] theorem setClassification_dma (p : Bits3) (s : State) : (setClassification p s).dma = s.dma := rfl
@[simp] theorem setClassification_fg (p : Bits3) (s : State) : (setClassification p s).fg = s.fg := rfl
@[simp] theorem setClassification_trace (p : Bits3) (s : State) : (setClassification p s).trace = s.trace := rfl
@[simp] theorem setClassification_dev (p : Bits3) (s : State) : (setClassification p s).dev = s.dev := rfl
@[simp] theorem setClassification_buf (p : Bits3) (s : State) : (setClassification p s).buf = s.buf := rfl
@[simp] theorem setClassification_peers (p : Bits3) (s : State) : (setClassification p s).peers = s.peers := rfl
@[simp] theorem setClassification_marks (p : Bits3) (s : State) : (setClassification p s).marks = s.marks := rfl
@[simp] theorem setClassification_draws (p : Bits3) (s : State) : (setClassification p s).draws = s.draws := rfl
@[simp] theorem setClassification_prog (p : Bits3) (s : State) : (setClassification p s).prog = s.prog := rfl
@[simp] theorem setClassification_boot (p : Bits3) (s : State) : (setClassification p s).boot = s.boot := rfl
@[simp] theorem setClassification_turns (p : Bits3) (s : State) : (setClassification p s).turns = s.turns := rfl

/-! assertRequest -/

@[simp] theorem assertRequest_par (s : State) : (assertRequest s).par = s.par := rfl
@[simp] theorem assertRequest_disp (s : State) : (assertRequest s).disp = s.disp := rfl
@[simp] theorem assertRequest_en (s : State) : (assertRequest s).en = s.en := rfl
@[simp] theorem assertRequest_tabs (s : State) : (assertRequest s).tabs = s.tabs := rfl
@[simp] theorem assertRequest_dma (s : State) : (assertRequest s).dma = s.dma := rfl
@[simp] theorem assertRequest_fg (s : State) : (assertRequest s).fg = s.fg := rfl
@[simp] theorem assertRequest_trace (s : State) : (assertRequest s).trace = s.trace := rfl
@[simp] theorem assertRequest_dev (s : State) : (assertRequest s).dev = s.dev := rfl
@[simp] theorem assertRequest_buf (s : State) : (assertRequest s).buf = s.buf := rfl
@[simp] theorem assertRequest_peers (s : State) : (assertRequest s).peers = s.peers := rfl
@[simp] theorem assertRequest_marks (s : State) : (assertRequest s).marks = s.marks := rfl
@[simp] theorem assertRequest_draws (s : State) : (assertRequest s).draws = s.draws := rfl
@[simp] theorem assertRequest_prog (s : State) : (assertRequest s).prog = s.prog := rfl
@[simp] theorem assertRequest_boot (s : State) : (assertRequest s).boot = s.boot := rfl
@[simp] theorem assertRequest_turns (s : State) : (assertRequest s).turns = s.turns := rfl

/-! releaseRequest -/

@[simp] theorem releaseRequest_par (s : State) : (releaseRequest s).par = s.par := rfl
@[simp] theorem releaseRequest_disp (s : State) : (releaseRequest s).disp = s.disp := rfl
@[simp] theorem releaseRequest_en (s : State) : (releaseRequest s).en = s.en := rfl
@[simp] theorem releaseRequest_tabs (s : State) : (releaseRequest s).tabs = s.tabs := rfl
@[simp] theorem releaseRequest_dma (s : State) : (releaseRequest s).dma = s.dma := rfl
@[simp] theorem releaseRequest_fg (s : State) : (releaseRequest s).fg = s.fg := rfl
@[simp] theorem releaseRequest_trace (s : State) : (releaseRequest s).trace = s.trace := rfl
@[simp] theorem releaseRequest_dev (s : State) : (releaseRequest s).dev = s.dev := rfl
@[simp] theorem releaseRequest_buf (s : State) : (releaseRequest s).buf = s.buf := rfl
@[simp] theorem releaseRequest_peers (s : State) : (releaseRequest s).peers = s.peers := rfl
@[simp] theorem releaseRequest_marks (s : State) : (releaseRequest s).marks = s.marks := rfl
@[simp] theorem releaseRequest_draws (s : State) : (releaseRequest s).draws = s.draws := rfl
@[simp] theorem releaseRequest_prog (s : State) : (releaseRequest s).prog = s.prog := rfl
@[simp] theorem releaseRequest_boot (s : State) : (releaseRequest s).boot = s.boot := rfl
@[simp] theorem releaseRequest_turns (s : State) : (releaseRequest s).turns = s.turns := rfl

/-! supplyVector -/

@[simp] theorem supplyVector_par (s : State) : (supplyVector s).par = s.par := rfl
@[simp] theorem supplyVector_disp (s : State) : (supplyVector s).disp = s.disp := rfl
@[simp] theorem supplyVector_en (s : State) : (supplyVector s).en = s.en := rfl
@[simp] theorem supplyVector_tabs (s : State) : (supplyVector s).tabs = s.tabs := rfl
@[simp] theorem supplyVector_dma (s : State) : (supplyVector s).dma = s.dma := rfl
@[simp] theorem supplyVector_fg (s : State) : (supplyVector s).fg = s.fg := rfl
@[simp] theorem supplyVector_trace (s : State) : (supplyVector s).trace = s.trace := rfl
@[simp] theorem supplyVector_dev (s : State) : (supplyVector s).dev = s.dev := rfl
@[simp] theorem supplyVector_buf (s : State) : (supplyVector s).buf = s.buf := rfl
@[simp] theorem supplyVector_peers (s : State) : (supplyVector s).peers = s.peers := rfl
@[simp] theorem supplyVector_marks (s : State) : (supplyVector s).marks = s.marks := rfl
@[simp] theorem supplyVector_draws (s : State) : (supplyVector s).draws = s.draws := rfl
@[simp] theorem supplyVector_prog (s : State) : (supplyVector s).prog = s.prog := rfl
@[simp] theorem supplyVector_boot (s : State) : (supplyVector s).boot = s.boot := rfl
@[simp] theorem supplyVector_turns (s : State) : (supplyVector s).turns = s.turns := rfl

/-! armDispatcher -/

@[simp] theorem armDispatcher_par (s : State) : (armDispatcher s).par = s.par := rfl
@[simp] theorem armDispatcher_lines (s : State) : (armDispatcher s).lines = s.lines := rfl
@[simp] theorem armDispatcher_disp (s : State) : (armDispatcher s).disp = s.disp := rfl
@[simp] theorem armDispatcher_tabs (s : State) : (armDispatcher s).tabs = s.tabs := rfl
@[simp] theorem armDispatcher_int (s : State) : (armDispatcher s).int = s.int := rfl
@[simp] theorem armDispatcher_dma (s : State) : (armDispatcher s).dma = s.dma := rfl
@[simp] theorem armDispatcher_trace (s : State) : (armDispatcher s).trace = s.trace := rfl
@[simp] theorem armDispatcher_dev (s : State) : (armDispatcher s).dev = s.dev := rfl
@[simp] theorem armDispatcher_buf (s : State) : (armDispatcher s).buf = s.buf := rfl
@[simp] theorem armDispatcher_peers (s : State) : (armDispatcher s).peers = s.peers := rfl
@[simp] theorem armDispatcher_marks (s : State) : (armDispatcher s).marks = s.marks := rfl
@[simp] theorem armDispatcher_draws (s : State) : (armDispatcher s).draws = s.draws := rfl
@[simp] theorem armDispatcher_prog (s : State) : (armDispatcher s).prog = s.prog := rfl
@[simp] theorem armDispatcher_boot (s : State) : (armDispatcher s).boot = s.boot := rfl
@[simp] theorem armDispatcher_turns (s : State) : (armDispatcher s).turns = s.turns := rfl

/-! traceStart -/

@[simp] theorem traceStart_par (s : State) : (traceStart s).par = s.par := rfl
@[simp] theorem traceStart_lines (s : State) : (traceStart s).lines = s.lines := rfl
@[simp] theorem traceStart_disp (s : State) : (traceStart s).disp = s.disp := rfl
@[simp] theorem traceStart_en (s : State) : (traceStart s).en = s.en := rfl
@[simp] theorem traceStart_tabs (s : State) : (traceStart s).tabs = s.tabs := rfl
@[simp] theorem traceStart_int (s : State) : (traceStart s).int = s.int := rfl
@[simp] theorem traceStart_dma (s : State) : (traceStart s).dma = s.dma := rfl
@[simp] theorem traceStart_dev (s : State) : (traceStart s).dev = s.dev := rfl
@[simp] theorem traceStart_buf (s : State) : (traceStart s).buf = s.buf := rfl
@[simp] theorem traceStart_peers (s : State) : (traceStart s).peers = s.peers := rfl
@[simp] theorem traceStart_marks (s : State) : (traceStart s).marks = s.marks := rfl
@[simp] theorem traceStart_draws (s : State) : (traceStart s).draws = s.draws := rfl
@[simp] theorem traceStart_prog (s : State) : (traceStart s).prog = s.prog := rfl
@[simp] theorem traceStart_boot (s : State) : (traceStart s).boot = s.boot := rfl
@[simp] theorem traceStart_turns (s : State) : (traceStart s).turns = s.turns := rfl

/-! traceStop -/

@[simp] theorem traceStop_par (s : State) : (traceStop s).par = s.par := rfl
@[simp] theorem traceStop_lines (s : State) : (traceStop s).lines = s.lines := rfl
@[simp] theorem traceStop_disp (s : State) : (traceStop s).disp = s.disp := rfl
@[simp] theorem traceStop_en (s : State) : (traceStop s).en = s.en := rfl
@[simp] theorem traceStop_tabs (s : State) : (traceStop s).tabs = s.tabs := rfl
@[simp] theorem traceStop_int (s : State) : (traceStop s).int = s.int := rfl
@[simp] theorem traceStop_dma (s : State) : (traceStop s).dma = s.dma := rfl
@[simp] theorem traceStop_dev (s : State) : (traceStop s).dev = s.dev := rfl
@[simp] theorem traceStop_buf (s : State) : (traceStop s).buf = s.buf := rfl
@[simp] theorem traceStop_peers (s : State) : (traceStop s).peers = s.peers := rfl
@[simp] theorem traceStop_marks (s : State) : (traceStop s).marks = s.marks := rfl
@[simp] theorem traceStop_draws (s : State) : (traceStop s).draws = s.draws := rfl
@[simp] theorem traceStop_prog (s : State) : (traceStop s).prog = s.prog := rfl
@[simp] theorem traceStop_boot (s : State) : (traceStop s).boot = s.boot := rfl
@[simp] theorem traceStop_turns (s : State) : (traceStop s).turns = s.turns := rfl

/-! intSetVector -/

@[simp] theorem intSetVector_par (v : Byte) (s : State) : (intSetVector v s).par = s.par := rfl
@[simp] theorem intSetVector_lines (v : Byte) (s : State) : (intSetVector v s).lines = s.lines := rfl
@[simp] theorem intSetVector_disp (v : Byte) (s : State) : (intSetVector v s).disp = s.disp := rfl
@[simp] theorem intSetVector_en (v : Byte) (s : State) : (intSetVector v s).en = s.en := rfl
@[simp] theorem intSetVector_tabs (v : Byte) (s : State) : (intSetVector v s).tabs = s.tabs := rfl
@[simp] theorem intSetVector_dma (v : Byte) (s : State) : (intSetVector v s).dma = s.dma := rfl
@[simp] theorem intSetVector_trace (v : Byte) (s : State) : (intSetVector v s).trace = s.trace := rfl
@[simp] theorem intSetVector_dev (v : Byte) (s : State) : (intSetVector v s).dev = s.dev := rfl
@[simp] theorem intSetVector_buf (v : Byte) (s : State) : (intSetVector v s).buf = s.buf := rfl
@[simp] theorem intSetVector_peers (v : Byte) (s : State) : (intSetVector v s).peers = s.peers := rfl
@[simp] theorem intSetVector_marks (v : Byte) (s : State) : (intSetVector v s).marks = s.marks := rfl
@[simp] theorem intSetVector_draws (v : Byte) (s : State) : (intSetVector v s).draws = s.draws := rfl
@[simp] theorem intSetVector_prog (v : Byte) (s : State) : (intSetVector v s).prog = s.prog := rfl
@[simp] theorem intSetVector_boot (v : Byte) (s : State) : (intSetVector v s).boot = s.boot := rfl
@[simp] theorem intSetVector_turns (v : Byte) (s : State) : (intSetVector v s).turns = s.turns := rfl

/-! intEnable -/

@[simp] theorem intEnable_par (b : Bool) (s : State) : (intEnable b s).par = s.par := rfl
@[simp] theorem intEnable_lines (b : Bool) (s : State) : (intEnable b s).lines = s.lines := rfl
@[simp] theorem intEnable_disp (b : Bool) (s : State) : (intEnable b s).disp = s.disp := rfl
@[simp] theorem intEnable_en (b : Bool) (s : State) : (intEnable b s).en = s.en := rfl
@[simp] theorem intEnable_tabs (b : Bool) (s : State) : (intEnable b s).tabs = s.tabs := rfl
@[simp] theorem intEnable_dma (b : Bool) (s : State) : (intEnable b s).dma = s.dma := rfl
@[simp] theorem intEnable_trace (b : Bool) (s : State) : (intEnable b s).trace = s.trace := rfl
@[simp] theorem intEnable_dev (b : Bool) (s : State) : (intEnable b s).dev = s.dev := rfl
@[simp] theorem intEnable_buf (b : Bool) (s : State) : (intEnable b s).buf = s.buf := rfl
@[simp] theorem intEnable_peers (b : Bool) (s : State) : (intEnable b s).peers = s.peers := rfl
@[simp] theorem intEnable_marks (b : Bool) (s : State) : (intEnable b s).marks = s.marks := rfl
@[simp] theorem intEnable_draws (b : Bool) (s : State) : (intEnable b s).draws = s.draws := rfl
@[simp] theorem intEnable_prog (b : Bool) (s : State) : (intEnable b s).prog = s.prog := rfl
@[simp] theorem intEnable_boot (b : Bool) (s : State) : (intEnable b s).boot = s.boot := rfl
@[simp] theorem intEnable_turns (b : Bool) (s : State) : (intEnable b s).turns = s.turns := rfl

/-! intRequest -/

@[simp] theorem intRequest_par (b : Bool) (s : State) : (intRequest b s).par = s.par := rfl
@[simp] theorem intRequest_lines (b : Bool) (s : State) : (intRequest b s).lines = s.lines := rfl
@[simp] theorem intRequest_disp (b : Bool) (s : State) : (intRequest b s).disp = s.disp := rfl
@[simp] theorem intRequest_en (b : Bool) (s : State) : (intRequest b s).en = s.en := rfl
@[simp] theorem intRequest_tabs (b : Bool) (s : State) : (intRequest b s).tabs = s.tabs := rfl
@[simp] theorem intRequest_dma (b : Bool) (s : State) : (intRequest b s).dma = s.dma := rfl
@[simp] theorem intRequest_trace (b : Bool) (s : State) : (intRequest b s).trace = s.trace := rfl
@[simp] theorem intRequest_dev (b : Bool) (s : State) : (intRequest b s).dev = s.dev := rfl
@[simp] theorem intRequest_buf (b : Bool) (s : State) : (intRequest b s).buf = s.buf := rfl
@[simp] theorem intRequest_peers (b : Bool) (s : State) : (intRequest b s).peers = s.peers := rfl
@[simp] theorem intRequest_marks (b : Bool) (s : State) : (intRequest b s).marks = s.marks := rfl
@[simp] theorem intRequest_draws (b : Bool) (s : State) : (intRequest b s).draws = s.draws := rfl
@[simp] theorem intRequest_prog (b : Bool) (s : State) : (intRequest b s).prog = s.prog := rfl
@[simp] theorem intRequest_boot (b : Bool) (s : State) : (intRequest b s).boot = s.boot := rfl
@[simp] theorem intRequest_turns (b : Bool) (s : State) : (intRequest b s).turns = s.turns := rfl

/-! intWant -/

@[simp] theorem intWant_par (b : Bool) (s : State) : (intWant b s).par = s.par := rfl
@[simp] theorem intWant_lines (b : Bool) (s : State) : (intWant b s).lines = s.lines := rfl
@[simp] theorem intWant_disp (b : Bool) (s : State) : (intWant b s).disp = s.disp := rfl
@[simp] theorem intWant_en (b : Bool) (s : State) : (intWant b s).en = s.en := rfl
@[simp] theorem intWant_tabs (b : Bool) (s : State) : (intWant b s).tabs = s.tabs := rfl
@[simp] theorem intWant_dma (b : Bool) (s : State) : (intWant b s).dma = s.dma := rfl
@[simp] theorem intWant_trace (b : Bool) (s : State) : (intWant b s).trace = s.trace := rfl
@[simp] theorem intWant_dev (b : Bool) (s : State) : (intWant b s).dev = s.dev := rfl
@[simp] theorem intWant_buf (b : Bool) (s : State) : (intWant b s).buf = s.buf := rfl
@[simp] theorem intWant_peers (b : Bool) (s : State) : (intWant b s).peers = s.peers := rfl
@[simp] theorem intWant_marks (b : Bool) (s : State) : (intWant b s).marks = s.marks := rfl
@[simp] theorem intWant_draws (b : Bool) (s : State) : (intWant b s).draws = s.draws := rfl
@[simp] theorem intWant_prog (b : Bool) (s : State) : (intWant b s).prog = s.prog := rfl
@[simp] theorem intWant_boot (b : Bool) (s : State) : (intWant b s).boot = s.boot := rfl
@[simp] theorem intWant_turns (b : Bool) (s : State) : (intWant b s).turns = s.turns := rfl

/-! requestStep -/

@[simp] theorem requestStep_par (s : State) : (requestStep s).par = s.par := rfl
@[simp] theorem requestStep_lines (s : State) : (requestStep s).lines = s.lines := rfl
@[simp] theorem requestStep_disp (s : State) : (requestStep s).disp = s.disp := rfl
@[simp] theorem requestStep_en (s : State) : (requestStep s).en = s.en := rfl
@[simp] theorem requestStep_tabs (s : State) : (requestStep s).tabs = s.tabs := rfl
@[simp] theorem requestStep_int (s : State) : (requestStep s).int = s.int := rfl
@[simp] theorem requestStep_fg (s : State) : (requestStep s).fg = s.fg := rfl
@[simp] theorem requestStep_trace (s : State) : (requestStep s).trace = s.trace := rfl
@[simp] theorem requestStep_dev (s : State) : (requestStep s).dev = s.dev := rfl
@[simp] theorem requestStep_buf (s : State) : (requestStep s).buf = s.buf := rfl
@[simp] theorem requestStep_peers (s : State) : (requestStep s).peers = s.peers := rfl
@[simp] theorem requestStep_marks (s : State) : (requestStep s).marks = s.marks := rfl
@[simp] theorem requestStep_draws (s : State) : (requestStep s).draws = s.draws := rfl
@[simp] theorem requestStep_prog (s : State) : (requestStep s).prog = s.prog := rfl
@[simp] theorem requestStep_boot (s : State) : (requestStep s).boot = s.boot := rfl
@[simp] theorem requestStep_turns (s : State) : (requestStep s).turns = s.turns := rfl

/-! dmaRelease -/

@[simp] theorem dmaRelease_par (s : State) : (dmaRelease s).par = s.par := rfl
@[simp] theorem dmaRelease_disp (s : State) : (dmaRelease s).disp = s.disp := rfl
@[simp] theorem dmaRelease_tabs (s : State) : (dmaRelease s).tabs = s.tabs := rfl
@[simp] theorem dmaRelease_int (s : State) : (dmaRelease s).int = s.int := rfl
@[simp] theorem dmaRelease_trace (s : State) : (dmaRelease s).trace = s.trace := rfl
@[simp] theorem dmaRelease_dev (s : State) : (dmaRelease s).dev = s.dev := rfl
@[simp] theorem dmaRelease_buf (s : State) : (dmaRelease s).buf = s.buf := rfl
@[simp] theorem dmaRelease_peers (s : State) : (dmaRelease s).peers = s.peers := rfl
@[simp] theorem dmaRelease_marks (s : State) : (dmaRelease s).marks = s.marks := rfl
@[simp] theorem dmaRelease_draws (s : State) : (dmaRelease s).draws = s.draws := rfl
@[simp] theorem dmaRelease_prog (s : State) : (dmaRelease s).prog = s.prog := rfl
@[simp] theorem dmaRelease_boot (s : State) : (dmaRelease s).boot = s.boot := rfl
@[simp] theorem dmaRelease_turns (s : State) : (dmaRelease s).turns = s.turns := rfl

/-! dmaReleaseAtEdge -/

@[simp] theorem dmaReleaseAtEdge_par (s : State) : (dmaReleaseAtEdge s).par = s.par := rfl
@[simp] theorem dmaReleaseAtEdge_disp (s : State) : (dmaReleaseAtEdge s).disp = s.disp := rfl
@[simp] theorem dmaReleaseAtEdge_tabs (s : State) : (dmaReleaseAtEdge s).tabs = s.tabs := rfl
@[simp] theorem dmaReleaseAtEdge_int (s : State) : (dmaReleaseAtEdge s).int = s.int := rfl
@[simp] theorem dmaReleaseAtEdge_trace (s : State) : (dmaReleaseAtEdge s).trace = s.trace := rfl
@[simp] theorem dmaReleaseAtEdge_dev (s : State) : (dmaReleaseAtEdge s).dev = s.dev := rfl
@[simp] theorem dmaReleaseAtEdge_buf (s : State) : (dmaReleaseAtEdge s).buf = s.buf := rfl
@[simp] theorem dmaReleaseAtEdge_peers (s : State) : (dmaReleaseAtEdge s).peers = s.peers := rfl
@[simp] theorem dmaReleaseAtEdge_marks (s : State) : (dmaReleaseAtEdge s).marks = s.marks := rfl
@[simp] theorem dmaReleaseAtEdge_draws (s : State) : (dmaReleaseAtEdge s).draws = s.draws := rfl
@[simp] theorem dmaReleaseAtEdge_prog (s : State) : (dmaReleaseAtEdge s).prog = s.prog := rfl
@[simp] theorem dmaReleaseAtEdge_boot (s : State) : (dmaReleaseAtEdge s).boot = s.boot := rfl
@[simp] theorem dmaReleaseAtEdge_turns (s : State) : (dmaReleaseAtEdge s).turns = s.turns := rfl
@[simp] theorem dmaReleaseAtEdge_drvD (s : State) : (dmaReleaseAtEdge s).lines.drvD = s.lines.drvD := rfl
@[simp] theorem dmaReleaseAtEdge_dma (s : State) : (dmaReleaseAtEdge s).dma = (dmaRelease s).dma := rfl
@[simp] theorem dmaReleaseAtEdge_en (s : State) : (dmaReleaseAtEdge s).en = (dmaRelease s).en := rfl
@[simp] theorem dmaReleaseAtEdge_fg (s : State) : (dmaReleaseAtEdge s).fg = (dmaRelease s).fg := rfl

/-! dmaIssue -/

@[simp] theorem dmaIssue_par (s : State) : (dmaIssue s).par = s.par := rfl
@[simp] theorem dmaIssue_disp (s : State) : (dmaIssue s).disp = s.disp := rfl
@[simp] theorem dmaIssue_en (s : State) : (dmaIssue s).en = s.en := rfl
@[simp] theorem dmaIssue_tabs (s : State) : (dmaIssue s).tabs = s.tabs := rfl
@[simp] theorem dmaIssue_int (s : State) : (dmaIssue s).int = s.int := rfl
@[simp] theorem dmaIssue_fg (s : State) : (dmaIssue s).fg = s.fg := rfl
@[simp] theorem dmaIssue_trace (s : State) : (dmaIssue s).trace = s.trace := rfl
@[simp] theorem dmaIssue_dev (s : State) : (dmaIssue s).dev = s.dev := rfl
@[simp] theorem dmaIssue_buf (s : State) : (dmaIssue s).buf = s.buf := rfl
@[simp] theorem dmaIssue_peers (s : State) : (dmaIssue s).peers = s.peers := rfl
@[simp] theorem dmaIssue_marks (s : State) : (dmaIssue s).marks = s.marks := rfl
@[simp] theorem dmaIssue_draws (s : State) : (dmaIssue s).draws = s.draws := rfl
@[simp] theorem dmaIssue_prog (s : State) : (dmaIssue s).prog = s.prog := rfl
@[simp] theorem dmaIssue_boot (s : State) : (dmaIssue s).boot = s.boot := rfl
@[simp] theorem dmaIssue_turns (s : State) : (dmaIssue s).turns = s.turns := rfl

/-! dmaBeginYield -/

@[simp] theorem dmaBeginYield_par (s : State) : (dmaBeginYield s).par = s.par := rfl
@[simp] theorem dmaBeginYield_disp (s : State) : (dmaBeginYield s).disp = s.disp := rfl
@[simp] theorem dmaBeginYield_en (s : State) : (dmaBeginYield s).en = s.en := rfl
@[simp] theorem dmaBeginYield_tabs (s : State) : (dmaBeginYield s).tabs = s.tabs := rfl
@[simp] theorem dmaBeginYield_int (s : State) : (dmaBeginYield s).int = s.int := rfl
@[simp] theorem dmaBeginYield_fg (s : State) : (dmaBeginYield s).fg = s.fg := rfl
@[simp] theorem dmaBeginYield_trace (s : State) : (dmaBeginYield s).trace = s.trace := rfl
@[simp] theorem dmaBeginYield_dev (s : State) : (dmaBeginYield s).dev = s.dev := rfl
@[simp] theorem dmaBeginYield_buf (s : State) : (dmaBeginYield s).buf = s.buf := rfl
@[simp] theorem dmaBeginYield_peers (s : State) : (dmaBeginYield s).peers = s.peers := rfl
@[simp] theorem dmaBeginYield_marks (s : State) : (dmaBeginYield s).marks = s.marks := rfl
@[simp] theorem dmaBeginYield_draws (s : State) : (dmaBeginYield s).draws = s.draws := rfl
@[simp] theorem dmaBeginYield_prog (s : State) : (dmaBeginYield s).prog = s.prog := rfl
@[simp] theorem dmaBeginYield_boot (s : State) : (dmaBeginYield s).boot = s.boot := rfl
@[simp] theorem dmaBeginYield_turns (s : State) : (dmaBeginYield s).turns = s.turns := rfl

/-! dmaDriveAddress -/

@[simp] theorem dmaDriveAddress_par (v : Byte) (s : State) : (dmaDriveAddress v s).par = s.par := rfl
@[simp] theorem dmaDriveAddress_disp (v : Byte) (s : State) : (dmaDriveAddress v s).disp = s.disp := rfl
@[simp] theorem dmaDriveAddress_en (v : Byte) (s : State) : (dmaDriveAddress v s).en = s.en := rfl
@[simp] theorem dmaDriveAddress_tabs (v : Byte) (s : State) : (dmaDriveAddress v s).tabs = s.tabs := rfl
@[simp] theorem dmaDriveAddress_int (v : Byte) (s : State) : (dmaDriveAddress v s).int = s.int := rfl
@[simp] theorem dmaDriveAddress_fg (v : Byte) (s : State) : (dmaDriveAddress v s).fg = s.fg := rfl
@[simp] theorem dmaDriveAddress_trace (v : Byte) (s : State) : (dmaDriveAddress v s).trace = s.trace := rfl
@[simp] theorem dmaDriveAddress_dev (v : Byte) (s : State) : (dmaDriveAddress v s).dev = s.dev := rfl
@[simp] theorem dmaDriveAddress_buf (v : Byte) (s : State) : (dmaDriveAddress v s).buf = s.buf := rfl
@[simp] theorem dmaDriveAddress_peers (v : Byte) (s : State) : (dmaDriveAddress v s).peers = s.peers := rfl
@[simp] theorem dmaDriveAddress_marks (v : Byte) (s : State) : (dmaDriveAddress v s).marks = s.marks := rfl
@[simp] theorem dmaDriveAddress_draws (v : Byte) (s : State) : (dmaDriveAddress v s).draws = s.draws := rfl
@[simp] theorem dmaDriveAddress_prog (v : Byte) (s : State) : (dmaDriveAddress v s).prog = s.prog := rfl
@[simp] theorem dmaDriveAddress_boot (v : Byte) (s : State) : (dmaDriveAddress v s).boot = s.boot := rfl
@[simp] theorem dmaDriveAddress_turns (v : Byte) (s : State) : (dmaDriveAddress v s).turns = s.turns := rfl

/-! dmaAccept -/

@[simp] theorem dmaAccept_par (d : DmaDir) (a : Bits16) (t : DmaTarget) (n : Nat) (c : Cmd) (s : State) : (dmaAccept d a t n c s).par = s.par := rfl
@[simp] theorem dmaAccept_lines (d : DmaDir) (a : Bits16) (t : DmaTarget) (n : Nat) (c : Cmd) (s : State) : (dmaAccept d a t n c s).lines = s.lines := rfl
@[simp] theorem dmaAccept_disp (d : DmaDir) (a : Bits16) (t : DmaTarget) (n : Nat) (c : Cmd) (s : State) : (dmaAccept d a t n c s).disp = s.disp := rfl
@[simp] theorem dmaAccept_en (d : DmaDir) (a : Bits16) (t : DmaTarget) (n : Nat) (c : Cmd) (s : State) : (dmaAccept d a t n c s).en = s.en := rfl
@[simp] theorem dmaAccept_tabs (d : DmaDir) (a : Bits16) (t : DmaTarget) (n : Nat) (c : Cmd) (s : State) : (dmaAccept d a t n c s).tabs = s.tabs := rfl
@[simp] theorem dmaAccept_int (d : DmaDir) (a : Bits16) (t : DmaTarget) (n : Nat) (c : Cmd) (s : State) : (dmaAccept d a t n c s).int = s.int := rfl
@[simp] theorem dmaAccept_trace (d : DmaDir) (a : Bits16) (t : DmaTarget) (n : Nat) (c : Cmd) (s : State) : (dmaAccept d a t n c s).trace = s.trace := rfl
@[simp] theorem dmaAccept_dev (d : DmaDir) (a : Bits16) (t : DmaTarget) (n : Nat) (c : Cmd) (s : State) : (dmaAccept d a t n c s).dev = s.dev := rfl
@[simp] theorem dmaAccept_buf (d : DmaDir) (a : Bits16) (t : DmaTarget) (n : Nat) (c : Cmd) (s : State) : (dmaAccept d a t n c s).buf = s.buf := rfl
@[simp] theorem dmaAccept_peers (d : DmaDir) (a : Bits16) (t : DmaTarget) (n : Nat) (c : Cmd) (s : State) : (dmaAccept d a t n c s).peers = s.peers := rfl
@[simp] theorem dmaAccept_marks (d : DmaDir) (a : Bits16) (t : DmaTarget) (n : Nat) (c : Cmd) (s : State) : (dmaAccept d a t n c s).marks = s.marks := rfl
@[simp] theorem dmaAccept_draws (d : DmaDir) (a : Bits16) (t : DmaTarget) (n : Nat) (c : Cmd) (s : State) : (dmaAccept d a t n c s).draws = s.draws := rfl
@[simp] theorem dmaAccept_prog (d : DmaDir) (a : Bits16) (t : DmaTarget) (n : Nat) (c : Cmd) (s : State) : (dmaAccept d a t n c s).prog = s.prog := rfl
@[simp] theorem dmaAccept_boot (d : DmaDir) (a : Bits16) (t : DmaTarget) (n : Nat) (c : Cmd) (s : State) : (dmaAccept d a t n c s).boot = s.boot := rfl
@[simp] theorem dmaAccept_turns (d : DmaDir) (a : Bits16) (t : DmaTarget) (n : Nat) (c : Cmd) (s : State) : (dmaAccept d a t n c s).turns = s.turns := rfl

/-! scheduleNext -/

@[simp] theorem scheduleNext_par (s : State) : (scheduleNext s).par = s.par := rfl
@[simp] theorem scheduleNext_lines (s : State) : (scheduleNext s).lines = s.lines := rfl
@[simp] theorem scheduleNext_en (s : State) : (scheduleNext s).en = s.en := rfl
@[simp] theorem scheduleNext_tabs (s : State) : (scheduleNext s).tabs = s.tabs := rfl
@[simp] theorem scheduleNext_int (s : State) : (scheduleNext s).int = s.int := rfl
@[simp] theorem scheduleNext_dma (s : State) : (scheduleNext s).dma = s.dma := rfl
@[simp] theorem scheduleNext_fg (s : State) : (scheduleNext s).fg = s.fg := rfl
@[simp] theorem scheduleNext_trace (s : State) : (scheduleNext s).trace = s.trace := rfl
@[simp] theorem scheduleNext_dev (s : State) : (scheduleNext s).dev = s.dev := rfl
@[simp] theorem scheduleNext_buf (s : State) : (scheduleNext s).buf = s.buf := rfl
@[simp] theorem scheduleNext_peers (s : State) : (scheduleNext s).peers = s.peers := rfl
@[simp] theorem scheduleNext_marks (s : State) : (scheduleNext s).marks = s.marks := rfl
@[simp] theorem scheduleNext_draws (s : State) : (scheduleNext s).draws = s.draws := rfl
@[simp] theorem scheduleNext_prog (s : State) : (scheduleNext s).prog = s.prog := rfl
@[simp] theorem scheduleNext_boot (s : State) : (scheduleNext s).boot = s.boot := rfl
@[simp] theorem scheduleNext_turns (s : State) : (scheduleNext s).turns = s.turns := rfl

/-! externalReset -/

@[simp] theorem externalReset_par (s : State) : (externalReset s).par = s.par := rfl
@[simp] theorem externalReset_dev (s : State) : (externalReset s).dev = s.dev := rfl
@[simp] theorem externalReset_buf (s : State) : (externalReset s).buf = s.buf := rfl
@[simp] theorem externalReset_peers (s : State) : (externalReset s).peers = s.peers := rfl
@[simp] theorem externalReset_prog (s : State) : (externalReset s).prog = s.boot := rfl
@[simp] theorem externalReset_boot (s : State) : (externalReset s).boot = s.boot := rfl
@[simp] theorem externalReset_turns (s : State) : (externalReset s).turns = s.turns := rfl

/-! What the named updates write. -/

@[simp] theorem setResult_result (v : Value) (s : State) : (setResult v s).fg.result = some v := rfl
@[simp] theorem setResult_wait (v : Value) (s : State) : (setResult v s).fg.wait = s.fg.wait := rfl
@[simp] theorem raiseContention_fault (s : State) : (raiseContention s).marks.fault = some .busContention := rfl
@[simp] theorem raiseContention_refused (s : State) : (raiseContention s).marks.refused = s.marks.refused := rfl
@[simp] theorem refuse_fault (r : RefuseReason) (s : State) : (refuse r s).marks.fault = s.marks.fault := rfl
@[simp] theorem drawByte_value (s : State) : (drawByte s).1 = Config.drawByte s.draws := rfl
@[simp] theorem drawBits16_value (s : State) : (drawBits16 s).1 = Config.drawBits16 s.draws := rfl

theorem refuse_refused (r : RefuseReason) (s : State) (h : s.marks.refused = none) :
    (refuse r s).marks.refused = some r := by simp [refuse, h]

theorem refuse_keeps_record (r q : RefuseReason) (s : State) (h : s.marks.refused = some q) :
    (refuse r s).marks.refused = some q := by simp [refuse, h]

/-! markEvent -/

@[simp] theorem markEvent_par (k : EventKind) (s : State) : (markEvent k s).par = s.par := rfl
@[simp] theorem markEvent_lines (k : EventKind) (s : State) : (markEvent k s).lines = s.lines := rfl
@[simp] theorem markEvent_disp (k : EventKind) (s : State) : (markEvent k s).disp = s.disp := rfl
@[simp] theorem markEvent_tabs (k : EventKind) (s : State) : (markEvent k s).tabs = s.tabs := rfl
@[simp] theorem markEvent_int (k : EventKind) (s : State) : (markEvent k s).int = s.int := rfl
@[simp] theorem markEvent_dma (k : EventKind) (s : State) : (markEvent k s).dma = s.dma := rfl
@[simp] theorem markEvent_fg (k : EventKind) (s : State) : (markEvent k s).fg = s.fg := rfl
@[simp] theorem markEvent_trace (k : EventKind) (s : State) : (markEvent k s).trace = s.trace := rfl
@[simp] theorem markEvent_dev (k : EventKind) (s : State) : (markEvent k s).dev = s.dev := rfl
@[simp] theorem markEvent_buf (k : EventKind) (s : State) : (markEvent k s).buf = s.buf := rfl
@[simp] theorem markEvent_peers (k : EventKind) (s : State) : (markEvent k s).peers = s.peers := rfl
@[simp] theorem markEvent_marks (k : EventKind) (s : State) : (markEvent k s).marks = s.marks := rfl
@[simp] theorem markEvent_draws (k : EventKind) (s : State) : (markEvent k s).draws = s.draws := rfl
@[simp] theorem markEvent_prog (k : EventKind) (s : State) : (markEvent k s).prog = s.prog := rfl
@[simp] theorem markEvent_boot (k : EventKind) (s : State) : (markEvent k s).boot = s.boot := rfl
@[simp] theorem markEvent_turns (k : EventKind) (s : State) : (markEvent k s).turns = s.turns := rfl
@[simp] theorem markEvent_en (k : EventKind) (s : State) :
    (markEvent k s).en = { s.en with lastEvent := some k } := rfl

end Sys2Proof.Machine
end

