-- ==== Sys2Proof/Laws/Handlers.lean ====
section
/-! SUPPORT. What a capture, a handler's commands and the accessor searches can do. -/

namespace Sys2Proof.Machine
open Sys2Proof

/-! A capture of the bus changes nothing but the draw count and the fault record. -/

theorem busValue_state (e : Option Byte) (s : State) :
    ∃ n x, (busValue e s).2 = { s with draws := n, marks := { s.marks with fault := x } } := by
  unfold busValue
  split
  · exact ⟨_, s.marks.fault, rfl⟩
  · exact ⟨s.draws, s.marks.fault, rfl⟩
  · exact ⟨s.draws, s.marks.fault, rfl⟩
  · exact ⟨_, _, rfl⟩

theorem busValue_keeps {β : Type} (f : State → β) (e : Option Byte) (s : State)
    (h : ∀ n x, f { s with draws := n, marks := { s.marks with fault := x } } = f s) :
    f (busValue e s).2 = f s := by
  obtain ⟨n, x, hs⟩ := busValue_state e s
  rw [hs, h]

@[simp] theorem busValue_par (e : Option Byte) (s : State) : (busValue e s).2.par = s.par :=
  busValue_keeps (·.par) e s fun _ _ => rfl
@[simp] theorem busValue_lines (e : Option Byte) (s : State) : (busValue e s).2.lines = s.lines :=
  busValue_keeps (·.lines) e s fun _ _ => rfl
@[simp] theorem busValue_disp (e : Option Byte) (s : State) : (busValue e s).2.disp = s.disp :=
  busValue_keeps (·.disp) e s fun _ _ => rfl
@[simp] theorem busValue_en (e : Option Byte) (s : State) : (busValue e s).2.en = s.en :=
  busValue_keeps (·.en) e s fun _ _ => rfl
@[simp] theorem busValue_tabs (e : Option Byte) (s : State) : (busValue e s).2.tabs = s.tabs :=
  busValue_keeps (·.tabs) e s fun _ _ => rfl
@[simp] theorem busValue_int (e : Option Byte) (s : State) : (busValue e s).2.int = s.int :=
  busValue_keeps (·.int) e s fun _ _ => rfl
@[simp] theorem busValue_dma (e : Option Byte) (s : State) : (busValue e s).2.dma = s.dma :=
  busValue_keeps (·.dma) e s fun _ _ => rfl
@[simp] theorem busValue_fg (e : Option Byte) (s : State) : (busValue e s).2.fg = s.fg :=
  busValue_keeps (·.fg) e s fun _ _ => rfl
@[simp] theorem busValue_trace (e : Option Byte) (s : State) : (busValue e s).2.trace = s.trace :=
  busValue_keeps (·.trace) e s fun _ _ => rfl
@[simp] theorem busValue_dev (e : Option Byte) (s : State) : (busValue e s).2.dev = s.dev :=
  busValue_keeps (·.dev) e s fun _ _ => rfl
@[simp] theorem busValue_buf (e : Option Byte) (s : State) : (busValue e s).2.buf = s.buf :=
  busValue_keeps (·.buf) e s fun _ _ => rfl
@[simp] theorem busValue_peers (e : Option Byte) (s : State) : (busValue e s).2.peers = s.peers :=
  busValue_keeps (·.peers) e s fun _ _ => rfl
@[simp] theorem busValue_prog (e : Option Byte) (s : State) : (busValue e s).2.prog = s.prog :=
  busValue_keeps (·.prog) e s fun _ _ => rfl
@[simp] theorem busValue_boot (e : Option Byte) (s : State) : (busValue e s).2.boot = s.boot :=
  busValue_keeps (·.boot) e s fun _ _ => rfl
@[simp] theorem busValue_turns (e : Option Byte) (s : State) : (busValue e s).2.turns = s.turns :=
  busValue_keeps (·.turns) e s fun _ _ => rfl
@[simp] theorem busValue_refused (e : Option Byte) (s : State) :
    (busValue e s).2.marks.refused = s.marks.refused :=
  busValue_keeps (·.marks.refused) e s fun _ _ => rfl

/-- Only the others drive: the capture sees their byte. -/
theorem busValue_others {s : State} (v : Byte) (h : s.lines.drvD = none) : busValue (some v) s = (v, s) := by
  unfold busValue; rw [h]

/-- Only this device drives: the capture sees its byte. -/
theorem busValue_own {s : State} {u : Byte} (h : s.lines.drvD = some u) : busValue none s = (u, s) := by
  unfold busValue; rw [h]

/-! A handler's commands. -/

/-- What a registration step leaves unchanged. -/
theorem registerStep_keeps {β : Type} (f : State → β) (g : Tables → Tables) (s : State)
    (hr : f (refuse .lateRegistration s) = f s)
    (ht : ∀ t, f (setResult .done { s with tabs := t }) = f s) : f (registerStep g s) = f s := by
  unfold registerStep
  split
  · exact hr
  · exact ht _

/-- What one command leaves unchanged: it suffices that each kind of update does. -/
theorem applyCmd_keeps {β : Type} (f : State → β) (s : State) (c : Cmd)
    (hrefuse : ∀ r s, f (refuse r s) = f s)
    (hres : ∀ v s, f (setResult v s) = f s)
    (htabs : ∀ t (s : State), f { s with tabs := t } = f s)
    (hen : ∀ s : State, f { s with en := { s.en with armed := true, sysint := true, armedOnce := true } } = f s)
    (hint : ∀ i (s : State), i.arb = s.int.arb → f { s with int := i } = f s)
    (htr : ∀ b (s : State), f { s with trace := { s.trace with active := b } } = f s) :
    f (applyCmd s c) = f s := by
  have hreg : ∀ g, f (registerStep g s) = f s := fun g =>
    registerStep_keeps f g s (hrefuse _ _) fun t => by rw [hres, htabs]
  obtain ⟨i, hi⟩ := c
  cases i <;> try (simp [Instr.isCommand] at hi; done)
  all_goals simp only [applyCmd]
  all_goals first
    | exact hrefuse _ _
    | exact hreg _
    | (simp only [claimSet]; split <;> first | exact hrefuse _ _ | exact hreg _)
    | exact (hres _ _).trans (hen _)
    | exact (hres _ _).trans (htr _ _)
    | exact (hres _ _).trans (hint _ _ rfl)

theorem applyCmds_keeps {β : Type} (f : State → β) (h : ∀ s c, f (applyCmd s c) = f s) (cs : List Cmd) (s : State) :
    f (applyCmds cs s) = f s := by
  unfold applyCmds
  induction cs generalizing s with
  | nil => rfl
  | cons c r ih => rw [List.foldl_cons, ih, h]

@[simp] theorem applyCmds_par (cs : List Cmd) (s : State) : (applyCmds cs s).par = s.par :=
  applyCmds_keeps (·.par) (fun s c => applyCmd_keeps (·.par) s c (fun _ _ => rfl) (fun _ _ => rfl) (fun _ _ => rfl) (fun _ => rfl) (fun _ _ _ => rfl) (fun _ _ => rfl)) cs s
@[simp] theorem applyCmds_lines (cs : List Cmd) (s : State) : (applyCmds cs s).lines = s.lines :=
  applyCmds_keeps (·.lines) (fun s c => applyCmd_keeps (·.lines) s c (fun _ _ => rfl) (fun _ _ => rfl) (fun _ _ => rfl) (fun _ => rfl) (fun _ _ _ => rfl) (fun _ _ => rfl)) cs s
@[simp] theorem applyCmds_disp (cs : List Cmd) (s : State) : (applyCmds cs s).disp = s.disp :=
  applyCmds_keeps (·.disp) (fun s c => applyCmd_keeps (·.disp) s c (fun _ _ => rfl) (fun _ _ => rfl) (fun _ _ => rfl) (fun _ => rfl) (fun _ _ _ => rfl) (fun _ _ => rfl)) cs s
@[simp] theorem applyCmds_dma (cs : List Cmd) (s : State) : (applyCmds cs s).dma = s.dma :=
  applyCmds_keeps (·.dma) (fun s c => applyCmd_keeps (·.dma) s c (fun _ _ => rfl) (fun _ _ => rfl) (fun _ _ => rfl) (fun _ => rfl) (fun _ _ _ => rfl) (fun _ _ => rfl)) cs s
@[simp] theorem applyCmds_dev (cs : List Cmd) (s : State) : (applyCmds cs s).dev = s.dev :=
  applyCmds_keeps (·.dev) (fun s c => applyCmd_keeps (·.dev) s c (fun _ _ => rfl) (fun _ _ => rfl) (fun _ _ => rfl) (fun _ => rfl) (fun _ _ _ => rfl) (fun _ _ => rfl)) cs s
@[simp] theorem applyCmds_buf (cs : List Cmd) (s : State) : (applyCmds cs s).buf = s.buf :=
  applyCmds_keeps (·.buf) (fun s c => applyCmd_keeps (·.buf) s c (fun _ _ => rfl) (fun _ _ => rfl) (fun _ _ => rfl) (fun _ => rfl) (fun _ _ _ => rfl) (fun _ _ => rfl)) cs s
@[simp] theorem applyCmds_peers (cs : List Cmd) (s : State) : (applyCmds cs s).peers = s.peers :=
  applyCmds_keeps (·.peers) (fun s c => applyCmd_keeps (·.peers) s c (fun _ _ => rfl) (fun _ _ => rfl) (fun _ _ => rfl) (fun _ => rfl) (fun _ _ _ => rfl) (fun _ _ => rfl)) cs s
@[simp] theorem applyCmds_prog (cs : List Cmd) (s : State) : (applyCmds cs s).prog = s.prog :=
  applyCmds_keeps (·.prog) (fun s c => applyCmd_keeps (·.prog) s c (fun _ _ => rfl) (fun _ _ => rfl) (fun _ _ => rfl) (fun _ => rfl) (fun _ _ _ => rfl) (fun _ _ => rfl)) cs s
@[simp] theorem applyCmds_boot (cs : List Cmd) (s : State) : (applyCmds cs s).boot = s.boot :=
  applyCmds_keeps (·.boot) (fun s c => applyCmd_keeps (·.boot) s c (fun _ _ => rfl) (fun _ _ => rfl) (fun _ _ => rfl) (fun _ => rfl) (fun _ _ _ => rfl) (fun _ _ => rfl)) cs s
@[simp] theorem applyCmds_turns (cs : List Cmd) (s : State) : (applyCmds cs s).turns = s.turns :=
  applyCmds_keeps (·.turns) (fun s c => applyCmd_keeps (·.turns) s c (fun _ _ => rfl) (fun _ _ => rfl) (fun _ _ => rfl) (fun _ => rfl) (fun _ _ _ => rfl) (fun _ _ => rfl)) cs s
@[simp] theorem applyCmds_draws (cs : List Cmd) (s : State) : (applyCmds cs s).draws = s.draws :=
  applyCmds_keeps (·.draws) (fun s c => applyCmd_keeps (·.draws) s c (fun _ _ => rfl) (fun _ _ => rfl) (fun _ _ => rfl) (fun _ => rfl) (fun _ _ _ => rfl) (fun _ _ => rfl)) cs s
@[simp] theorem applyCmds_fault (cs : List Cmd) (s : State) : (applyCmds cs s).marks.fault = s.marks.fault :=
  applyCmds_keeps (·.marks.fault) (fun s c => applyCmd_keeps (·.marks.fault) s c (fun _ _ => rfl) (fun _ _ => rfl) (fun _ _ => rfl) (fun _ => rfl) (fun _ _ _ => rfl) (fun _ _ => rfl)) cs s
@[simp] theorem applyCmds_wait (cs : List Cmd) (s : State) : (applyCmds cs s).fg.wait = s.fg.wait :=
  applyCmds_keeps (·.fg.wait) (fun s c => applyCmd_keeps (·.fg.wait) s c (fun _ _ => rfl) (fun _ _ => rfl) (fun _ _ => rfl) (fun _ => rfl) (fun _ _ _ => rfl) (fun _ _ => rfl)) cs s
@[simp] theorem applyCmds_arb (cs : List Cmd) (s : State) : (applyCmds cs s).int.arb = s.int.arb :=
  applyCmds_keeps (·.int.arb) (fun s c => applyCmd_keeps (·.int.arb) s c (fun _ _ => rfl) (fun _ _ => rfl) (fun _ _ => rfl) (fun _ => rfl) (fun _ _ h => h) (fun _ _ => rfl)) cs s
@[simp] theorem applyCmds_trace_idx (cs : List Cmd) (s : State) : (applyCmds cs s).trace.idx = s.trace.idx :=
  applyCmds_keeps (·.trace.idx) (fun s c => applyCmd_keeps (·.trace.idx) s c (fun _ _ => rfl) (fun _ _ => rfl) (fun _ _ => rfl) (fun _ => rfl) (fun _ _ _ => rfl) (fun _ _ => rfl)) cs s
@[simp] theorem applyCmds_trace_buf (cs : List Cmd) (s : State) : (applyCmds cs s).trace.buf = s.trace.buf :=
  applyCmds_keeps (·.trace.buf) (fun s c => applyCmd_keeps (·.trace.buf) s c (fun _ _ => rfl) (fun _ _ => rfl) (fun _ _ => rfl) (fun _ => rfl) (fun _ _ _ => rfl) (fun _ _ => rfl)) cs s
@[simp] theorem applyCmds_trace_seed (cs : List Cmd) (s : State) : (applyCmds cs s).trace.seed = s.trace.seed :=
  applyCmds_keeps (·.trace.seed) (fun s c => applyCmd_keeps (·.trace.seed) s c (fun _ _ => rfl) (fun _ _ => rfl) (fun _ _ => rfl) (fun _ => rfl) (fun _ _ _ => rfl) (fun _ _ => rfl)) cs s
@[simp] theorem applyCmds_lastEvent (cs : List Cmd) (s : State) : (applyCmds cs s).en.lastEvent = s.en.lastEvent :=
  applyCmds_keeps (·.en.lastEvent) (fun s c => applyCmd_keeps (·.en.lastEvent) s c (fun _ _ => rfl) (fun _ _ => rfl) (fun _ _ => rfl) (fun _ => rfl) (fun _ _ _ => rfl) (fun _ _ => rfl)) cs s

/-- Two states that a handler's commands cannot tell apart: they agree on all that a command reads or writes. -/
structure CommandsSee (x y : State) : Prop where
  par : x.par = y.par
  tabs : x.tabs = y.tabs
  en : x.en = y.en
  int : x.int = y.int
  fg : x.fg = y.fg
  trace : x.trace = y.trace
  refused : x.marks.refused = y.marks.refused

theorem applyCmd_see {x y : State} (h : CommandsSee x y) (c : Cmd) : CommandsSee (applyCmd x c) (applyCmd y c) := by
  obtain ⟨h1, h2, h3, h4, h5, h6, h7⟩ := h
  have hr : ∀ r, CommandsSee (refuse r x) (refuse r y) := fun r =>
    ⟨h1, h2, h3, h4, h5, h6, by show some (x.marks.refused.getD r) = some (y.marks.refused.getD r); rw [h7]⟩
  have hreg : ∀ g, CommandsSee (registerStep g x) (registerStep g y) := fun g => by
    unfold registerStep
    rw [h3]
    split
    · exact hr _
    · constructor <;> simp [setResult, *]
  obtain ⟨i, hi⟩ := c
  cases i <;> try (simp [Instr.isCommand] at hi; done)
  all_goals simp only [applyCmd]
  all_goals first
    | exact hr _
    | exact hreg _
    | (simp only [claimSet, h1]; split <;> first | exact hr _ | exact hreg _)
    | (constructor <;> simp [armDispatcher, traceStart, traceStop, intSetVector, intEnable, intRequest, intWant,
        setResult, *])

/-- What a list of commands does to what it writes depends on that alone. -/
theorem applyCmds_see {x y : State} (cs : List Cmd) (h : CommandsSee x y) :
    CommandsSee (applyCmds cs x) (applyCmds cs y) := by
  unfold applyCmds
  induction cs generalizing x y with
  | nil => exact h
  | cons c r ih => exact ih (applyCmd_see h c)

/-- A predicate every command keeps is kept by a list of commands. -/
theorem applyCmds_induct {P : State → Prop} (h : ∀ s c, P s → P (applyCmd s c)) (cs : List Cmd) (s : State) (hs : P s) :
    P (applyCmds cs s) := by
  unfold applyCmds
  induction cs generalizing s with
  | nil => exact hs
  | cons c r ih => exact ih _ (h _ _ hs)

theorem enables_all_set (e : Enables) (h1 : e.armed = true) (h2 : e.sysint = true) (h3 : e.armedOnce = true) :
    Enables.mk true true true e.lastEvent = e := by
  cases e; simp_all

/-- With everything armed, a command changes no enable and no table (R94, R133). -/
theorem applyCmd_armed (s : State) (c : Cmd) (ho : s.en.armedOnce = true) :
    (applyCmd s c).tabs = s.tabs ∧ (applyCmd s c).en.armedOnce = true ∧
      (dispatcherEnabled s = true → (applyCmd s c).en = s.en) := by
  have hreg : ∀ g, registerStep g s = refuse .lateRegistration s := fun g => by simp [registerStep, ho]
  have harm : dispatcherEnabled s = true → (armDispatcher s).en = s.en := by
    intro h
    obtain ⟨h1, h2⟩ : s.en.armed = true ∧ s.en.sysint = true := by simpa [dispatcherEnabled] using h
    exact enables_all_set s.en h1 h2 ho
  obtain ⟨i, hi⟩ := c
  cases i <;> try (simp [Instr.isCommand] at hi; done)
  all_goals simp only [applyCmd, regRead, regWrite, unregister, claimSet, hreg]
  all_goals first
    | exact ⟨rfl, rfl, harm⟩
    | exact ⟨rfl, ho, fun _ => rfl⟩
    | (split <;> exact ⟨rfl, ho, fun _ => rfl⟩)

theorem applyCmds_tabs (cs : List Cmd) (s : State) (ho : s.en.armedOnce = true) : (applyCmds cs s).tabs = s.tabs :=
  (applyCmds_induct (P := fun t => t.en.armedOnce = true ∧ t.tabs = s.tabs)
    (fun t c ht => ⟨(applyCmd_armed t c ht.1).2.1, (applyCmd_armed t c ht.1).1.trans ht.2⟩) cs s ⟨ho, rfl⟩).2

/-- Nothing but an external reset clears `armed_once`. -/
theorem applyCmd_armedOnce (s : State) (c : Cmd) (ho : s.en.armedOnce = true) : (applyCmd s c).en.armedOnce = true :=
  (applyCmd_armed s c ho).2.1

theorem applyCmds_armedOnce (cs : List Cmd) (s : State) (ho : s.en.armedOnce = true) :
    (applyCmds cs s).en.armedOnce = true :=
  applyCmds_induct (fun t c ht => applyCmd_armedOnce t c ht) cs s ho

/-- A command never disarms the dispatcher. -/
theorem applyCmd_enabled (s : State) (c : Cmd) (h : s.en.armed = true ∧ s.en.sysint = true) :
    (applyCmd s c).en.armed = true ∧ (applyCmd s c).en.sysint = true := by
  obtain ⟨i, hi⟩ := c
  cases i <;> try (simp [Instr.isCommand] at hi; done)
  all_goals simp only [applyCmd, regRead, regWrite, unregister, claimSet, registerStep]
  all_goals first
    | exact h
    | exact ⟨rfl, rfl⟩
    | (split <;> first | exact h | (split <;> exact h))

theorem applyCmds_enabled (cs : List Cmd) (s : State) (h : s.en.armed = true ∧ s.en.sysint = true) :
    (applyCmds cs s).en.armed = true ∧ (applyCmds cs s).en.sysint = true :=
  applyCmds_induct (P := fun t => t.en.armed = true ∧ t.en.sysint = true) (fun t c ht => applyCmd_enabled t c ht) cs s h

/-! The accessor searches. -/

/-- A claim search answers a listed slot whose predicate covers the address. -/
theorem firstClaim_some {s : State} {a : Bits16} {m : Sparse Nat} {i c : Nat} (h : firstClaim s a m = some (i, c)) :
    (i, c) ∈ m ∧ claimP s c a = true := by
  induction m with
  | nil => simp [firstClaim] at h
  | cons d r ih =>
    obtain ⟨j, w⟩ := d
    by_cases hp : claimP s w a = true
    · simp only [firstClaim, hp, if_true, Option.some.injEq, Prod.mk.injEq] at h
      obtain ⟨rfl, rfl⟩ := h
      exact ⟨List.mem_cons_self, hp⟩
    · simp only [firstClaim, hp, if_false, Bool.false_eq_true] at h
      exact ⟨List.mem_cons_of_mem _ (ih h).1, (ih h).2⟩

/-- No claim is found exactly where none covers the address. -/
theorem firstClaim_none {s : State} {a : Bits16} {m : Sparse Nat} :
    firstClaim s a m = none ↔ ∀ d ∈ m, claimP s d.2 a = false := by
  induction m with
  | nil => simp [firstClaim]
  | cons d r ih =>
    obtain ⟨j, w⟩ := d
    by_cases hp : claimP s w a = true <;> simp [firstClaim, hp, ih]

/-- What a read handler's call leaves unchanged. -/
theorem callReadHandler_keeps {β : Type} (f : State → β) (h : Nat) (s : State)
    (hd : ∀ d, f { s with dev := d } = f s) (ha : ∀ cs t, f (applyCmds cs t) = f t) :
    f (callReadHandler h s).2 = f s := by
  unfold callReadHandler
  rw [ha, hd]

/-- What the read search leaves unchanged. -/
theorem resolveRead_keeps {β : Type} (f : State → β) (a : Bits16) (s : State)
    (hd : ∀ d, f { s with dev := d } = f s) (ha : ∀ cs t, f (applyCmds cs t) = f t) :
    f (resolveRead a s).2 = f s := by
  unfold resolveRead
  split
  · rfl
  · split
    · split
      · exact callReadHandler_keeps f _ s hd ha
      · rfl
    · rfl

@[simp] theorem resolveRead_par (a : Bits16) (s : State) : (resolveRead a s).2.par = s.par :=
  resolveRead_keeps (·.par) a s (fun _ => rfl) applyCmds_par
@[simp] theorem resolveRead_lines (a : Bits16) (s : State) : (resolveRead a s).2.lines = s.lines :=
  resolveRead_keeps (·.lines) a s (fun _ => rfl) applyCmds_lines
@[simp] theorem resolveRead_disp (a : Bits16) (s : State) : (resolveRead a s).2.disp = s.disp :=
  resolveRead_keeps (·.disp) a s (fun _ => rfl) applyCmds_disp
@[simp] theorem resolveRead_dma (a : Bits16) (s : State) : (resolveRead a s).2.dma = s.dma :=
  resolveRead_keeps (·.dma) a s (fun _ => rfl) applyCmds_dma
@[simp] theorem resolveRead_buf (a : Bits16) (s : State) : (resolveRead a s).2.buf = s.buf :=
  resolveRead_keeps (·.buf) a s (fun _ => rfl) applyCmds_buf
@[simp] theorem resolveRead_peers (a : Bits16) (s : State) : (resolveRead a s).2.peers = s.peers :=
  resolveRead_keeps (·.peers) a s (fun _ => rfl) applyCmds_peers
@[simp] theorem resolveRead_prog (a : Bits16) (s : State) : (resolveRead a s).2.prog = s.prog :=
  resolveRead_keeps (·.prog) a s (fun _ => rfl) applyCmds_prog
@[simp] theorem resolveRead_boot (a : Bits16) (s : State) : (resolveRead a s).2.boot = s.boot :=
  resolveRead_keeps (·.boot) a s (fun _ => rfl) applyCmds_boot
@[simp] theorem resolveRead_turns (a : Bits16) (s : State) : (resolveRead a s).2.turns = s.turns :=
  resolveRead_keeps (·.turns) a s (fun _ => rfl) applyCmds_turns
@[simp] theorem resolveRead_wait (a : Bits16) (s : State) : (resolveRead a s).2.fg.wait = s.fg.wait :=
  resolveRead_keeps (·.fg.wait) a s (fun _ => rfl) applyCmds_wait
@[simp] theorem resolveRead_arb (a : Bits16) (s : State) : (resolveRead a s).2.int.arb = s.int.arb :=
  resolveRead_keeps (·.int.arb) a s (fun _ => rfl) applyCmds_arb
@[simp] theorem resolveRead_fault (a : Bits16) (s : State) : (resolveRead a s).2.marks.fault = s.marks.fault :=
  resolveRead_keeps (·.marks.fault) a s (fun _ => rfl) applyCmds_fault
@[simp] theorem resolveRead_lastEvent (a : Bits16) (s : State) : (resolveRead a s).2.en.lastEvent = s.en.lastEvent :=
  resolveRead_keeps (·.en.lastEvent) a s (fun _ => rfl) applyCmds_lastEvent
@[simp] theorem resolveRead_trace_idx (a : Bits16) (s : State) : (resolveRead a s).2.trace.idx = s.trace.idx :=
  resolveRead_keeps (·.trace.idx) a s (fun _ => rfl) applyCmds_trace_idx
@[simp] theorem resolveRead_trace_buf (a : Bits16) (s : State) : (resolveRead a s).2.trace.buf = s.trace.buf :=
  resolveRead_keeps (·.trace.buf) a s (fun _ => rfl) applyCmds_trace_buf
@[simp] theorem resolveRead_draws (a : Bits16) (s : State) : (resolveRead a s).2.draws = s.draws :=
  resolveRead_keeps (·.draws) a s (fun _ => rfl) applyCmds_draws

/-- A predicate that a change of `dev` and every command keep is kept by the read search. -/
theorem resolveRead_induct {P : State → Prop} (a : Bits16) (s : State) (hs : P s)
    (hd : ∀ t d, P t → P { t with dev := d }) (hc : ∀ t c, P t → P (applyCmd t c)) : P (resolveRead a s).2 := by
  unfold resolveRead
  split
  · exact hs
  · split
    · split
      · exact applyCmds_induct hc _ _ (hd _ _ hs)
      · exact hs
    · exact hs

/-- The same for the scheduled write. -/
theorem performWrite_induct {P : State → Prop} (d : Byte) (s : State) (hs : P s)
    (hd : ∀ t d, P t → P { t with dev := d }) (hc : ∀ t c, P t → P (applyCmd t c)) : P (performWrite d s) := by
  unfold performWrite
  split
  · exact hs
  · split
    · exact hd _ _ hs
    · exact hs
  · split
    · exact applyCmds_induct hc _ _ (hd _ _ hs)
    · exact hs

/-- What the scheduled write leaves unchanged. -/
theorem performWrite_keeps {β : Type} (f : State → β) (d : Byte) (s : State)
    (hd : ∀ d, f { s with dev := d } = f s) (ha : ∀ cs t, f (applyCmds cs t) = f t) :
    f (performWrite d s) = f s := by
  unfold performWrite
  split
  · rfl
  · split
    · exact hd _
    · rfl
  · split
    · unfold callWriteHandler
      rw [ha, hd]
    · rfl

@[simp] theorem performWrite_par (d : Byte) (s : State) : (performWrite d s).par = s.par :=
  performWrite_keeps (·.par) d s (fun _ => rfl) applyCmds_par
@[simp] theorem performWrite_lines (d : Byte) (s : State) : (performWrite d s).lines = s.lines :=
  performWrite_keeps (·.lines) d s (fun _ => rfl) applyCmds_lines
@[simp] theorem performWrite_disp (d : Byte) (s : State) : (performWrite d s).disp = s.disp :=
  performWrite_keeps (·.disp) d s (fun _ => rfl) applyCmds_disp
@[simp] theorem performWrite_dma (d : Byte) (s : State) : (performWrite d s).dma = s.dma :=
  performWrite_keeps (·.dma) d s (fun _ => rfl) applyCmds_dma
@[simp] theorem performWrite_buf (d : Byte) (s : State) : (performWrite d s).buf = s.buf :=
  performWrite_keeps (·.buf) d s (fun _ => rfl) applyCmds_buf
@[simp] theorem performWrite_peers (d : Byte) (s : State) : (performWrite d s).peers = s.peers :=
  performWrite_keeps (·.peers) d s (fun _ => rfl) applyCmds_peers
@[simp] theorem performWrite_prog (d : Byte) (s : State) : (performWrite d s).prog = s.prog :=
  performWrite_keeps (·.prog) d s (fun _ => rfl) applyCmds_prog
@[simp] theorem performWrite_boot (d : Byte) (s : State) : (performWrite d s).boot = s.boot :=
  performWrite_keeps (·.boot) d s (fun _ => rfl) applyCmds_boot
@[simp] theorem performWrite_turns (d : Byte) (s : State) : (performWrite d s).turns = s.turns :=
  performWrite_keeps (·.turns) d s (fun _ => rfl) applyCmds_turns
@[simp] theorem performWrite_wait (d : Byte) (s : State) : (performWrite d s).fg.wait = s.fg.wait :=
  performWrite_keeps (·.fg.wait) d s (fun _ => rfl) applyCmds_wait
@[simp] theorem performWrite_arb (d : Byte) (s : State) : (performWrite d s).int.arb = s.int.arb :=
  performWrite_keeps (·.int.arb) d s (fun _ => rfl) applyCmds_arb
@[simp] theorem performWrite_lastEvent (d : Byte) (s : State) : (performWrite d s).en.lastEvent = s.en.lastEvent :=
  performWrite_keeps (·.en.lastEvent) d s (fun _ => rfl) applyCmds_lastEvent
@[simp] theorem performWrite_trace_idx (d : Byte) (s : State) : (performWrite d s).trace.idx = s.trace.idx :=
  performWrite_keeps (·.trace.idx) d s (fun _ => rfl) applyCmds_trace_idx
@[simp] theorem performWrite_trace_buf (d : Byte) (s : State) : (performWrite d s).trace.buf = s.trace.buf :=
  performWrite_keeps (·.trace.buf) d s (fun _ => rfl) applyCmds_trace_buf
@[simp] theorem performWrite_trace_seed (d : Byte) (s : State) : (performWrite d s).trace.seed = s.trace.seed :=
  performWrite_keeps (·.trace.seed) d s (fun _ => rfl) applyCmds_trace_seed

end Sys2Proof.Machine
end

