-- ==== Sys2Proof/Laws/Sparse.lean ====
section
/-! SUPPORT. Reading and writing sparse tables, host memory and `BUF`, and that every one of these operations keeps the
canonical form. -/

namespace Sys2Proof.Machine
open Sys2Proof

variable {α : Type}

@[simp] theorem rising_nil : Sparse.rising ([] : Sparse α) := List.Pairwise.nil

@[simp] theorem rising_cons (c : Nat × α) (r : Sparse α) :
    Sparse.rising (c :: r) ↔ (∀ d ∈ r, c.1 < d.1) ∧ Sparse.rising r := by
  unfold Sparse.rising
  rw [List.map_cons, List.pairwise_cons]
  simp only [List.forall_mem_map]

@[simp] theorem sparseGet_set_same (k : Nat) (v : α) (m : Sparse α) : sparseGet k (sparseSet k v m) = some v := by
  induction m with
  | nil => simp [sparseSet, sparseGet]
  | cons c r ih =>
    obtain ⟨j, w⟩ := c
    by_cases h1 : k < j
    · simp [sparseSet, h1, sparseGet]
    · by_cases h2 : j = k
      · simp [sparseSet, h2, sparseGet]
      · simp [sparseSet, h1, h2, sparseGet, ih]

theorem sparseGet_set_other {k j : Nat} (h : j ≠ k) (v : α) (m : Sparse α) :
    sparseGet j (sparseSet k v m) = sparseGet j m := by
  induction m with
  | nil => simp [sparseSet, sparseGet, Ne.symm h]
  | cons c r ih =>
    obtain ⟨i, w⟩ := c
    by_cases h1 : k < i
    · simp [sparseSet, h1, sparseGet, Ne.symm h]
    · by_cases h2 : i = k
      · subst h2; simp [sparseSet, sparseGet, Ne.symm h]
      · simp [sparseSet, h1, h2, sparseGet, ih]

@[simp] theorem sparseGet_erase_same (k : Nat) (m : Sparse α) : sparseGet k (sparseErase k m) = none := by
  induction m with
  | nil => rfl
  | cons c r ih =>
    obtain ⟨j, w⟩ := c
    by_cases h : j = k <;> simp [sparseErase, h, sparseGet, ih]

theorem sparseGet_erase_other {k j : Nat} (h : j ≠ k) (m : Sparse α) :
    sparseGet j (sparseErase k m) = sparseGet j m := by
  induction m with
  | nil => rfl
  | cons c r ih =>
    obtain ⟨i, w⟩ := c
    by_cases h2 : i = k
    · subst h2; simp [sparseErase, sparseGet, Ne.symm h, ih]
    · simp [sparseErase, h2, sparseGet, ih]

/-- An entry after a write is the written one or an old one. -/
theorem mem_sparseSet {k : Nat} {v : α} {m : Sparse α} {c : Nat × α} (h : c ∈ sparseSet k v m) :
    c = (k, v) ∨ c ∈ m := by
  induction m with
  | nil => simpa [sparseSet] using h
  | cons d r ih =>
    obtain ⟨j, w⟩ := d
    by_cases h1 : k < j
    · simpa [sparseSet, h1] using h
    · by_cases h2 : j = k
      · subst h2
        simp only [sparseSet, Nat.lt_irrefl, if_false, if_true, List.mem_cons] at h
        rcases h with h | h
        · exact .inl h
        · exact .inr (List.mem_cons_of_mem _ h)
      · simp only [sparseSet, h1, h2, if_false, List.mem_cons] at h
        rcases h with h | h
        · exact .inr (by simp [h])
        · rcases ih h with h | h
          · exact .inl h
          · exact .inr (List.mem_cons_of_mem _ h)

theorem mem_sparseErase {k : Nat} {m : Sparse α} {c : Nat × α} (h : c ∈ sparseErase k m) : c ∈ m := by
  induction m with
  | nil => simp [sparseErase] at h
  | cons d r ih =>
    obtain ⟨j, w⟩ := d
    by_cases h2 : j = k
    · simp only [sparseErase, h2, if_true] at h
      exact List.mem_cons_of_mem _ (ih h)
    · simp only [sparseErase, h2, if_false, List.mem_cons] at h
      rcases h with h | h
      · simp [h]
      · exact List.mem_cons_of_mem _ (ih h)

theorem sparseSet_rising {k : Nat} {v : α} {m : Sparse α} (h : Sparse.rising m) : Sparse.rising (sparseSet k v m) := by
  induction m with
  | nil => simp [sparseSet]
  | cons d r ih =>
    obtain ⟨j, w⟩ := d
    rw [rising_cons] at h
    by_cases h1 : k < j
    · simp only [sparseSet, h1, if_true, rising_cons, List.mem_cons]
      refine ⟨?_, h.1, h.2⟩
      rintro x (rfl | hx)
      · exact h1
      · exact h1.trans (h.1 x hx)
    · by_cases h2 : j = k
      · subst h2
        simp only [sparseSet, Nat.lt_irrefl, if_false, if_true, rising_cons]
        exact h
      · simp only [sparseSet, h1, h2, if_false, rising_cons]
        refine ⟨fun c hc => ?_, ih h.2⟩
        rcases mem_sparseSet hc with rfl | hc
        · show j < k
          omega
        · exact h.1 c hc

theorem sparseErase_rising {k : Nat} {m : Sparse α} (h : Sparse.rising m) : Sparse.rising (sparseErase k m) := by
  induction m with
  | nil => simp [sparseErase]
  | cons d r ih =>
    obtain ⟨j, w⟩ := d
    rw [rising_cons] at h
    by_cases h2 : j = k
    · simpa only [sparseErase, h2, if_true] using ih h.2
    · simp only [sparseErase, h2, if_false, rising_cons]
      exact ⟨fun c hc => h.1 c (mem_sparseErase hc), ih h.2⟩

theorem sparsePut_rising {k : Nat} {v : Option α} {m : Sparse α} (h : Sparse.rising m) :
    Sparse.rising (sparsePut k v m) := by
  cases v with
  | none => exact sparseErase_rising h
  | some x => exact sparseSet_rising h

theorem mem_sparsePut {k : Nat} {v : Option α} {m : Sparse α} {c : Nat × α} (h : c ∈ sparsePut k v m) :
    c.1 = k ∨ c ∈ m := by
  cases v with
  | none => exact .inr (mem_sparseErase h)
  | some x => exact (mem_sparseSet h).imp (fun e => by rw [e]) id

/-! Host memory. -/

theorem hostRead_write_same {m : List Host.Cell} {a : Bits16} {v w : Byte} (h : hostRead m a = some w) :
    hostRead (hostWrite m a v) a = some v := by
  simp only [hostWrite, h]
  exact sparseGet_set_same _ _ _

theorem hostRead_write_other {m : List Host.Cell} {a b : Bits16} (v : Byte) (h : b ≠ a) :
    hostRead (hostWrite m a v) b = hostRead m b := by
  unfold hostWrite
  split
  · exact sparseGet_set_other (fun e => h (BitVec.eq_of_toNat_eq e)) v m
  · rfl

/-- An address no peer serves stays so: a write to it is lost (R38). -/
theorem hostWrite_unserved {m : List Host.Cell} {a : Bits16} (v : Byte) (h : hostRead m a = none) :
    hostWrite m a v = m := by
  simp [hostWrite, h]

theorem hostWrite_keeps_wf {m : List Host.Cell} (a : Bits16) (v : Byte) (h : hostMemWf m) :
    hostMemWf (hostWrite m a v) := by
  unfold hostWrite
  split
  · refine ⟨sparseSet_rising h.1, fun c hc => ?_⟩
    rcases mem_sparseSet hc with rfl | hc
    · exact a.isLt
    · exact h.2 c hc
  · exact h

/-! `BUF`. -/

@[simp] theorem bufRead_write_same (m : List Host.Cell) (i : Nat) (v : Byte) : bufRead (bufWrite m i v) i = v := by
  unfold bufWrite bufRead
  split <;> simp_all

theorem bufRead_write_other {i j : Nat} (m : List Host.Cell) (v : Byte) (h : j ≠ i) :
    bufRead (bufWrite m i v) j = bufRead m j := by
  unfold bufWrite bufRead
  split
  · rw [sparseGet_erase_other h]
  · rw [sparseGet_set_other h]

theorem bufWrite_keeps_wf {m : List Host.Cell} (i : Nat) (v : Byte) (h : bufWf m) : bufWf (bufWrite m i v) := by
  unfold bufWrite
  split
  · exact ⟨sparseErase_rising h.1, fun c hc => h.2 c (mem_sparseErase hc)⟩
  · refine ⟨sparseSet_rising h.1, fun c hc => ?_⟩
    rcases mem_sparseSet hc with rfl | hc
    · assumption
    · exact h.2 c hc

/-- A write to `BUF` lists no index but its own and the old ones. -/
theorem mem_bufWrite {m : List Host.Cell} {i : Nat} {v : Byte} {c : Host.Cell} (h : c ∈ bufWrite m i v) :
    c.1 = i ∨ c ∈ m := by
  unfold bufWrite at h
  split at h
  · exact .inr (mem_sparseErase h)
  · exact (mem_sparseSet h).imp (fun e => by rw [e]) id

end Sys2Proof.Machine
end

