-- ==== Sys2Proof/Laws/Events.lean ====
section
/-! SUPPORT. What the parts of a clock event can do, and which of them run. -/

namespace Sys2Proof.Machine
open Sys2Proof

/-! Which agents move. -/

/-- With the invariants, a running dispatcher means no transfer is acknowledged or active. -/
theorem Coherent.serving {s : State} (h : Coherent s) (e : dispatcherEnabled s = true) :
    s.dma.ack = false ∧ s.dma.active = false ∧ s.en.armedOnce = true ∧ s.en.armed = true ∧ s.en.sysint = true := by
  obtain ⟨ha, hs⟩ : s.en.armed = true ∧ s.en.sysint = true := by simpa [dispatcherEnabled] using e
  have hack : s.dma.ack = false := by
    cases hk : s.dma.ack with
    | false => rfl
    | true => have := h.ack_disarms hk; simp_all
  refine ⟨hack, ?_, h.armed_by_arm (.inl ha), ha, hs⟩
  cases hk : s.dma.active with
  | false => rfl
  | true => have := h.active_acked hk; simp_all

theorem disabled_of_disarmed {s : State} (h : s.en.armed = false) : dispatcherEnabled s = false := by
  simp [dispatcherEnabled, h]

/-! The host peers change only what is theirs. -/

theorem peersP1R_keeps {β : Type} (f : State → β) (e : Option Byte) (s : State)
    (hb : ∀ n x, f { s with draws := n, marks := { s.marks with fault := x } } = f s)
    (hp : ∀ q t, f { t with peers := q } = f t) : f (peersP1R e s) = f s := by
  unfold peersP1R
  split
  · rfl
  · show f { (busValue e s).2 with peers := _ } = f s
    rw [hp, busValue_keeps f e s hb]

theorem peersP1F_keeps {β : Type} (f : State → β) (e : Option Byte) (p : Bits3) (s : State)
    (hb : ∀ n x, f { s with draws := n, marks := { s.marks with fault := x } } = f s)
    (hp : ∀ q t, f { t with peers := q } = f t) : f (peersP1F e p s) = f s := by
  show f { (busValue e s).2 with peers := _ } = f s
  rw [hp, busValue_keeps f e s hb]

@[simp] theorem peersP1R_par (e : Option Byte) (s : State) : (peersP1R e s).par = s.par :=
  peersP1R_keeps (·.par) e s (fun _ _ => rfl) fun _ _ => rfl
@[simp] theorem peersP1R_lines (e : Option Byte) (s : State) : (peersP1R e s).lines = s.lines :=
  peersP1R_keeps (·.lines) e s (fun _ _ => rfl) fun _ _ => rfl
@[simp] theorem peersP1R_disp (e : Option Byte) (s : State) : (peersP1R e s).disp = s.disp :=
  peersP1R_keeps (·.disp) e s (fun _ _ => rfl) fun _ _ => rfl
@[simp] theorem peersP1R_en (e : Option Byte) (s : State) : (peersP1R e s).en = s.en :=
  peersP1R_keeps (·.en) e s (fun _ _ => rfl) fun _ _ => rfl
@[simp] theorem peersP1R_tabs (e : Option Byte) (s : State) : (peersP1R e s).tabs = s.tabs :=
  peersP1R_keeps (·.tabs) e s (fun _ _ => rfl) fun _ _ => rfl
@[simp] theorem peersP1R_int (e : Option Byte) (s : State) : (peersP1R e s).int = s.int :=
  peersP1R_keeps (·.int) e s (fun _ _ => rfl) fun _ _ => rfl
@[simp] theorem peersP1R_dma (e : Option Byte) (s : State) : (peersP1R e s).dma = s.dma :=
  peersP1R_keeps (·.dma) e s (fun _ _ => rfl) fun _ _ => rfl
@[simp] theorem peersP1R_fg (e : Option Byte) (s : State) : (peersP1R e s).fg = s.fg :=
  peersP1R_keeps (·.fg) e s (fun _ _ => rfl) fun _ _ => rfl
@[simp] theorem peersP1R_trace (e : Option Byte) (s : State) : (peersP1R e s).trace = s.trace :=
  peersP1R_keeps (·.trace) e s (fun _ _ => rfl) fun _ _ => rfl
@[simp] theorem peersP1R_dev (e : Option Byte) (s : State) : (peersP1R e s).dev = s.dev :=
  peersP1R_keeps (·.dev) e s (fun _ _ => rfl) fun _ _ => rfl
@[simp] theorem peersP1R_buf (e : Option Byte) (s : State) : (peersP1R e s).buf = s.buf :=
  peersP1R_keeps (·.buf) e s (fun _ _ => rfl) fun _ _ => rfl
@[simp] theorem peersP1R_prog (e : Option Byte) (s : State) : (peersP1R e s).prog = s.prog :=
  peersP1R_keeps (·.prog) e s (fun _ _ => rfl) fun _ _ => rfl
@[simp] theorem peersP1R_boot (e : Option Byte) (s : State) : (peersP1R e s).boot = s.boot :=
  peersP1R_keeps (·.boot) e s (fun _ _ => rfl) fun _ _ => rfl
@[simp] theorem peersP1R_turns (e : Option Byte) (s : State) : (peersP1R e s).turns = s.turns :=
  peersP1R_keeps (·.turns) e s (fun _ _ => rfl) fun _ _ => rfl
@[simp] theorem peersP1R_refused (e : Option Byte) (s : State) : (peersP1R e s).marks.refused = s.marks.refused :=
  peersP1R_keeps (·.marks.refused) e s (fun _ _ => rfl) fun _ _ => rfl

@[simp] theorem peersP1F_par (e : Option Byte) (p : Bits3) (s : State) : (peersP1F e p s).par = s.par :=
  peersP1F_keeps (·.par) e p s (fun _ _ => rfl) fun _ _ => rfl
@[simp] theorem peersP1F_lines (e : Option Byte) (p : Bits3) (s : State) : (peersP1F e p s).lines = s.lines :=
  peersP1F_keeps (·.lines) e p s (fun _ _ => rfl) fun _ _ => rfl
@[simp] theorem peersP1F_disp (e : Option Byte) (p : Bits3) (s : State) : (peersP1F e p s).disp = s.disp :=
  peersP1F_keeps (·.disp) e p s (fun _ _ => rfl) fun _ _ => rfl
@[simp] theorem peersP1F_en (e : Option Byte) (p : Bits3) (s : State) : (peersP1F e p s).en = s.en :=
  peersP1F_keeps (·.en) e p s (fun _ _ => rfl) fun _ _ => rfl
@[simp] theorem peersP1F_tabs (e : Option Byte) (p : Bits3) (s : State) : (peersP1F e p s).tabs = s.tabs :=
  peersP1F_keeps (·.tabs) e p s (fun _ _ => rfl) fun _ _ => rfl
@[simp] theorem peersP1F_int (e : Option Byte) (p : Bits3) (s : State) : (peersP1F e p s).int = s.int :=
  peersP1F_keeps (·.int) e p s (fun _ _ => rfl) fun _ _ => rfl
@[simp] theorem peersP1F_dma (e : Option Byte) (p : Bits3) (s : State) : (peersP1F e p s).dma = s.dma :=
  peersP1F_keeps (·.dma) e p s (fun _ _ => rfl) fun _ _ => rfl
@[simp] theorem peersP1F_fg (e : Option Byte) (p : Bits3) (s : State) : (peersP1F e p s).fg = s.fg :=
  peersP1F_keeps (·.fg) e p s (fun _ _ => rfl) fun _ _ => rfl
@[simp] theorem peersP1F_trace (e : Option Byte) (p : Bits3) (s : State) : (peersP1F e p s).trace = s.trace :=
  peersP1F_keeps (·.trace) e p s (fun _ _ => rfl) fun _ _ => rfl
@[simp] theorem peersP1F_dev (e : Option Byte) (p : Bits3) (s : State) : (peersP1F e p s).dev = s.dev :=
  peersP1F_keeps (·.dev) e p s (fun _ _ => rfl) fun _ _ => rfl
@[simp] theorem peersP1F_buf (e : Option Byte) (p : Bits3) (s : State) : (peersP1F e p s).buf = s.buf :=
  peersP1F_keeps (·.buf) e p s (fun _ _ => rfl) fun _ _ => rfl
@[simp] theorem peersP1F_prog (e : Option Byte) (p : Bits3) (s : State) : (peersP1F e p s).prog = s.prog :=
  peersP1F_keeps (·.prog) e p s (fun _ _ => rfl) fun _ _ => rfl
@[simp] theorem peersP1F_boot (e : Option Byte) (p : Bits3) (s : State) : (peersP1F e p s).boot = s.boot :=
  peersP1F_keeps (·.boot) e p s (fun _ _ => rfl) fun _ _ => rfl
@[simp] theorem peersP1F_turns (e : Option Byte) (p : Bits3) (s : State) : (peersP1F e p s).turns = s.turns :=
  peersP1F_keeps (·.turns) e p s (fun _ _ => rfl) fun _ _ => rfl
@[simp] theorem peersP1F_refused (e : Option Byte) (p : Bits3) (s : State) : (peersP1F e p s).marks.refused = s.marks.refused :=
  peersP1F_keeps (·.marks.refused) e p s (fun _ _ => rfl) fun _ _ => rfl

/-! The write of a scheduled byte and the trace push (R67, R136). -/

theorem auxByte_state (d : Byte) (s : State) : ∃ n, (auxByte d s).2 = { s with draws := n } := by
  unfold auxByte
  split
  · exact ⟨s.draws, rfl⟩
  · exact ⟨_, rfl⟩

theorem tracePush_keeps {β : Type} (f : State → β) (d : Byte) (s : State)
    (hd : ∀ n, f { s with draws := n } = f s) (ht : ∀ q t, f { t with trace := q } = f t) :
    f (tracePush d s) = f s := by
  obtain ⟨n, hn⟩ := auxByte_state d s
  have e : tracePush d s = { (auxByte d s).2 with trace := (tracePush d s).trace } := rfl
  rw [e, ht, hn, hd]

@[simp] theorem tracePush_par (d : Byte) (s : State) : (tracePush d s).par = s.par :=
  tracePush_keeps (·.par) d s (fun _ => rfl) fun _ _ => rfl
@[simp] theorem tracePush_lines (d : Byte) (s : State) : (tracePush d s).lines = s.lines :=
  tracePush_keeps (·.lines) d s (fun _ => rfl) fun _ _ => rfl
@[simp] theorem tracePush_disp (d : Byte) (s : State) : (tracePush d s).disp = s.disp :=
  tracePush_keeps (·.disp) d s (fun _ => rfl) fun _ _ => rfl
@[simp] theorem tracePush_en (d : Byte) (s : State) : (tracePush d s).en = s.en :=
  tracePush_keeps (·.en) d s (fun _ => rfl) fun _ _ => rfl
@[simp] theorem tracePush_tabs (d : Byte) (s : State) : (tracePush d s).tabs = s.tabs :=
  tracePush_keeps (·.tabs) d s (fun _ => rfl) fun _ _ => rfl
@[simp] theorem tracePush_int (d : Byte) (s : State) : (tracePush d s).int = s.int :=
  tracePush_keeps (·.int) d s (fun _ => rfl) fun _ _ => rfl
@[simp] theorem tracePush_dma (d : Byte) (s : State) : (tracePush d s).dma = s.dma :=
  tracePush_keeps (·.dma) d s (fun _ => rfl) fun _ _ => rfl
@[simp] theorem tracePush_fg (d : Byte) (s : State) : (tracePush d s).fg = s.fg :=
  tracePush_keeps (·.fg) d s (fun _ => rfl) fun _ _ => rfl
@[simp] theorem tracePush_dev (d : Byte) (s : State) : (tracePush d s).dev = s.dev :=
  tracePush_keeps (·.dev) d s (fun _ => rfl) fun _ _ => rfl
@[simp] theorem tracePush_buf (d : Byte) (s : State) : (tracePush d s).buf = s.buf :=
  tracePush_keeps (·.buf) d s (fun _ => rfl) fun _ _ => rfl
@[simp] theorem tracePush_peers (d : Byte) (s : State) : (tracePush d s).peers = s.peers :=
  tracePush_keeps (·.peers) d s (fun _ => rfl) fun _ _ => rfl
@[simp] theorem tracePush_marks (d : Byte) (s : State) : (tracePush d s).marks = s.marks :=
  tracePush_keeps (·.marks) d s (fun _ => rfl) fun _ _ => rfl
@[simp] theorem tracePush_prog (d : Byte) (s : State) : (tracePush d s).prog = s.prog :=
  tracePush_keeps (·.prog) d s (fun _ => rfl) fun _ _ => rfl
@[simp] theorem tracePush_boot (d : Byte) (s : State) : (tracePush d s).boot = s.boot :=
  tracePush_keeps (·.boot) d s (fun _ => rfl) fun _ _ => rfl
@[simp] theorem tracePush_turns (d : Byte) (s : State) : (tracePush d s).turns = s.turns :=
  tracePush_keeps (·.turns) d s (fun _ => rfl) fun _ _ => rfl

/-- What `OnP1R` leaves unchanged. -/
theorem onP1R_keeps {β : Type} (f : State → β) (e : Option Byte) (s : State)
    (hb : ∀ n x, f { s with draws := n, marks := { s.marks with fault := x } } = f s)
    (hw : ∀ d t, f (performWrite d t) = f t)
    (hs : ∀ t : State, f { t with disp := { t.disp with schedWrite := none } } = f t)
    (ht : ∀ d t, f (tracePush d t) = f t) : f (onP1R e s) = f s := by
  unfold onP1R
  simp only []
  split
  · rw [ht, hs, hw, busValue_keeps f e s hb]
  · rw [hs, hw, busValue_keeps f e s hb]

@[simp] theorem onP1R_par (e : Option Byte) (s : State) : (onP1R e s).par = s.par :=
  onP1R_keeps (·.par) e s (fun _ _ => rfl) performWrite_par (fun _ => rfl) tracePush_par
@[simp] theorem onP1R_lines (e : Option Byte) (s : State) : (onP1R e s).lines = s.lines :=
  onP1R_keeps (·.lines) e s (fun _ _ => rfl) performWrite_lines (fun _ => rfl) tracePush_lines
@[simp] theorem onP1R_dma (e : Option Byte) (s : State) : (onP1R e s).dma = s.dma :=
  onP1R_keeps (·.dma) e s (fun _ _ => rfl) performWrite_dma (fun _ => rfl) tracePush_dma
@[simp] theorem onP1R_buf (e : Option Byte) (s : State) : (onP1R e s).buf = s.buf :=
  onP1R_keeps (·.buf) e s (fun _ _ => rfl) performWrite_buf (fun _ => rfl) tracePush_buf
@[simp] theorem onP1R_peers (e : Option Byte) (s : State) : (onP1R e s).peers = s.peers :=
  onP1R_keeps (·.peers) e s (fun _ _ => rfl) performWrite_peers (fun _ => rfl) tracePush_peers
@[simp] theorem onP1R_prog (e : Option Byte) (s : State) : (onP1R e s).prog = s.prog :=
  onP1R_keeps (·.prog) e s (fun _ _ => rfl) performWrite_prog (fun _ => rfl) tracePush_prog
@[simp] theorem onP1R_boot (e : Option Byte) (s : State) : (onP1R e s).boot = s.boot :=
  onP1R_keeps (·.boot) e s (fun _ _ => rfl) performWrite_boot (fun _ => rfl) tracePush_boot
@[simp] theorem onP1R_turns (e : Option Byte) (s : State) : (onP1R e s).turns = s.turns :=
  onP1R_keeps (·.turns) e s (fun _ _ => rfl) performWrite_turns (fun _ => rfl) tracePush_turns
@[simp] theorem onP1R_wait (e : Option Byte) (s : State) : (onP1R e s).fg.wait = s.fg.wait :=
  onP1R_keeps (·.fg.wait) e s (fun _ _ => rfl) performWrite_wait (fun _ => rfl) fun _ _ => by simp
@[simp] theorem onP1R_arb (e : Option Byte) (s : State) : (onP1R e s).int.arb = s.int.arb :=
  onP1R_keeps (·.int.arb) e s (fun _ _ => rfl) performWrite_arb (fun _ => rfl) fun _ _ => by simp

theorem onP1R_disp (e : Option Byte) (s : State) : (onP1R e s).disp = { s.disp with schedWrite := none } := by
  unfold onP1R
  simp only []
  split <;> simp

/-- A predicate kept by every part of `OnP1R` is kept by it. -/
theorem onP1R_induct {P : State → Prop} (e : Option Byte) (s : State)
    (hb : ∀ n x, P { s with draws := n, marks := { s.marks with fault := x } })
    (hd : ∀ t d, P t → P { t with dev := d }) (hc : ∀ t c, P t → P (applyCmd t c))
    (hw : ∀ t : State, P t → P { t with disp := { t.disp with schedWrite := none } })
    (ht : ∀ t d, P t → P (tracePush d t)) : P (onP1R e s) := by
  have h0 : P (busValue e s).2 := by
    obtain ⟨n, x, h⟩ := busValue_state e s
    rw [h]; exact hb n x
  unfold onP1R
  simp only []
  split
  · exact ht _ _ (hw _ (performWrite_induct _ _ h0 hd hc))
  · exact hw _ (performWrite_induct _ _ h0 hd hc)

/-! The falling edge (R69). -/

theorem endDrive_keeps {β : Type} (f : State → β) (s : State) (h : ∀ t l, f { t with lines := l } = f t) :
    f (endDrive s) = f s := by
  unfold endDrive
  split
  · exact h _ _
  · rfl

theorem onP1F_keeps {β : Type} (f : State → β) (e : Option Byte) (s : State)
    (hb : ∀ n x, f { s with draws := n, marks := { s.marks with fault := x } } = f s)
    (hl : ∀ t l, f { t with lines := l } = f t) (hd : ∀ t r, f { t with disp := r } = f t) :
    f (onP1F e s) = f s := by
  unfold onP1F
  simp only []
  rw [endDrive_keeps f _ hl, hd, busValue_keeps f e s hb]

@[simp] theorem onP1F_par (e : Option Byte) (s : State) : (onP1F e s).par = s.par :=
  onP1F_keeps (·.par) e s (fun _ _ => rfl) (fun _ _ => rfl) fun _ _ => rfl
@[simp] theorem onP1F_en (e : Option Byte) (s : State) : (onP1F e s).en = s.en :=
  onP1F_keeps (·.en) e s (fun _ _ => rfl) (fun _ _ => rfl) fun _ _ => rfl
@[simp] theorem onP1F_tabs (e : Option Byte) (s : State) : (onP1F e s).tabs = s.tabs :=
  onP1F_keeps (·.tabs) e s (fun _ _ => rfl) (fun _ _ => rfl) fun _ _ => rfl
@[simp] theorem onP1F_int (e : Option Byte) (s : State) : (onP1F e s).int = s.int :=
  onP1F_keeps (·.int) e s (fun _ _ => rfl) (fun _ _ => rfl) fun _ _ => rfl
@[simp] theorem onP1F_dma (e : Option Byte) (s : State) : (onP1F e s).dma = s.dma :=
  onP1F_keeps (·.dma) e s (fun _ _ => rfl) (fun _ _ => rfl) fun _ _ => rfl
@[simp] theorem onP1F_fg (e : Option Byte) (s : State) : (onP1F e s).fg = s.fg :=
  onP1F_keeps (·.fg) e s (fun _ _ => rfl) (fun _ _ => rfl) fun _ _ => rfl
@[simp] theorem onP1F_trace (e : Option Byte) (s : State) : (onP1F e s).trace = s.trace :=
  onP1F_keeps (·.trace) e s (fun _ _ => rfl) (fun _ _ => rfl) fun _ _ => rfl
@[simp] theorem onP1F_dev (e : Option Byte) (s : State) : (onP1F e s).dev = s.dev :=
  onP1F_keeps (·.dev) e s (fun _ _ => rfl) (fun _ _ => rfl) fun _ _ => rfl
@[simp] theorem onP1F_buf (e : Option Byte) (s : State) : (onP1F e s).buf = s.buf :=
  onP1F_keeps (·.buf) e s (fun _ _ => rfl) (fun _ _ => rfl) fun _ _ => rfl
@[simp] theorem onP1F_peers (e : Option Byte) (s : State) : (onP1F e s).peers = s.peers :=
  onP1F_keeps (·.peers) e s (fun _ _ => rfl) (fun _ _ => rfl) fun _ _ => rfl
@[simp] theorem onP1F_prog (e : Option Byte) (s : State) : (onP1F e s).prog = s.prog :=
  onP1F_keeps (·.prog) e s (fun _ _ => rfl) (fun _ _ => rfl) fun _ _ => rfl
@[simp] theorem onP1F_boot (e : Option Byte) (s : State) : (onP1F e s).boot = s.boot :=
  onP1F_keeps (·.boot) e s (fun _ _ => rfl) (fun _ _ => rfl) fun _ _ => rfl
@[simp] theorem onP1F_turns (e : Option Byte) (s : State) : (onP1F e s).turns = s.turns :=
  onP1F_keeps (·.turns) e s (fun _ _ => rfl) (fun _ _ => rfl) fun _ _ => rfl
@[simp] theorem onP1F_refused (e : Option Byte) (s : State) : (onP1F e s).marks.refused = s.marks.refused :=
  onP1F_keeps (·.marks.refused) e s (fun _ _ => rfl) (fun _ _ => rfl) fun _ _ => rfl

theorem onP1F_disp (e : Option Byte) (s : State) : (onP1F e s).disp = { s.disp with
    a := nextAddress (busValue e s).1 s.disp, schedLoad := false, schedInc := false, plb := (busValue e s).1 } := by
  unfold onP1F
  simp only []
  rw [endDrive_keeps (·.disp) _ fun _ _ => rfl]
  simp

/-- After the falling edge the device drives nothing; RDY is released with the drive (R69). -/
theorem onP1F_lines (e : Option Byte) (s : State) :
    (onP1F e s).lines =
      { s.lines with drvD := none, rdy := if s.lines.drvD = none then s.lines.rdy else false } := by
  unfold onP1F endDrive
  simp only [busValue_lines]
  cases h : s.lines.drvD with
  | none => simp [← h]
  | some u => simp

/-! `SP2` (R70). -/

theorem respondRead_keeps {β : Type} (f : State → β) (s : State)
    (hr : ∀ a t, f (resolveRead a t).2 = f t) (hl : ∀ t l, f { t with lines := l } = f t) :
    f (respondRead s) = f s := by
  unfold respondRead
  simp only []
  split
  · rw [hl, hr]
  · exact hr _ _

@[simp] theorem respondRead_par (s : State) : (respondRead s).par = s.par :=
  respondRead_keeps (·.par) s (fun a t => resolveRead_par a t) fun _ _ => rfl
@[simp] theorem respondRead_disp (s : State) : (respondRead s).disp = s.disp :=
  respondRead_keeps (·.disp) s (fun a t => resolveRead_disp a t) fun _ _ => rfl
@[simp] theorem respondRead_dma (s : State) : (respondRead s).dma = s.dma :=
  respondRead_keeps (·.dma) s (fun a t => resolveRead_dma a t) fun _ _ => rfl
@[simp] theorem respondRead_buf (s : State) : (respondRead s).buf = s.buf :=
  respondRead_keeps (·.buf) s (fun a t => resolveRead_buf a t) fun _ _ => rfl
@[simp] theorem respondRead_peers (s : State) : (respondRead s).peers = s.peers :=
  respondRead_keeps (·.peers) s (fun a t => resolveRead_peers a t) fun _ _ => rfl
@[simp] theorem respondRead_prog (s : State) : (respondRead s).prog = s.prog :=
  respondRead_keeps (·.prog) s (fun a t => resolveRead_prog a t) fun _ _ => rfl
@[simp] theorem respondRead_boot (s : State) : (respondRead s).boot = s.boot :=
  respondRead_keeps (·.boot) s (fun a t => resolveRead_boot a t) fun _ _ => rfl
@[simp] theorem respondRead_turns (s : State) : (respondRead s).turns = s.turns :=
  respondRead_keeps (·.turns) s (fun a t => resolveRead_turns a t) fun _ _ => rfl
@[simp] theorem respondRead_wait (s : State) : (respondRead s).fg.wait = s.fg.wait :=
  respondRead_keeps (·.fg.wait) s (fun a t => resolveRead_wait a t) fun _ _ => rfl
@[simp] theorem respondRead_arb (s : State) : (respondRead s).int.arb = s.int.arb :=
  respondRead_keeps (·.int.arb) s (fun a t => resolveRead_arb a t) fun _ _ => rfl
@[simp] theorem respondRead_fault (s : State) : (respondRead s).marks.fault = s.marks.fault :=
  respondRead_keeps (·.marks.fault) s (fun a t => resolveRead_fault a t) fun _ _ => rfl
@[simp] theorem respondRead_lastEvent (s : State) : (respondRead s).en.lastEvent = s.en.lastEvent :=
  respondRead_keeps (·.en.lastEvent) s (fun a t => resolveRead_lastEvent a t) fun _ _ => rfl
@[simp] theorem respondRead_trace_idx (s : State) : (respondRead s).trace.idx = s.trace.idx :=
  respondRead_keeps (·.trace.idx) s (fun a t => resolveRead_trace_idx a t) fun _ _ => rfl
@[simp] theorem respondRead_trace_buf (s : State) : (respondRead s).trace.buf = s.trace.buf :=
  respondRead_keeps (·.trace.buf) s (fun a t => resolveRead_trace_buf a t) fun _ _ => rfl

/-- The lines a read response leaves unchanged. -/
theorem respondRead_lines (s : State) : ∃ d r, (respondRead s).lines = { s.lines with drvD := d, rdy := r } ∧
    (r = true → d ≠ none ∨ s.lines.rdy = true ∧ d = s.lines.drvD) := by
  unfold respondRead
  simp only []
  split
  · refine ⟨_, _, by rw [resolveRead_lines], fun _ => .inl (by simp)⟩
  · refine ⟨s.lines.drvD, s.lines.rdy, by rw [resolveRead_lines], fun h => .inr ⟨h, rfl⟩⟩

/-- A predicate kept by the read search and by a change of the lines is kept by the read response. -/
theorem respondRead_induct {P : State → Prop} (s : State) (hs : P s)
    (hd : ∀ t d, P t → P { t with dev := d }) (hc : ∀ t c, P t → P (applyCmd t c))
    (hl : ∀ t l, P t → P { t with lines := l }) : P (respondRead s) := by
  unfold respondRead
  simp only []
  split
  · exact hl _ _ (resolveRead_induct _ _ hs hd hc)
  · exact resolveRead_induct _ _ hs hd hc

/-- The arbiter step writes the lines and its own fields only (R30, R98). -/
theorem arbStep_state (cyc : BusState) (pri : Bool) (s : State) :
    arbStep cyc pri s = { s with lines := (arbStep cyc pri s).lines, int := (arbStep cyc pri s).int } := by
  unfold arbStep
  split
  · split
    · rfl
    · split <;> rfl
  · split
    · rfl
    · split <;> rfl

/-- Outside an interrupt acknowledge the arbiter requests where it may and else does nothing (R100, R103). -/
theorem arbStep_outside {cyc : BusState} (h : cyc ≠ .interruptAck) (pri : Bool) (s : State) :
    arbStep cyc pri s = if s.int.arb = .idle ∧ interruptReady s = true then assertRequest s else s := by
  have hc : (cyc == BusState.interruptAck) = false := by simpa using h
  unfold arbStep
  cases hs : s.int.arb <;> simp [hc]

theorem driveHalt_state (s : State) :
    driveHalt s = { s with lines := { s.lines with halt := s.lines.halt || requestOutstanding s } } := by
  unfold driveHalt
  cases h : requestOutstanding s with
  | false => simp
  | true => simp

theorem acknowledgeDma_none {s : State} (h : s.disp.cyc ≠ .dmaAck) : acknowledgeDma s = s := by
  simp [acknowledgeDma, h]

/-! The engine (R115 to R123). -/

theorem dmaStore_keeps {β : Type} (f : State → β) (k : Nat) (v : Byte) (s : State)
    (hb : ∀ b, f { s with buf := b } = f s) (hd : ∀ w0 w1, f { s with dma := { s.dma with wbuf0 := w0, wbuf1 := w1 } } = f s) :
    f (dmaStore k v s) = f s := by
  unfold dmaStore
  split
  · exact hb _
  · split
    · exact hd v s.dma.wbuf1
    · exact hd s.dma.wbuf0 v

/-- The data edge changes the draw count, the fault record, `BUF`, the scratch, `dma_k` and the pending bit, and nothing
else. -/
theorem dmaDataEdge_state (e : Option Byte) (s : State) : ∃ n x b w0 w1,
    dmaDataEdge e s = { s with
      draws := n, marks := { s.marks with fault := x }, buf := b,
      dma := { s.dma with wbuf0 := w0, wbuf1 := w1, k := s.dma.k + 1, xferPending := false } } := by
  unfold dmaDataEdge
  cases s.dma.dir with
  | wr => exact ⟨s.draws, s.marks.fault, s.buf, s.dma.wbuf0, s.dma.wbuf1, rfl⟩
  | rd =>
    obtain ⟨n, x, h⟩ := busValue_state e s
    simp only [h, dmaStore]
    split
    · exact ⟨n, x, _, s.dma.wbuf0, s.dma.wbuf1, rfl⟩
    · split
      · exact ⟨n, x, s.buf, _, s.dma.wbuf1, rfl⟩
      · exact ⟨n, x, s.buf, s.dma.wbuf0, _, rfl⟩

/-- What `NextCycle` does, in full (R121 to R123). -/
theorem dmaNextCycle_cases (s : State) :
    (s.dma.k = s.dma.count ∧ s.par.resume = .sameCycleP1F ∧
      dmaNextCycle s = dmaReleaseAtEdge { s with lines := { s.lines with ctrlOut := 0b000 } }) ∨
    (s.dma.k = s.dma.count ∧ s.par.resume ≠ .sameCycleP1F ∧
      dmaNextCycle s = { s with lines := { s.lines with ctrlOut := 0b000 } }) ∨
    (s.dma.k ≠ s.dma.count ∧ s.dma.state = .dXfer ∧ s.dma.burstK = s.par.burstMax ∧ 0 < s.par.refreshIdle ∧
      dmaNextCycle s = dmaBeginYield { s with dma := { s.dma with burstK := 0 } }) ∨
    (s.dma.k ≠ s.dma.count ∧ s.dma.state = .dXfer ∧ s.dma.burstK = s.par.burstMax ∧ s.par.refreshIdle = 0 ∧
      dmaNextCycle s = dmaIssue { s with dma := { s.dma with burstK := 0 } }) ∨
    (s.dma.k ≠ s.dma.count ∧ s.dma.state = .dYield ∧ 0 < s.dma.yieldK ∧
      dmaNextCycle s = { s with
        lines := { s.lines with ctrlOut := 0b000 }, dma := { s.dma with yieldK := s.dma.yieldK - 1 } }) ∨
    (s.dma.k ≠ s.dma.count ∧ ¬ (s.dma.state = .dXfer ∧ s.dma.burstK = s.par.burstMax) ∧
      ¬ (s.dma.state = .dYield ∧ 0 < s.dma.yieldK) ∧ dmaNextCycle s = dmaIssue s) := by
  unfold dmaNextCycle
  by_cases h1 : s.dma.k = s.dma.count
  · by_cases h2 : s.par.resume = .sameCycleP1F
    · exact .inl ⟨h1, h2, by simp [h1, h2]⟩
    · exact .inr (.inl ⟨h1, h2, by simp [h1, h2]⟩)
  · by_cases h2 : s.dma.state = .dXfer ∧ s.dma.burstK = s.par.burstMax
    · by_cases h3 : 0 < s.par.refreshIdle
      · exact .inr (.inr (.inl ⟨h1, h2.1, h2.2, h3, by simp [h1, h2, h3]⟩))
      · refine .inr (.inr (.inr (.inl ⟨h1, h2.1, h2.2, by omega, by simp [h1, h2, h3]⟩)))
    · by_cases h3 : s.dma.state = .dYield ∧ 0 < s.dma.yieldK
      · exact .inr (.inr (.inr (.inr (.inl ⟨h1, h3.1, h3.2, by rw [if_neg h1, if_neg h2, if_pos h3]⟩))))
      · exact .inr (.inr (.inr (.inr (.inr ⟨h1, h2, h3, by rw [if_neg h1, if_neg h2, if_neg h3]⟩))))

end Sys2Proof.Machine
end

