-- ==== Sys2Proof/Laws/Cycle.lean ====
section
/-! SUPPORT. Which parts of a clock event run in which state, and what an `EvP1F` with the dispatcher running does whatever
its class. -/

namespace Sys2Proof.Machine
open Sys2Proof

/-! `OnSP2` in its parts (R70). -/

/-- The state in which `ArbStep` runs: classified, and the read answered. -/
def beforeArbiter (p : Bits3) (s : State) : State :=
  if (setClassification p s).disp.cyc = .read then respondRead (setClassification p s) else setClassification p s

theorem onSP2_eq (p : Bits3) (pri : Bool) (s : State) :
    onSP2 p pri s = scheduleNext (acknowledgeDma (driveHalt
      (arbStep (classify s.par.intack p).1 pri (beforeArbiter p s)))) := rfl

/-- What the read response leaves unchanged, so does `beforeArbiter`. -/
theorem beforeArbiter_keeps {β : Type} (f : State → β) (p : Bits3) (s : State)
    (hc : f (setClassification p s) = f s) (hr : ∀ t, f (respondRead t) = f t) : f (beforeArbiter p s) = f s := by
  unfold beforeArbiter
  split
  · rw [hr, hc]
  · exact hc

theorem beforeArbiter_disp (p : Bits3) (s : State) : (beforeArbiter p s).disp = (setClassification p s).disp := by
  unfold beforeArbiter
  split
  · rw [respondRead_disp]
  · rfl

/-- What every part of `OnSP2` leaves unchanged, so does `OnSP2`. -/
theorem onSP2_keeps {β : Type} (f : State → β) (p : Bits3) (pri : Bool) (s : State)
    (hr : ∀ t, f (respondRead t) = f t)
    (hi : ∀ t l i, f { t with lines := l, int := i } = f t)
    (hd : ∀ t r, f { t with disp := r } = f t)
    (ha : ∀ t : State, f { t with
      en := { t.en with armed := false }, dma := { t.dma with ack := true, request := false } } = f t) :
    f (onSP2 p pri s) = f s := by
  rw [onSP2_eq]
  have h1 : ∀ t, f (scheduleNext t) = f t := fun t => hd t _
  have h2 : ∀ t, f (acknowledgeDma t) = f t := fun t => by
    unfold acknowledgeDma
    split
    · exact ha t
    · rfl
  have h3 : ∀ t, f (driveHalt t) = f t := fun t => by
    rw [driveHalt_state]
    exact hi t _ t.int
  have h4 : ∀ c t, f (arbStep c pri t) = f t := fun c t => by
    rw [arbStep_state]
    exact hi t _ _
  rw [h1, h2, h3, h4, beforeArbiter_keeps f p s (hd s _) hr]

@[simp] theorem onSP2_par (p : Bits3) (pri : Bool) (s : State) : (onSP2 p pri s).par = s.par :=
  onSP2_keeps (·.par) p pri s respondRead_par (fun _ _ _ => rfl) (fun _ _ => rfl) fun _ => rfl
@[simp] theorem onSP2_buf (p : Bits3) (pri : Bool) (s : State) : (onSP2 p pri s).buf = s.buf :=
  onSP2_keeps (·.buf) p pri s respondRead_buf (fun _ _ _ => rfl) (fun _ _ => rfl) fun _ => rfl
@[simp] theorem onSP2_peers (p : Bits3) (pri : Bool) (s : State) : (onSP2 p pri s).peers = s.peers :=
  onSP2_keeps (·.peers) p pri s respondRead_peers (fun _ _ _ => rfl) (fun _ _ => rfl) fun _ => rfl
@[simp] theorem onSP2_prog (p : Bits3) (pri : Bool) (s : State) : (onSP2 p pri s).prog = s.prog :=
  onSP2_keeps (·.prog) p pri s respondRead_prog (fun _ _ _ => rfl) (fun _ _ => rfl) fun _ => rfl
@[simp] theorem onSP2_boot (p : Bits3) (pri : Bool) (s : State) : (onSP2 p pri s).boot = s.boot :=
  onSP2_keeps (·.boot) p pri s respondRead_boot (fun _ _ _ => rfl) (fun _ _ => rfl) fun _ => rfl
@[simp] theorem onSP2_turns (p : Bits3) (pri : Bool) (s : State) : (onSP2 p pri s).turns = s.turns :=
  onSP2_keeps (·.turns) p pri s respondRead_turns (fun _ _ _ => rfl) (fun _ _ => rfl) fun _ => rfl
@[simp] theorem onSP2_wait (p : Bits3) (pri : Bool) (s : State) : (onSP2 p pri s).fg.wait = s.fg.wait :=
  onSP2_keeps (·.fg.wait) p pri s respondRead_wait (fun _ _ _ => rfl) (fun _ _ => rfl) fun _ => rfl
@[simp] theorem onSP2_fault (p : Bits3) (pri : Bool) (s : State) : (onSP2 p pri s).marks.fault = s.marks.fault :=
  onSP2_keeps (·.marks.fault) p pri s respondRead_fault (fun _ _ _ => rfl) (fun _ _ => rfl) fun _ => rfl
@[simp] theorem onSP2_trace_idx (p : Bits3) (pri : Bool) (s : State) : (onSP2 p pri s).trace.idx = s.trace.idx :=
  onSP2_keeps (·.trace.idx) p pri s respondRead_trace_idx (fun _ _ _ => rfl) (fun _ _ => rfl) fun _ => rfl
@[simp] theorem onSP2_trace_buf (p : Bits3) (pri : Bool) (s : State) : (onSP2 p pri s).trace.buf = s.trace.buf :=
  onSP2_keeps (·.trace.buf) p pri s respondRead_trace_buf (fun _ _ _ => rfl) (fun _ _ => rfl) fun _ => rfl
@[simp] theorem onSP2_active (p : Bits3) (pri : Bool) (s : State) : (onSP2 p pri s).dma.active = s.dma.active :=
  onSP2_keeps (·.dma.active) p pri s (fun t => by rw [respondRead_dma]) (fun _ _ _ => rfl) (fun _ _ => rfl) fun _ => rfl

theorem acknowledgeDma_tabs (s : State) : (acknowledgeDma s).tabs = s.tabs := by
  unfold acknowledgeDma; split <;> rfl
theorem acknowledgeDma_lines (s : State) : (acknowledgeDma s).lines = s.lines := by
  unfold acknowledgeDma; split <;> rfl
theorem acknowledgeDma_disp (s : State) : (acknowledgeDma s).disp = s.disp := by
  unfold acknowledgeDma; split <;> rfl
theorem acknowledgeDma_int (s : State) : (acknowledgeDma s).int = s.int := by
  unfold acknowledgeDma; split <;> rfl

/-- The registers that `OnSP2` leaves where they were. -/
theorem onSP2_disp (p : Bits3) (pri : Bool) (s : State) :
    (onSP2 p pri s).disp.a = s.disp.a ∧ (onSP2 p pri s).disp.plb = s.disp.plb ∧
      (onSP2 p pri s).disp.lastCtrl = p ∧ (onSP2 p pri s).disp.cyc = (classify s.par.intack p).1 ∧
      (onSP2 p pri s).disp.al = (classify s.par.intack p).2 ∧
      (onSP2 p pri s).disp.schedLoad = (classify s.par.intack p).2 ∧
      (onSP2 p pri s).disp.schedInc =
        incDue s.par (classify s.par.intack p).1 (classify s.par.intack p).2 s.disp.a := by
  have h : (acknowledgeDma (driveHalt (arbStep (classify s.par.intack p).1 pri (beforeArbiter p s)))).disp =
      (setClassification p s).disp := by
    rw [acknowledgeDma_disp, driveHalt_state, arbStep_state]
    exact beforeArbiter_disp p s
  have hp : (acknowledgeDma (driveHalt (arbStep (classify s.par.intack p).1 pri (beforeArbiter p s)))).par = s.par := by
    have : (acknowledgeDma (driveHalt (arbStep (classify s.par.intack p).1 pri (beforeArbiter p s)))).par =
        (beforeArbiter p s).par := by
      unfold acknowledgeDma
      split <;> (rw [driveHalt_state, arbStep_state])
    rw [this]
    exact beforeArbiter_keeps (·.par) p s rfl respondRead_par
  rw [onSP2_eq]
  simp only [scheduleNext, h, hp]
  exact ⟨rfl, rfl, rfl, rfl, rfl, rfl, rfl⟩

/-- Once the dispatcher has been armed, `OnSP2` leaves the tables (R94). -/
theorem respondRead_tabs (s : State) (ho : s.en.armedOnce = true) : (respondRead s).tabs = s.tabs :=
  (respondRead_induct (P := fun t => t.en.armedOnce = true ∧ t.tabs = s.tabs) s ⟨ho, rfl⟩ (fun _ _ h => h)
    (fun t c ht => ⟨(applyCmd_armed t c ht.1).2.1, (applyCmd_armed t c ht.1).1.trans ht.2⟩) fun _ _ h => h).2

theorem onSP2_tabs (p : Bits3) (pri : Bool) (s : State) (ho : s.en.armedOnce = true) :
    (onSP2 p pri s).tabs = s.tabs := by
  rw [onSP2_eq]
  show (acknowledgeDma _).tabs = _
  rw [acknowledgeDma_tabs, driveHalt_state, arbStep_state]
  show (beforeArbiter p s).tabs = _
  unfold beforeArbiter
  split
  · exact respondRead_tabs _ ho
  · rfl

/-- The lines a class may move: `halt` follows the request, and the control lines stay (R74). -/
theorem onSP2_lines (p : Bits3) (pri : Bool) (s : State) :
    (onSP2 p pri s).lines.halt = (s.lines.halt || requestOutstanding s) ∧
      (onSP2 p pri s).lines.ctrlMode = s.lines.ctrlMode ∧ (onSP2 p pri s).lines.ctrlOut = s.lines.ctrlOut := by
  have hb : (beforeArbiter p s).lines.halt = s.lines.halt ∧ (beforeArbiter p s).lines.ctrlMode = s.lines.ctrlMode ∧
      (beforeArbiter p s).lines.ctrlOut = s.lines.ctrlOut := by
    unfold beforeArbiter
    split
    · obtain ⟨d, r, h, -⟩ := respondRead_lines (setClassification p s)
      rw [h]; exact ⟨rfl, rfl, rfl⟩
    · exact ⟨rfl, rfl, rfl⟩
  have ha : ∀ c t, (arbStep c pri t).lines.halt = t.lines.halt ∧ (arbStep c pri t).lines.ctrlMode = t.lines.ctrlMode ∧
      (arbStep c pri t).lines.ctrlOut = t.lines.ctrlOut := by
    intro c t
    unfold arbStep
    split
    · split
      · exact ⟨rfl, rfl, rfl⟩
      · split <;> exact ⟨rfl, rfl, rfl⟩
    · split
      · exact ⟨rfl, rfl, rfl⟩
      · split <;> exact ⟨rfl, rfl, rfl⟩
  have hd : (beforeArbiter p s).dma = s.dma :=
    beforeArbiter_keeps (·.dma) p s rfl respondRead_dma
  have hreq : requestOutstanding (arbStep (classify s.par.intack p).1 pri (beforeArbiter p s)) = requestOutstanding s := by
    rw [arbStep_state]
    show ((beforeArbiter p s).dma.request && !(beforeArbiter p s).dma.ack) = _
    rw [hd]; rfl
  rw [onSP2_eq]
  show (acknowledgeDma _).lines.halt = _ ∧ (acknowledgeDma _).lines.ctrlMode = _ ∧ (acknowledgeDma _).lines.ctrlOut = _
  simp only [acknowledgeDma_lines, driveHalt_state, hreq, (ha _ _).1, (ha _ _).2.1, (ha _ _).2.2, hb.1, hb.2.1, hb.2.2,
    and_self]

/-! The other fields after `OnSP2`, from the state in which `ArbStep` ran. -/

/-- The state in which `ArbStep` has run. -/
def afterArbiter (p : Bits3) (pri : Bool) (s : State) : State :=
  arbStep (classify s.par.intack p).1 pri (beforeArbiter p s)

theorem afterArbiter_eq (p : Bits3) (pri : Bool) (s : State) :
    afterArbiter p pri s = { beforeArbiter p s with
      lines := (afterArbiter p pri s).lines, int := (afterArbiter p pri s).int } :=
  arbStep_state _ _ _

/-- Without an acknowledge of this device's request, `OnSP2` changes no engine register and no enable beyond what the
read handler does. -/
theorem onSP2_unacknowledged (p : Bits3) (pri : Bool) (s : State)
    (h : (classify s.par.intack p).1 = .dmaAck → requestOutstanding s = false) :
    onSP2 p pri s = scheduleNext (driveHalt (afterArbiter p pri s)) := by
  have hr : requestOutstanding (driveHalt (afterArbiter p pri s)) = requestOutstanding s := by
    rw [driveHalt_state, afterArbiter_eq]
    show requestOutstanding (beforeArbiter p s) = _
    exact beforeArbiter_keeps requestOutstanding p s rfl fun t => by unfold requestOutstanding; rw [respondRead_dma]
  have hc : (driveHalt (afterArbiter p pri s)).disp.cyc = (classify s.par.intack p).1 := by
    rw [driveHalt_state, afterArbiter_eq]
    exact congrArg Dispatcher.cyc (beforeArbiter_disp p s)
  rw [onSP2_eq]
  show scheduleNext (acknowledgeDma (driveHalt (afterArbiter p pri s))) = _
  unfold acknowledgeDma
  rw [if_neg]
  rintro ⟨h1, h2⟩
  rw [hc] at h1
  rw [hr, h h1] at h2
  cases h2

/-- The pattern is no Read: nothing runs before the arbiter. -/
theorem beforeArbiter_unread {p : Bits3} {s : State} (h : (classify s.par.intack p).1 ≠ .read) :
    beforeArbiter p s = setClassification p s := if_neg h

/-- Two states with equal parameters and `dev` search the claims alike. -/
theorem firstClaim_congr {s t : State} (hp : s.par = t.par) (hd : s.dev = t.dev) (a : Bits16) (m : Sparse Nat) :
    firstClaim s a m = firstClaim t a m := by
  have hq : ∀ c, claimP s c a = claimP t c a := fun c => by unfold claimP; rw [hp, hd]
  induction m with
  | nil => rfl
  | cons d r ih =>
    obtain ⟨i, c⟩ := d
    simp only [firstClaim]
    rw [ih, hq]

theorem resolveWrite_congr {s t : State} (hp : s.par = t.par) (hd : s.dev = t.dev) (ht : s.tabs = t.tabs) (a : Bits16) :
    resolveWrite s a = resolveWrite t a := by
  unfold resolveWrite
  rw [ht, firstClaim_congr hp hd, hp]

/-- A write is scheduled exactly for a Write transaction, at the address as it stands (R72, R73). -/
theorem onSP2_schedWrite (p : Bits3) (pri : Bool) (s : State) :
    (onSP2 p pri s).disp.schedWrite =
      if (classify s.par.intack p).1 = .write ∧ (classify s.par.intack p).2 = false then resolveWrite s s.disp.a
      else none := by
  let t := acknowledgeDma (driveHalt (afterArbiter p pri s))
  have hd : t.disp = (setClassification p s).disp := by
    show (acknowledgeDma (driveHalt (afterArbiter p pri s))).disp = _
    rw [acknowledgeDma_disp, driveHalt_state, afterArbiter_eq]
    exact beforeArbiter_disp p s
  have hw : (classify s.par.intack p).1 = .write → resolveWrite t t.disp.a = resolveWrite s s.disp.a := by
    intro h
    have hb : beforeArbiter p s = setClassification p s := beforeArbiter_unread (by rw [h]; decide)
    rw [hd]
    have hk : ∀ {β : Type} (f : State → β), (∀ u l i, f { u with lines := l, int := i } = f u) →
        (∀ u : State, f { u with
          en := { u.en with armed := false }, dma := { u.dma with ack := true, request := false } } = f u) →
        f t = f (setClassification p s) := by
      intro β f h1 h2
      have e1 : f t = f (driveHalt (afterArbiter p pri s)) := by
        show f (acknowledgeDma _) = _
        unfold acknowledgeDma
        split
        · exact h2 _
        · rfl
      rw [e1, driveHalt_state, h1 (afterArbiter p pri s) _ (afterArbiter p pri s).int, afterArbiter_eq, h1, hb]
    apply resolveWrite_congr
    · exact hk (·.par) (fun _ _ _ => rfl) fun _ => rfl
    · exact hk (·.dev) (fun _ _ _ => rfl) fun _ => rfl
    · exact hk (·.tabs) (fun _ _ _ => rfl) fun _ => rfl
  show (if t.disp.cyc = .write ∧ t.disp.al = false then resolveWrite t t.disp.a else none) = _
  by_cases h : (classify s.par.intack p).1 = .write ∧ (classify s.par.intack p).2 = false
  · rw [if_pos h, if_pos (by rw [hd]; exact h), hw h.1]
  · rw [if_neg h, if_neg (by rw [hd]; exact h)]

theorem onP1F_marks (e : Option Byte) (s : State) : (onP1F e s).marks = (busValue e s).2.marks := by
  unfold onP1F
  simp only []
  rw [endDrive_keeps (·.marks) _ fun _ _ => rfl]

/-- `OnSP2` writes no engine register but the two flags of the handshake (R81). -/
theorem onSP2_dma (p : Bits3) (pri : Bool) (s : State) :
    ∃ a r, (onSP2 p pri s).dma = { s.dma with ack := a, request := r } := by
  have h : (driveHalt (afterArbiter p pri s)).dma = s.dma := by
    rw [driveHalt_state, afterArbiter_eq]
    exact beforeArbiter_keeps (·.dma) p s rfl respondRead_dma
  rw [onSP2_eq]
  show ∃ a r, (acknowledgeDma (driveHalt (afterArbiter p pri s))).dma = _
  unfold acknowledgeDma
  split
  · exact ⟨true, false, congrArg (fun d : Dma => { d with ack := true, request := false }) h⟩
  · exact ⟨s.dma.ack, s.dma.request, h⟩

/-! Which parts of an event run. -/

/-- An `EvP1F` with the dispatcher running is the dispatcher's step alone, with the peers'. -/
theorem evP1F_serving (d : Drive) (p : Bits3) (pri : Bool) {s : State} (h : dispatcherEnabled s = true)
    (ha : s.dma.active = false) :
    evP1F d p pri s =
      markEvent .p1f (onSP2 p pri (onP1F (others s d) (peersP1F (others s d) p s))) := by
  have he : dispatcherEnabled (peersP1F (others s d) p s) = true := by simpa [dispatcherEnabled] using h
  have hact : (onSP2 p pri (onP1F (others s d) (peersP1F (others s d) p s))).dma.active = false := by simp [ha]
  simp only [evP1F, he, if_true, hact, Bool.false_eq_true, if_false]

/-- An `EvP1F` while this device is bus master is the engine's step, with the peers' (R115). -/
theorem evP1F_master (d : Drive) (p : Bits3) (pri : Bool) {s : State} (h : s.en.armed = false)
    (ha : s.dma.active = true) :
    evP1F d p pri s =
      markEvent .p1f (engP1F (peersP1F (others s d) p s)) := by
  have he : dispatcherEnabled (peersP1F (others s d) p s) = false := by simp [dispatcherEnabled, h]
  simp only [evP1F, he, peersP1F_dma, ha, if_true, Bool.false_eq_true, if_false]

/-- An `EvP1F` with neither is the peers' step (R140). -/
theorem evP1F_asleep (d : Drive) (p : Bits3) (pri : Bool) {s : State} (h : dispatcherEnabled s = false)
    (ha : s.dma.active = false) :
    evP1F d p pri s =
      markEvent .p1f (peersP1F (others s d) p s) := by
  have he : dispatcherEnabled (peersP1F (others s d) p s) = false := by simpa [dispatcherEnabled] using h
  simp only [evP1F, he, peersP1F_dma, ha, Bool.false_eq_true, if_false]

theorem handoffStep_none {s : State} (h : handoffPending s = false) : handoffStep s = s := by
  simp [handoffStep, h]

/-- An `EvP1R` with the dispatcher running (no transfer acknowledged) is the dispatcher's step, with the peers'. -/
theorem evP1R_serving (d : Drive) {s : State} (h : dispatcherEnabled s = true) (hk : s.dma.ack = false)
    (ha : s.dma.active = false) :
    evP1R d s =
      markEvent .p1r (onP1R (others s d) (peersP1R (others s d) s)) := by
  have hn : handoffStep (peersP1R (others s d) s) = peersP1R (others s d) s :=
    handoffStep_none (by simp [handoffPending, hk])
  have he : dispatcherEnabled (peersP1R (others s d) s) = true := by simpa [dispatcherEnabled] using h
  simp only [evP1R, hn, he, if_true, onP1R_dma, peersP1R_dma, ha, Bool.false_eq_true, if_false]

/-- An `EvP1R` while this device is bus master is the engine's step, with the peers' (R115). -/
theorem evP1R_master (d : Drive) {s : State} (h : s.en.armed = false) (ha : s.dma.active = true) :
    evP1R d s =
      markEvent .p1r (engP1R (others s d) (peersP1R (others s d) s)) := by
  have hn : handoffStep (peersP1R (others s d) s) = peersP1R (others s d) s :=
    handoffStep_none (by simp [handoffPending, ha])
  have he : dispatcherEnabled (peersP1R (others s d) s) = false := by simp [dispatcherEnabled, h]
  simp only [evP1R, hn, he, peersP1R_dma, ha, if_true, Bool.false_eq_true, if_false]

@[simp] theorem handoffStep_en (s : State) : (handoffStep s).en = s.en := by
  unfold handoffStep; split <;> rfl

/-- An `EvP1R` that completes the handoff: the engine takes its first step as bus master (R68, R115). -/
theorem evP1R_handoff (d : Drive) {s : State} (h : s.en.armed = false) (hk : s.dma.ack = true)
    (ha : s.dma.active = false) :
    evP1R d s = markEvent .p1r (engP1R (others s d) (handoffStep (peersP1R (others s d) s))) := by
  have he : dispatcherEnabled (handoffStep (peersP1R (others s d) s)) = false := by simp [dispatcherEnabled, h]
  have hp : handoffPending (peersP1R (others s d) s) = true := by simp [handoffPending, hk, ha]
  have hact : (handoffStep (peersP1R (others s d) s)).dma.active = true := by simp [handoffStep, hp]
  simp only [evP1R, he, hact, if_true, Bool.false_eq_true, if_false]

/-- An `EvP1R` with neither dispatcher nor engine is the peers' step (R140). -/
theorem evP1R_asleep (d : Drive) {s : State} (h : dispatcherEnabled s = false) (hk : s.dma.ack = false)
    (ha : s.dma.active = false) : evP1R d s = markEvent .p1r (peersP1R (others s d) s) := by
  have hn : handoffStep (peersP1R (others s d) s) = peersP1R (others s d) s :=
    handoffStep_none (by simp [handoffPending, hk])
  have he : dispatcherEnabled (peersP1R (others s d) s) = false := by simpa [dispatcherEnabled] using h
  simp only [evP1R, hn, he, peersP1R_dma, ha, Bool.false_eq_true, if_false]

/-! An `EvP1F` with the dispatcher running, whatever its class. -/

theorem peersP1F_mem (e : Option Byte) (p : Bits3) (s : State) : (peersP1F e p s).peers.mem = s.peers.mem := rfl

theorem busValue_oneDriver {s : State} {d : Drive} {w : Byte} (h : OneDriver s d w) (t : State)
    (hl : t.lines = s.lines) : busValue (others s d) t = (w, t) := by
  rcases h with ⟨h1, h2⟩ | ⟨h1, h2⟩
  · rw [h1]; exact busValue_others w (by rw [hl, h2])
  · rw [h1]; exact busValue_own (by rw [hl, h2])

theorem busValue_fault (e : Option Byte) (s : State) :
    (busValue e s).2.marks.fault =
      if e.isSome = true ∧ s.lines.drvD.isSome = true then some .busContention else s.marks.fault := by
  unfold busValue
  cases e <;> cases s.lines.drvD <;> rfl

theorem cycleDone (d : Drive) (p : Bits3) (pri : Bool) {s : State} (hc : Coherent s)
    (h : dispatcherEnabled s = true) :
    CycleDone s (evP1F d p pri s) d p (classify s.par.intack p).1 (classify s.par.intack p).2
      (busValue (others s d) (peersP1F (others s d) p s)).1 := by
  obtain ⟨hk, ha, ho, -, -⟩ := hc.serving h
  rw [evP1F_serving d p pri h ha]
  have hd := onSP2_disp p pri (onP1F (others s d) (peersP1F (others s d) p s))
  have hl := onSP2_lines p pri (onP1F (others s d) (peersP1F (others s d) p s))
  simp only [onP1F_par, peersP1F_par, onP1F_disp, peersP1F_disp] at hd
  simp only [onP1F_lines, peersP1F_lines, requestOutstanding, onP1F_dma, peersP1F_dma, hk] at hl
  have hf : (onP1F (others s d) (peersP1F (others s d) p s)).marks.fault =
      if Contended s d then some .busContention else s.marks.fault := by
    have e2 : (peersP1F (others s d) p s).marks = (busValue (others s d) s).2.marks := rfl
    rw [onP1F_marks, busValue_fault, e2, busValue_fault, peersP1F_lines]
    unfold Contended
    split <;> rfl
  constructor
  case captured =>
    intro w hw
    rw [busValue_oneDriver hw _ (peersP1F_lines _ _ _)]
  case contention => show (onSP2 _ _ _).marks.fault = _; rw [onSP2_fault, hf]
  case address => exact hd.1
  case low_byte => exact hd.2.1
  case classified => exact ⟨hd.2.2.1, hd.2.2.2.1, hd.2.2.2.2.1⟩
  case load_scheduled => exact hd.2.2.2.2.2.1
  case inc_scheduled =>
    rw [markEvent_disp, hd.2.2.2.2.2.2, hd.1]
    simp [incDue, isIo, and_assoc]
  case halt => simpa using hl.1
  case control_lines => exact hl.2
  case event => rfl
  case kept =>
    have htabs : (onSP2 p pri (onP1F (others s d) (peersP1F (others s d) p s))).tabs = s.tabs := by
      rw [onSP2_tabs _ _ _ (by simpa using ho)]; simp
    exact ⟨by simp, htabs, by simp, by simp, by simp, by simp, by simp, by simp⟩
  case host_memory => intro a; show hostRead (onSP2 _ _ _).peers.mem a = _; simp [peersP1F_mem]

/-! What the peers and the engine leave of each other. -/

theorem dmaNextCycle_keeps {β : Type} (f : State → β) (s : State)
    (h : ∀ t l d e g, f { t with lines := l, dma := d, en := e, fg := g } = f t) : f (dmaNextCycle s) = f s := by
  rcases dmaNextCycle_cases s with ⟨-, -, e⟩ | ⟨-, -, e⟩ | ⟨-, -, -, -, e⟩ | ⟨-, -, -, -, e⟩ | ⟨-, -, -, e⟩ |
    ⟨-, -, -, e⟩ <;> rw [e]
  · exact h s _ _ _ _
  · exact h s _ s.dma s.en s.fg
  · exact h s _ _ s.en s.fg
  · exact h s _ _ s.en s.fg
  · exact h s _ _ s.en s.fg
  · exact h s _ _ s.en s.fg

/-- The engine's rising edge changes lines, its own registers, enables, the foreground context, `BUF`, draws and the fault
record, and nothing else (R30, R115). -/
theorem engP1R_keeps {β : Type} (f : State → β) (e : Option Byte) (s : State)
    (h : ∀ t l d e g, f { t with lines := l, dma := d, en := e, fg := g } = f t)
    (hb : ∀ t n x b, f { t with draws := n, marks := { t.marks with fault := x }, buf := b } = f t) :
    f (engP1R e s) = f s := by
  unfold engP1R
  split
  · exact h s _ _ _ s.fg
  · exact h s _ _ s.en s.fg
  · exact h s _ _ s.en s.fg
  · rw [dmaNextCycle_keeps f _ h]
    split
    · obtain ⟨n, x, b, w0, w1, hd⟩ := dmaDataEdge_state e s
      rw [hd]
      exact (h { s with draws := n, marks := { s.marks with fault := x }, buf := b } s.lines _ s.en s.fg).trans
        (hb s n x b)
    · rfl
  · exact dmaNextCycle_keeps f _ h
  · rfl
  · rfl

/-- The engine's falling edge changes lines, its own registers, enables and the foreground context, and nothing else. -/
theorem engP1F_keeps {β : Type} (f : State → β) (s : State)
    (h : ∀ t l d e g, f { t with lines := l, dma := d, en := e, fg := g } = f t) : f (engP1F s) = f s := by
  have he : f (dmaEndDrive s) = f s := h s _ _ s.en s.fg
  unfold engP1F
  split <;> try exact he
  · exact (h _ _ _ (dmaEndDrive s).en (dmaEndDrive s).fg).trans he
  · exact (h _ _ _ (dmaEndDrive s).en (dmaEndDrive s).fg).trans he
  · have hd : f (dmaDriveData (dmaEndDrive s)) = f s := by
      unfold dmaDriveData
      split
      · exact (h _ _ (dmaEndDrive s).dma (dmaEndDrive s).en (dmaEndDrive s).fg).trans he
      · exact he
    unfold dmaLateRelease
    split
    · exact (h _ _ _ _ _).trans hd
    · exact hd

/-- Over `EvP1R` the peers do what they do, and no one else writes their state (R38). -/
theorem evP1R_peers (d : Drive) (s : State) : (evP1R d s).peers = (peersP1R (others s d) s).peers := by
  have hh : (handoffStep (peersP1R (others s d) s)).peers = (peersP1R (others s d) s).peers := by
    unfold handoffStep; split <;> rfl
  have he : ∀ e t, (engP1R e t).peers = t.peers := fun e t =>
    engP1R_keeps (·.peers) e t (fun _ _ _ _ _ => rfl) fun _ _ _ _ => rfl
  unfold evP1R
  simp only [markEvent_peers]
  split <;> split <;> simp [he, hh]

/-- The same over `EvP1F`. -/
theorem evP1F_peers (d : Drive) (p : Bits3) (pri : Bool) (s : State) :
    (evP1F d p pri s).peers = (peersP1F (others s d) p s).peers := by
  have he : ∀ t, (engP1F t).peers = t.peers := fun t => engP1F_keeps (·.peers) t fun _ _ _ _ _ => rfl
  unfold evP1F
  simp only [markEvent_peers]
  split <;> split <;> simp [he]

/-! A byte of a transfer. -/

/-- With one driver at a rising edge the peers' capture draws nothing: only their own state can move. -/
theorem peersP1R_oneDriver {s : State} {d : Drive} {v : Byte} (h : OneDriver s d v) :
    peersP1R (others s d) s = { s with peers := (peersP1R (others s d) s).peers } := by
  unfold peersP1R
  split
  · rfl
  · rw [busValue_oneDriver h s rfl]

/-- The scratch keeps its bytes between data edges (R120). -/
theorem dmaNextCycle_scratch (s : State) :
    (dmaNextCycle s).dma.wbuf0 = s.dma.wbuf0 ∧ (dmaNextCycle s).dma.wbuf1 = s.dma.wbuf1 := by
  rcases dmaNextCycle_cases s with ⟨-, -, e⟩ | ⟨-, -, e⟩ | ⟨-, -, -, -, e⟩ | ⟨-, -, -, -, e⟩ | ⟨-, -, -, e⟩ |
    ⟨-, -, -, e⟩ <;> rw [e] <;> exact ⟨rfl, rfl⟩

/-- The data edge of a byte, as bus master: the byte is transferred, and `NextCycle` goes on (R120). -/
theorem evP1R_dataEdge (d : Drive) {s : State} (ha : s.dma.active = true) (h : s.en.armed = false)
    (hx : s.dma.state = .dXfer) (hp : s.dma.xferPending = true) :
    evP1R d s = markEvent .p1r (dmaNextCycle (dmaDataEdge (others s d) (peersP1R (others s d) s))) := by
  rw [evP1R_master d h ha]
  simp [engP1R, hx, hp]

/-- The data edge of a read with one driver stores the driven byte (R120). -/
theorem dmaDataEdge_read {s t : State} {d : Drive} {v : Byte} (h : OneDriver s d v) (hl : t.lines = s.lines)
    (hd : t.dma.dir = .rd) :
    dmaDataEdge (others s d) t =
      let u := dmaStore t.dma.k v t
      { u with dma := { u.dma with k := u.dma.k + 1, xferPending := false } } := by
  unfold dmaDataEdge
  simp only [hd, busValue_oneDriver h t hl]

end Sys2Proof.Machine
end

