-- ==== Sys2Proof/Laws/Classes.lean ====
section
/-! SUPPORT. What `OnSP2` does for a class that is no acknowledge of this device (R71, R72, R100), after the falling edge
has left the lines silent. -/

namespace Sys2Proof.Machine
open Sys2Proof

/-- What `OnP1F` leaves of a state: everything but the address registers, the drive, draws and the fault record. -/
structure FallenFrom (u s : State) : Prop where
  par : u.par = s.par
  int : u.int = s.int
  dma : u.dma = s.dma
  dev : u.dev = s.dev
  en : u.en = s.en
  fg : u.fg = s.fg
  trace : u.trace = s.trace
  refused : u.marks.refused = s.marks.refused
  tabs : u.tabs = s.tabs
  lines : u.lines = { s.lines with drvD := none, rdy := false }

/-- With `RDY` only where the device drives (invariant 7 of R31), the falling edge releases both. -/
theorem fallenFrom {s : State} (h : s.lines.rdy = true → s.lines.drvD ≠ none) (e : Option Byte) (p : Bits3) :
    FallenFrom (onP1F e (peersP1F e p s)) s := by
  refine ⟨by simp, by simp, by simp, by simp, by simp, by simp, by simp, by simp, by simp, ?_⟩
  simp only [onP1F_lines, peersP1F_lines]
  by_cases hd : s.lines.drvD = none
  · have hr : s.lines.rdy = false := by
      cases hr : s.lines.rdy with
      | false => rfl
      | true => exact absurd hd (h hr)
    simp [hd, hr]
  · simp [hd]

theorem interruptReady_iff (s : State) :
    interruptReady s = true ↔ s.int.pending = true ∧ s.int.enable = true ∧ s.int.want = true := by
  simp [interruptReady, and_assoc]

/-- From a state in which no handler has run, a class that is no interrupt acknowledge leaves the data lines and, of the
rest, moves only the arbiter and the schedule. -/
theorem classFrame {s v : State} {cyc : BusState} (hc : cyc ≠ .interruptAck) (pri : Bool) (h1 : v.dev = s.dev)
    (h2 : v.dma = s.dma) (h3 : v.en = s.en) (h4 : v.fg = s.fg) (h5 : v.trace = s.trace)
    (h6 : v.marks.refused = s.marks.refused) (h7 : v.int = s.int) (h8 : v.lines.irq = s.lines.irq)
    (h9 : v.lines.priOut = s.lines.priOut) :
    let t := markEvent .p1f (scheduleNext (driveHalt (arbStep cyc pri v)))
    t.lines.drvD = v.lines.drvD ∧ t.lines.rdy = v.lines.rdy ∧ NoHandlerFrame s t ∧ ArbiterOutsideAck s t := by
  have hr : interruptReady v = interruptReady s := by unfold interruptReady; rw [h7]
  rw [driveHalt_state, arbStep_outside hc, hr, h7]
  simp only [interruptReady_iff, ArbiterOutsideAck, NoHandlerFrame]
  by_cases hq : s.int.arb = .idle ∧ s.int.pending = true ∧ s.int.enable = true ∧ s.int.want = true
  · rw [if_pos hq, if_pos hq]
    simp [assertRequest, scheduleNext, *]
  · rw [if_neg hq, if_neg hq]
    simp [scheduleNext, *]

/-- A class that is no Read and acknowledges nothing: silence, the arbiter, the schedule. -/
theorem onSP2_silent {s u : State} {p : Bits3} (pri : Bool) (hu : FallenFrom u s)
    (h1 : (classify s.par.intack p).1 ≠ .read) (h2 : (classify s.par.intack p).1 ≠ .interruptAck)
    (h3 : (classify s.par.intack p).1 = .dmaAck → requestOutstanding s = false) :
    let t := markEvent .p1f (onSP2 p pri u)
    Silent t ∧ NoHandlerFrame s t ∧ ArbiterOutsideAck s t ∧
      t.disp.schedWrite =
        if (classify s.par.intack p).1 = .write ∧ (classify s.par.intack p).2 = false then resolveWrite s t.disp.a
        else none := by
  have h3' : (classify u.par.intack p).1 = .dmaAck → requestOutstanding u = false := by
    unfold requestOutstanding
    rw [hu.par, hu.dma]
    exact h3
  have hb : beforeArbiter p u = setClassification p u := beforeArbiter_unread (by rw [hu.par]; exact h1)
  have hw : (markEvent .p1f (onSP2 p pri u)).disp.schedWrite =
      if (classify s.par.intack p).1 = .write ∧ (classify s.par.intack p).2 = false then
        resolveWrite s (markEvent .p1f (onSP2 p pri u)).disp.a
      else none := by
    rw [markEvent_disp, onSP2_schedWrite, hu.par, resolveWrite_congr hu.par hu.dev hu.tabs, (onSP2_disp p pri u).1]
  have hf := classFrame (v := setClassification p u) h2 pri hu.dev hu.dma hu.en hu.fg hu.trace hu.refused hu.int
    (by show u.lines.irq = _; rw [hu.lines]) (by show u.lines.priOut = _; rw [hu.lines])
  have hl : (setClassification p u).lines.drvD = none ∧ (setClassification p u).lines.rdy = false := by
    show u.lines.drvD = none ∧ u.lines.rdy = false
    rw [hu.lines]; exact ⟨rfl, rfl⟩
  have he : onSP2 p pri u = scheduleNext (driveHalt (arbStep (classify s.par.intack p).1 pri (setClassification p u))) := by
    rw [onSP2_unacknowledged p pri u h3']
    unfold afterArbiter
    rw [hb, hu.par]
  refine ⟨?_, ?_, ?_, hw⟩
  · rw [he]; exact ⟨hf.1.trans hl.1, hf.2.1.trans hl.2⟩
  · rw [he]; exact hf.2.2.1
  · rw [he]; exact hf.2.2.2

/-- A Read is answered by the first accessor, or met with silence (R71, R77, R78). -/
theorem onSP2_read {s u : State} {p : Bits3} (pri : Bool) (hu : FallenFrom u s)
    (h1 : (classify s.par.intack p).1 = .read) :
    ReadAnswered s (markEvent .p1f (onSP2 p pri u)) u.disp.a := by
  have h2 : (classify s.par.intack p).1 ≠ .interruptAck := by rw [h1]; decide
  have hb : beforeArbiter p u = respondRead (setClassification p u) := by
    unfold beforeArbiter
    rw [if_pos]
    show (classify u.par.intack p).1 = _
    rw [hu.par, h1]
  have he : onSP2 p pri u =
      scheduleNext (driveHalt (arbStep (classify s.par.intack p).1 pri (respondRead (setClassification p u)))) := by
    rw [onSP2_unacknowledged p pri u (by rw [hu.par, h1]; intro h; cases h)]
    unfold afterArbiter
    rw [hb, hu.par]
  have hfc : firstClaim (setClassification p u) u.disp.a s.tabs.claims = firstClaim s u.disp.a s.tabs.claims :=
    firstClaim_congr (s := setClassification p u) (t := s) hu.par hu.dev _ _
  have hcr : ∀ c, claimR (setClassification p u) c u.disp.a = claimR s c u.disp.a := fun c => by
    unfold claimR
    rw [show (setClassification p u).par = s.par from hu.par, show (setClassification p u).dev = s.dev from hu.dev]
  have hrh : ∀ c, readH (setClassification p u) c = readH s c := fun c => by
    unfold readH
    rw [show (setClassification p u).par = s.par from hu.par, show (setClassification p u).dev = s.dev from hu.dev]
  have hio : isIo u.par u.disp.a = decide (highByte u.disp.a = s.par.ioPage) := by rw [hu.par]; rfl
  have hirq : (setClassification p u).lines.irq = s.lines.irq := by show u.lines.irq = _; rw [hu.lines]
  have hpri : (setClassification p u).lines.priOut = s.lines.priOut := by show u.lines.priOut = _; rw [hu.lines]
  have hl : (setClassification p u).lines.drvD = none ∧ (setClassification p u).lines.rdy = false := by
    show u.lines.drvD = none ∧ u.lines.rdy = false
    rw [hu.lines]; exact ⟨rfl, rfl⟩
  have hf := fun v : State => classFrame (s := s) (v := v) h2 pri
  have rr : respondRead (setClassification p u) = respondRead (setClassification p u) := rfl
  conv at rr => rhs; unfold respondRead; simp only []
  rw [show (setClassification p u).disp.a = u.disp.a from rfl] at rr
  unfold resolveRead at rr
  rw [show (setClassification p u).tabs = s.tabs from hu.tabs, hfc,
    show (setClassification p u).par = u.par from rfl, hio] at rr
  unfold ReadAnswered
  rw [he]
  cases hc : firstClaim s u.disp.a s.tabs.claims with
  | some x =>
    obtain ⟨i, c⟩ := x
    simp only [hc, hcr] at rr ⊢
    rw [rr]
    have F := hf { setClassification p u with
      lines := { (setClassification p u).lines with drvD := some (claimR s c u.disp.a), rdy := true } }
      hu.dev hu.dma hu.en hu.fg hu.trace hu.refused hu.int hirq hpri
    exact ⟨⟨F.1, F.2.1⟩, F.2.2.1, F.2.2.2⟩
  | none =>
    simp only [hc, decide_eq_true_eq] at rr ⊢
    have F := hf (setClassification p u) hu.dev hu.dma hu.en hu.fg hu.trace hu.refused hu.int hirq hpri
    by_cases hq : highByte u.disp.a = s.par.ioPage
    · rw [if_pos hq] at rr ⊢
      cases hg : sparseGet (lowByte u.disp.a).toNat s.tabs.rdTab with
      | none =>
        simp only [hg] at rr ⊢
        rw [rr]
        exact ⟨⟨F.1.trans hl.1, F.2.1.trans hl.2⟩, F.2.2.1, F.2.2.2⟩
      | some h =>
        simp only [hg] at rr ⊢
        rw [rr]
        unfold callReadHandler
        simp only [hrh]
        have hs : CommandsSee { setClassification p u with dev := (readH s h).dev } { s with dev := (readH s h).dev } :=
          ⟨hu.par, hu.tabs, hu.en, hu.int, hu.fg, hu.trace, hu.refused⟩
        have hv := applyCmds_see (readH s h).cmds hs
        cases (readH s h).claimed with
        | true =>
          simp only [if_true]
          have F := classFrame (s := applyCmds (readH s h).cmds { s with dev := (readH s h).dev })
            (v := { applyCmds (readH s h).cmds { setClassification p u with dev := (readH s h).dev } with
              lines := { (applyCmds (readH s h).cmds { setClassification p u with dev := (readH s h).dev }).lines with
                drvD := some (readH s h).value, rdy := true } })
            h2 pri (by simp) (by simpa using hu.dma) hv.en hv.fg hv.trace hv.refused hv.int
            (by simpa using hirq) (by simpa using hpri)
          exact ⟨⟨F.1, F.2.1⟩, F.2.2.1, F.2.2.2⟩
        | false =>
          simp only [if_false, Bool.false_eq_true]
          have F := classFrame (s := applyCmds (readH s h).cmds { s with dev := (readH s h).dev })
            (v := applyCmds (readH s h).cmds { setClassification p u with dev := (readH s h).dev })
            h2 pri (by simp) (by simpa using hu.dma) hv.en hv.fg hv.trace hv.refused hv.int
            (by simpa using hirq) (by simpa using hpri)
          exact ⟨⟨F.1.trans (by simpa using hl.1), F.2.1.trans (by simpa using hl.2)⟩, F.2.2.1, F.2.2.2⟩
    · rw [if_neg hq] at rr ⊢
      simp only [] at rr ⊢
      rw [rr]
      exact ⟨⟨F.1.trans hl.1, F.2.1.trans hl.2⟩, F.2.2.1, F.2.2.2⟩

end Sys2Proof.Machine
end

