-- ==== Sys2Proof/Laws/Decoding.lean ====
section
/-! SUPPORT. What the operand readers of the decoder answer on the numbers the encoder writes. -/

namespace Sys2Proof

@[simp] theorem takeBelow_byte (v : Byte) (r : List Nat) : takeBelow 256 (v.toNat :: r) = .ok (v.toNat, r) :=
  if_pos v.isLt

@[simp] theorem takeBelow_bits16 (v : Bits16) (r : List Nat) : takeBelow 65536 (v.toNat :: r) = .ok (v.toNat, r) :=
  if_pos v.isLt

@[simp] theorem takeNat_cons (n : Nat) (r : List Nat) : takeNat (n :: r) = .ok (n, r) := rfl

@[simp] theorem takeNatNat_cons (f : Nat → Nat → Instr) (n m : Nat) (r : List Nat) :
    takeNatNat f (n :: m :: r) = .ok (f n m, r) := rfl

@[simp] theorem takeBlock_bits16 (f : Nat → Nat → Nat → Instr) (v : Bits16) (n m : Nat) (r : List Nat) :
    takeBlock f (v.toNat :: n :: m :: r) = .ok (f v.toNat n m, r) := by
  simp [takeBlock]

@[simp] theorem takeBelow_bool (b : Bool) (r : List Nat) : takeBelow 2 (b.toNat :: r) = .ok (b.toNat, r) := by
  cases b <;> rfl

@[simp] theorem optionOfNat_natOfOption (o : Option Nat) : optionOfNat (natOfOption o) = o := by
  cases o <;> rfl

@[simp] theorem toNat_beq_one (b : Bool) : (b.toNat == 1) = b := by
  cases b <;> rfl

end Sys2Proof
end

