-- ==== Sys2Proof/Laws/Invariants.lean ====
section
/-! SUPPORT. The fields that each invariant is about: a state that agrees on them meets it too. -/

namespace Sys2Proof.Machine
open Sys2Proof

theorem Coherent.congr {s t : State} (h : Coherent s) (h1 : t.dma.active = s.dma.active)
    (h2 : t.dma.ack = s.dma.ack) (h3 : t.dma.request = s.dma.request) (h4 : t.dma.state = s.dma.state)
    (h5 : t.fg.wait = s.fg.wait) (h6 : t.en.armed = s.en.armed) (h7 : t.en.armedOnce = s.en.armedOnce)
    (h8 : t.lines.ctrlMode = s.lines.ctrlMode) (h9 : t.lines.rdy = s.lines.rdy) (h10 : t.lines.drvD = s.lines.drvD)
    (h11 : t.disp.schedLoad = s.disp.schedLoad) (h12 : t.disp.schedInc = s.disp.schedInc) : Coherent t := by
  obtain ⟨⟨a1, a2, a3, a4, a5, a6⟩, b1, b2, b3, b4, b5, b6, b7⟩ := h
  constructor
  · constructor <;> simp only [*] <;> assumption
  all_goals simp only [*] <;> assumption

theorem InRange.congr {s t : State} (h : InRange s) (h1 : t.par = s.par) (h2 : t.dma.count = s.dma.count)
    (h3 : t.dma.k = s.dma.k) (h4 : t.dma.burstK = s.dma.burstK) (h5 : t.dma.yieldK = s.dma.yieldK)
    (h6 : t.trace.idx = s.trace.idx) (h7 : t.dma.xferPending = s.dma.xferPending)
    (h8 : t.dma.state = s.dma.state) (h9 : t.dma.tgt = s.dma.tgt) : InRange t := by
  obtain ⟨a1, a2, a3, a4, a5, a6, a7, a8, a9, a10⟩ := h
  constructor <;> simp only [*] <;> assumption

theorem Canonical.congr {s t : State} (h : Canonical s) (h1 : t.peers.mem = s.peers.mem) (h2 : t.buf = s.buf)
    (h3 : t.tabs = s.tabs) (h4 : t.trace.buf = s.trace.buf) (h5 : t.par = s.par) : Canonical t := by
  obtain ⟨a1, a2, a3, a4, a5, a6⟩ := h
  constructor <;> simp only [h1, h2, h3, h4, h5] <;> assumption

end Sys2Proof.Machine
end

