-- ==== Sys2Proof/Laws/Operands.lean ====
section
/-! SUPPORT. Addresses as numbers: assembly, the two fields, the increment. -/

namespace Sys2Proof.Machine
open Sys2Proof

theorem assemble_toNat (h l : Byte) : (assemble h l).toNat = h.toNat * 256 + l.toNat := by
  show (h ++ l).toNat = _
  rw [BitVec.toNat_append, ← Nat.shiftLeft_add_eq_or_of_lt l.isLt, Nat.shiftLeft_eq]

theorem lowByte_toNat (a : Bits16) : (lowByte a).toNat = a.toNat % 256 := by
  simp [lowByte, BitVec.extractLsb'_toNat]

theorem highByte_toNat (a : Bits16) : (highByte a).toNat = a.toNat / 256 := by
  have := a.isLt
  simp [highByte, BitVec.extractLsb'_toNat, Nat.shiftRight_eq_div_pow]
  omega

/-- The two fields of an assembled address are its bytes (R55, R56). -/
@[simp] theorem lowByte_assemble (h l : Byte) : lowByte (assemble h l) = l := by
  apply BitVec.eq_of_toNat_eq
  have := l.isLt
  rw [lowByte_toNat, assemble_toNat]
  omega

@[simp] theorem highByte_assemble (h l : Byte) : highByte (assemble h l) = h := by
  apply BitVec.eq_of_toNat_eq
  have := l.isLt
  rw [highByte_toNat, assemble_toNat]
  omega

@[simp] theorem assemble_fields (a : Bits16) : assemble (highByte a) (lowByte a) = a := by
  apply BitVec.eq_of_toNat_eq
  rw [assemble_toNat, highByte_toNat, lowByte_toNat]
  omega

theorem incr16_toNat (a : Bits16) : (incr16 a).toNat = (a.toNat + 1) % 65536 := by
  simp [incr16, BitVec.toNat_add]

end Sys2Proof.Machine
end

