-- ==== Sys2Proof/Laws/PerInstr.lean ====
section
/-! SUPPORT. Statements made of every instruction as syntax, one lemma per constructor. -/

/-- Each instruction belongs to exactly one of the two formats of R51 and R58, for every INTACK_PATTERN: a bus-cycle class
has a pattern and no command words, and a command has words and no pattern. -/
def Sys2Proof.Laws.Format.Statement (i : Sys2Proof.Instr) : Prop :=
  ∀ k : Sys2Proof.IntAckPattern,
    (Sys2Proof.encodeCycle k i).isSome = !i.isCommand ∧ (Sys2Proof.encodeCmd i).isEmpty = !i.isCommand

namespace Sys2Proof.Laws
open Sys2Proof

theorem Format.idle (e : Drive) (pri : Bool) : Format.Statement (.idle e pri) := fun _ => ⟨rfl, rfl⟩
theorem Format.addrLoad (e : Drive) (pri : Bool) : Format.Statement (.addrLoad e pri) := fun _ => ⟨rfl, rfl⟩
theorem Format.read (e : Drive) (pri : Bool) : Format.Statement (.read e pri) := fun _ => ⟨rfl, rfl⟩
theorem Format.readAl (wr : Bool) (e : Drive) (pri : Bool) : Format.Statement (.readAl wr e pri) := fun _ => ⟨rfl, rfl⟩
theorem Format.write (e : Drive) (pri : Bool) : Format.Statement (.write e pri) := fun _ => ⟨rfl, rfl⟩
theorem Format.writeAl (e : Drive) (pri : Bool) : Format.Statement (.writeAl e pri) := fun _ => ⟨rfl, rfl⟩
theorem Format.dmaAck (e : Drive) (pri : Bool) : Format.Statement (.dmaAck e pri) := fun _ => ⟨rfl, rfl⟩
theorem Format.intAck (e : Drive) (pri : Bool) : Format.Statement (.intAck e pri) := fun _ => ⟨rfl, rfl⟩
theorem Format.regRead (lo : Byte) (h : Nat) : Format.Statement (.regRead lo h) := fun _ => ⟨rfl, rfl⟩
theorem Format.regWrite (lo : Byte) (h : Nat) : Format.Statement (.regWrite lo h) := fun _ => ⟨rfl, rfl⟩
theorem Format.unregister (lo : Byte) : Format.Statement (.unregister lo) := fun _ => ⟨rfl, rfl⟩
theorem Format.claimSet (n : Nat) (c : Option Nat) : Format.Statement (.claimSet n c) := fun _ => ⟨rfl, rfl⟩
theorem Format.arm : Format.Statement .arm := fun _ => ⟨rfl, rfl⟩
theorem Format.traceStart : Format.Statement .traceStart := fun _ => ⟨rfl, rfl⟩
theorem Format.traceStop : Format.Statement .traceStop := fun _ => ⟨rfl, rfl⟩
theorem Format.intSetVector (v : Byte) : Format.Statement (.intSetVector v) := fun _ => ⟨rfl, rfl⟩
theorem Format.intEnable (b : Bool) : Format.Statement (.intEnable b) := fun _ => ⟨rfl, rfl⟩
theorem Format.intRequest (b : Bool) : Format.Statement (.intRequest b) := fun _ => ⟨rfl, rfl⟩
theorem Format.intWant (b : Bool) : Format.Statement (.intWant b) := fun _ => ⟨rfl, rfl⟩
theorem Format.dmaReadBlock (addr : Bits16) (buf : Option Nat) (count : Nat) : Format.Statement (.dmaReadBlock addr buf count) := fun _ => ⟨rfl, rfl⟩
theorem Format.dmaWriteBlock (addr : Bits16) (buf : Option Nat) (count : Nat) : Format.Statement (.dmaWriteBlock addr buf count) := fun _ => ⟨rfl, rfl⟩
theorem Format.dmaReadByte (addr : Bits16) : Format.Statement (.dmaReadByte addr) := fun _ => ⟨rfl, rfl⟩
theorem Format.dmaWriteByte (addr : Bits16) (v : Byte) : Format.Statement (.dmaWriteByte addr v) := fun _ => ⟨rfl, rfl⟩
theorem Format.dmaReadWord (addr : Bits16) : Format.Statement (.dmaReadWord addr) := fun _ => ⟨rfl, rfl⟩
theorem Format.dmaWriteWord (addr : Bits16) (v : Bits16) : Format.Statement (.dmaWriteWord addr v) := fun _ => ⟨rfl, rfl⟩
theorem Format.reserved (op : Byte) : Format.Statement (.reserved op) := fun _ => ⟨rfl, rfl⟩

end Sys2Proof.Laws
end

