-- ==== Sys2Proof/Laws/Step.lean ====
section
/-! SUPPORT. What one step can do. -/

namespace Sys2Proof.Machine
open Sys2Proof

/-- A class is the event with the pattern it stands for (R53, R65). -/
theorem exec_of_encodeCycle {s : State} {i : Instr} {p : Bits3} {e : Drive} {pri : Bool}
    (h : encodeCycle s.par.intack i = some (p, e, pri)) : exec i s = .next (evP1F e p pri s) := by
  cases i <;> simp only [encodeCycle, Option.some.injEq, Prod.mk.injEq, reduceCtorEq] at h
  all_goals
    obtain ⟨rfl, rfl, rfl⟩ := h
    rfl

theorem exec_decodeCycle (s : State) (p : Bits3) (e : Drive) (pri : Bool) :
    exec (decodeCycle s.par.intack p e pri) s = .next (evP1F e p pri s) := by
  apply exec_of_encodeCycle
  have hp : ∀ q : Bits3, q ∈ ([0, 1, 2, 3, 4, 5, 6, 7] : List Bits3) := by decide
  have := hp p
  simp only [List.mem_cons, List.not_mem_nil, or_false] at this
  rcases this with rfl | rfl | rfl | rfl | rfl | rfl | rfl | rfl <;> cases s.par.intack <;> rfl

/-- What the decoder reads is a command. -/
theorem decodeOperands_isCommand {op : Nat} {r : List Nat} {i : Instr} {rest : List Nat}
    (h : decodeOperands op r = .ok (i, rest)) : i.isCommand = true := by
  have hone : ∀ {b f}, (∀ x, (f x).isCommand = true) → takeOne b f r = .ok (i, rest) → i.isCommand = true := by
    intro b f hf h
    unfold takeOne at h
    split at h
    · cases h; exact hf _
    · cases h
  have hbn : ∀ {b f}, (∀ x y, (f x y).isCommand = true) → takeBelowNat b f r = .ok (i, rest) → i.isCommand = true := by
    intro b f hf h
    unfold takeBelowNat at h
    split at h
    · split at h
      · cases h; exact hf _ _
      · cases h
    · cases h
  have htwo : ∀ {b c f}, (∀ x y, (f x y).isCommand = true) → takeTwo b c f r = .ok (i, rest) → i.isCommand = true := by
    intro b c f hf h
    unfold takeTwo at h
    split at h
    · split at h
      · cases h; exact hf _ _
      · cases h
    · cases h
  have hnn : ∀ {f q}, (∀ x y, (f x y).isCommand = true) → takeNatNat f q = .ok (i, rest) → i.isCommand = true := by
    intro f q hf h
    unfold takeNatNat at h
    split at h
    · split at h
      · cases h; exact hf _ _
      · cases h
    · cases h
  have hblk : ∀ {f}, (∀ x y z, (f x y z).isCommand = true) → takeBlock f r = .ok (i, rest) → i.isCommand = true := by
    intro f hf h
    unfold takeBlock at h
    split at h
    · exact hnn (hf _) h
    · cases h
  unfold decodeOperands at h
  split at h <;> first
    | exact hone (fun _ => rfl) h
    | exact hbn (fun _ _ => rfl) h
    | exact htwo (fun _ _ => rfl) h
    | exact hnn (fun _ _ => rfl) h
    | exact hblk (fun _ _ _ => rfl) h
    | (cases h; rfl)

theorem decodeCmd_isCommand {ws : List Nat} {i : Instr} {rest : List Nat} (h : decodeCmd ws = .ok (i, rest)) :
    i.isCommand = true := by
  unfold decodeCmd at h
  split at h
  · cases h
  · split at h
    · exact decodeOperands_isCommand h
    · cases h

/-- A foreground command is one that a handler may issue too, and then does the same, or a DMA command. -/
theorem exec_command (c : Cmd) (s : State) :
    exec c.1 s = .next (applyCmd s c) ∨
      (∃ addr buf n, exec c.1 s = .next (dmaReadBlock addr buf n s)) ∨
      (∃ addr buf n, exec c.1 s = .next (dmaWriteBlock addr buf n s)) ∨
      (∃ addr, exec c.1 s = .next (dmaReadByte addr s)) ∨ (∃ addr v, exec c.1 s = .next (dmaWriteByte addr v s)) ∨
      (∃ addr, exec c.1 s = .next (dmaReadWord addr s)) ∨ (∃ addr v, exec c.1 s = .next (dmaWriteWord addr v s)) := by
  obtain ⟨i, hi⟩ := c
  cases i <;> first
    | (simp [Instr.isCommand] at hi; done)
    | exact .inl rfl
    | exact .inr (.inl ⟨_, _, _, rfl⟩)
    | exact .inr (.inr (.inl ⟨_, _, _, rfl⟩))
    | exact .inr (.inr (.inr (.inl ⟨_, rfl⟩)))
    | exact .inr (.inr (.inr (.inr (.inl ⟨_, _, rfl⟩))))
    | exact .inr (.inr (.inr (.inr (.inr (.inl ⟨_, rfl⟩)))))
    | exact .inr (.inr (.inr (.inr (.inr (.inr ⟨_, _, rfl⟩)))))

/-- What a DMA command can do: refuse, change scratch bytes and return, or load the engine and block (R110, R112). -/
theorem dmaCommand_cases (misuse : State → State) (dir : DmaDir) (addr : Bits16) (tgt : Option DmaTarget) (n : Nat)
    (c : Cmd) (s : State) :
    (∃ r, dmaCommand misuse dir addr tgt n c s = refuse r s) ∨ dmaCommand misuse dir addr tgt n c s = misuse s ∨
      ∃ t, tgt = some t ∧ 0 < n ∧ s.dma.state = .dIdle ∧ (∀ b, t = .buf b → b + n ≤ s.par.bufSize) ∧
        dmaCommand misuse dir addr tgt n c s = dmaAccept dir addr t n c s := by
  unfold dmaCommand
  split
  · exact .inl ⟨_, rfl⟩
  · split
    · exact .inl ⟨_, rfl⟩
    · next h =>
      cases tgt with
      | none => exact .inr (.inl rfl)
      | some t =>
        by_cases hm : n = 0 ∨ s.dma.state ≠ .dIdle
        · exact .inr (.inl (by simp only [if_pos hm]))
        · refine .inr (.inr ⟨t, rfl, by omega, by_contra fun hi => hm (.inr hi), ?_, by simp only [if_neg hm]⟩)
          rintro b rfl
          have : n ≠ 0 := fun h0 => hm (.inl h0)
          simp only [bufOverrun, Bool.and_eq_true, decide_eq_true_eq, not_and] at h
          have := h (by omega)
          omega

/-- What a foreground command leaves unchanged: it suffices that each kind of update does. -/
theorem exec_command_keeps {β : Type} (f : State → β) {s t : State} {c : Cmd} (hrefuse : ∀ r u, f (refuse r u) = f u)
    (hres : ∀ v u, f (setResult v u) = f u) (hdma : ∀ (u : State) d g, f { u with dma := d, fg := g } = f u)
    (hdraw : ∀ (u : State) n, f { u with draws := n } = f u) (happly : f (applyCmd s c) = f s)
    (h : exec c.1 s = .next t) : f t = f s := by
  have cmd : ∀ misuse dir addr tgt n c, (∀ u, f (misuse u) = f u) → ∀ u, f u = f s →
      f (dmaCommand misuse dir addr tgt n c u) = f s := by
    intro misuse dir addr tgt n c hm u hu
    rcases dmaCommand_cases misuse dir addr tgt n c u with ⟨r, e⟩ | e | ⟨q, -, -, -, -, e⟩ <;> rw [e]
    · rw [hrefuse, hu]
    · rw [hm, hu]
    · exact (hdma _ _ _).trans hu
  have hz : ∀ u, f (returnZero u) = f u := fun u => hres _ _
  have hb : ∀ u, f (returnDrawnByte u) = f u := fun u => (hres _ _).trans (hdraw u _)
  have hw : ∀ u, f (returnDrawnWord u) = f u := fun u => (hres _ _).trans (hdraw u _)
  rcases exec_command c s with e | ⟨a, b, n, e⟩ | ⟨a, b, n, e⟩ | ⟨a, e⟩ | ⟨a, v, e⟩ | ⟨a, e⟩ | ⟨a, v, e⟩ <;>
    rw [e] at h <;> cases h
  · exact happly
  · exact cmd _ _ _ _ _ _ hz _ rfl
  · exact cmd _ _ _ _ _ _ hz _ rfl
  · exact cmd _ _ _ _ _ _ hb _ rfl
  · exact cmd _ _ _ _ _ _ hz _ (hdma s _ s.fg)
  · exact cmd _ _ _ _ _ _ hw _ rfl
  · exact cmd _ _ _ _ _ _ hz _ (hdma s _ s.fg)

/-- What one step can do. -/
theorem step_cases {s t : State} (h : step s = .next t) :
    t = s ∨
    (∃ ts, s.turns = .reset :: ts ∧ t = externalReset { s with turns := ts }) ∨
    (∃ d ts, s.turns = .rise d :: ts ∧ t = evP1R d { s with turns := ts }) ∨
    (∃ d p pri ts, s.turns = .fall d p pri :: ts ∧ t = evP1F d (sampledPattern s p) pri { s with turns := ts }) ∨
    (∃ ts, s.turns = .foreground :: ts ∧
      (t = { s with turns := ts } ∨
        (s.dma.state = .dSettle ∧ t = requestStep { s with turns := ts }) ∨
        ∃ (c : Cmd) (ws : List Nat), s.dma.state ≠ .dSettle ∧ s.fg.wait = none ∧
          exec c.1 { s with turns := ts, prog := ws } = .next t)) ∨
    (∃ d ts, s.turns = .setDev d :: ts ∧
      (t = { s with turns := ts } ∨ (s.fg.wait = none ∧ t = { s with turns := ts, dev := d }))) := by
  unfold step at h
  split at h
  · cases h; exact .inl rfl
  · next ts ht =>
    cases h; exact .inr (.inl ⟨ts, ht, rfl⟩)
  · next u ts hu ht =>
    split at h
    · cases h
    · cases h
    · cases u with
      | rise d =>
        simp only [stepTurn] at h
        split at h
        · cases h; exact .inr (.inr (.inl ⟨d, ts, ht, rfl⟩))
        · cases h
      | fall d p pri =>
        simp only [stepTurn] at h
        split at h
        · refine .inr (.inr (.inr (.inl ⟨d, p, pri, ts, ht, ?_⟩)))
          have := exec_decodeCycle { s with turns := ts } (sampledPattern s p) d pri
          exact (Host.Outcome.next.inj ((this.symm.trans h))).symm
        · cases h
      | foreground =>
        refine .inr (.inr (.inr (.inr (.inl ⟨ts, ht, ?_⟩))))
        simp only [stepTurn, stepForeground, foregroundMove] at h
        by_cases h1 : s.dma.state = .dSettle
        · rw [if_pos h1] at h
          cases h; exact .inr (.inl ⟨h1, rfl⟩)
        · rw [if_neg h1] at h
          by_cases h2 : s.fg.wait.isSome = true
          · rw [if_pos h2] at h
            cases h; exact .inl rfl
          · rw [if_neg h2] at h
            have h3 : s.fg.wait = none := by simpa using h2
            cases hp : s.prog with
            | nil =>
              simp only [hp] at h
              cases h; exact .inl (by rw [← hp])
            | cons n r =>
              simp only [hp] at h
              cases hd : decodeCmd (n :: r) with
              | error e =>
                simp only [hd] at h
                cases h
              | ok x =>
                obtain ⟨i, ws⟩ := x
                simp only [hd] at h
                exact .inr (.inr ⟨⟨i, decodeCmd_isCommand hd⟩, ws, h1, h3, h⟩)
      | setDev d =>
        refine .inr (.inr (.inr (.inr (.inr ⟨d, ts, ht, ?_⟩))))
        simp only [stepTurn, workOnDev] at h
        by_cases h2 : s.fg.wait.isSome = true
        · rw [if_pos h2] at h
          cases h; exact .inl rfl
        · rw [if_neg h2] at h
          cases h; exact .inr ⟨by simpa using h2, rfl⟩
      | reset => exact (hu rfl).elim

/-- A falling edge's step is the event, with the pattern sampled (R65). -/
theorem step_fall {s : State} {d : Drive} {p : Bits3} {pri : Bool} {ts : List Turn}
    (h : s.turns = .fall d p pri :: ts) (hu : Unmarked s) (ha : s.en.lastEvent ≠ some .p1f) :
    step s = .next (evP1F d (sampledPattern s p) pri { s with turns := ts }) := by
  have he := exec_decodeCycle { s with turns := ts } (sampledPattern s p) d pri
  have hb : alternates { s with turns := ts } .p1f = true := by simpa [alternates] using ha
  simp only [step, h, hu.1, hu.2, stepTurn]
  rw [if_pos hb]
  exact he

end Sys2Proof.Machine
end

