-- ==== Sys2Proof/Tests/Slice0.lean ====
section
/-! SUPPORT. Tests. The expected results are those of spec/95_test_vectors.md (`V<n>`), of its section 2.1, or worked by
hand from the rule named. A witness shows a state and operands that meet all the hypotheses of one statement. -/

namespace Sys2Proof.Tests
open Sys2Proof Sys2Proof.Machine

/-! A small machine with the parameters of section 0 of the vectors, and logic pinned at the points the tests use.
Handler 9 claims with 0x99, handler 5 declines, handlers 1 and 2 are write handlers; claim 7 is ROMWIN, claim 8 covers
everything. -/

/-- Other agents drive `v`. -/
abbrev bus (v : Byte) : Drive := .given (some v)

/-- Nobody else drives. -/
abbrev noBus : Drive := .given none

def demoLogic : Logic where
  readH := [((9, [0]), ⟨true, 0x99, [1], []⟩), ((5, [0]), ⟨false, 0x00, [1], []⟩)]
  writeH := [((1, [0], 0x2A), ⟨[0x2A], []⟩), ((2, [0], 0x01), ⟨[0], [⟨.intEnable true, rfl⟩]⟩),
    ((2, [0], 0x02), ⟨[0], [⟨.dmaReadByte 0x1000, rfl⟩]⟩), ((2, [0], 0x03), ⟨[0], [⟨.reserved 0x30, rfl⟩]⟩)]
  claimP := [((7, [0], 0x6001), true), ((8, [0], 0x6001), true), ((8, [0], 0x6000), true), ((8, [0], 0x8000), true),
    ((7, [0], 0x8000), false), ((7, [0], 0xFF40), false)]
  claimR := [((7, [0], 0x6001), 0xA5), ((8, [0], 0x6001), 0x11), ((8, [0], 0x6000), 0x00)]
  claimW := [((8, [0], 0x8000, 0x5C), [0x5C])]
  aux := [((0b001, 0xFF40, 0x2A, [0]), 0x77)]

def demoPar : Params := ⟨0xFF, .p111, 4, 2, 2, 3, 65535, 16, .sameCycleP1F, demoLogic⟩

/-- Armed, the bus address at `a`, after a rising edge. -/
def demoAt (a : Bits16) : State where
  par := demoPar
  lines := .reset
  disp := ⟨a, 0x34, .idle, false, 0b000, none, false, false⟩
  en := ⟨true, true, true, some .p1r⟩
  tabs := ⟨[(0x10, 9), (0x11, 5)], [(0x40, 1), (0x42, 2)], []⟩
  int := ⟨.idle, 0x10, false, false, false⟩
  dma := ⟨false, false, false, .dIdle, .rd, 0x1000, .scratch, 0x00, 0x00, 1, 0, 0, 0, false, false⟩
  fg := ⟨none, none⟩
  trace := ⟨false, 0, [], 0⟩
  dev := [0]
  buf := []
  peers := ⟨[(0x1000, 0x11), (0x2000, 0x00)], a, 0x34, false, false, none, none⟩
  marks := .reset
  draws := 0
  prog := []
  boot := []
  turns := []

abbrev demo : State := demoAt 0x2000

/-- Before ARM. -/
def unarmed : State := { demo with en := .reset }

/-- With ROMWIN in slot 0 and the claim that covers everything in slot 1 (V68). -/
def claimed (a : Bits16) : State := { demoAt a with tabs.claims := [(0, 7), (1, 8)] }

/-- The arbiter's state and flags. -/
def withInt (arb : ArbState) (pending enable want : Bool) : State :=
  { demo with
    int := ⟨arb, 0x10, enable, pending, want⟩
    lines := { demo.lines with irq := arb == .requestPending, priOut := arb == .requestPending } }

/-- The engine waiting for the acknowledge of its request (V19). -/
def requesting : State :=
  { demo with
    dma := { demo.dma with request := true, state := .dWaitAck }
    fg := ⟨some ⟨.dmaReadByte 0x1000, rfl⟩, none⟩ }

/-- The engine as bus master, in a state of its sequence, with a command of `n` bytes waiting. -/
def master (st : DmaSub) (dir : DmaDir) (tgt : DmaTarget) (n : Nat) (cmd : Cmd) : State :=
  { demo with
    lines := { demo.lines with halt := true, ctrlMode := .device, ctrlOut := 0b100 }
    en := ⟨false, false, true, some .p1r⟩
    dma := { demo.dma with
      ack := true, active := true, state := st, dir := dir, tgt := tgt, count := n, addr := 0x2010,
      xferPending := st == .dXfer }
    fg := ⟨some cmd, none⟩ }

/-- One field of a next state. -/
def seen {α : Type} (f : State → α) : Host.Outcome State Fault Refusal → Option α
  | .next t => some (f t)
  | .fault _ => none
  | .refused _ => none

/-! ### Well-formedness: each check refuses -/

theorem test_wf_refuses_patterns_taken_by_intack :
    (Instr.addrLoad noBus false).wf .p100 = false ∧ (Instr.writeAl noBus false).wf .p101 = false ∧
    (Instr.readAl true noBus false).wf .p111 = false ∧ (Instr.readAl false noBus false).wf .p110 = false ∧
    (Instr.readAl true noBus false).wf .p110 = true := by decide

theorem test_wf_refuses_listed_opcodes_as_reserved :
    (Instr.reserved 0x01).wf .p111 = false ∧ (Instr.reserved 0x0A).wf .p111 = false ∧
    (Instr.reserved 0x13).wf .p111 = false ∧ (Instr.reserved 0x25).wf .p111 = false ∧
    (Instr.reserved 0x05).wf .p111 = true := by decide

/-! ### Decoding: patterns of R53 and section 2.1, opcodes of R58 written out -/

theorem test_decode_patterns :
    decodeCycle .p111 0b000 (bus 0x77) true = .idle (bus 0x77) true ∧
    decodeCycle .p111 0b100 noBus false = .addrLoad noBus false ∧
    decodeCycle .p111 0b010 noBus false = .read noBus false ∧
    decodeCycle .p111 0b110 noBus false = .readAl false noBus false ∧
    decodeCycle .p111 0b001 noBus false = .write noBus false ∧
    decodeCycle .p111 0b101 noBus false = .writeAl noBus false ∧
    decodeCycle .p111 0b011 noBus false = .dmaAck noBus false ∧
    decodeCycle .p111 0b111 noBus true = .intAck noBus true := by decide

theorem test_classify_with_intack_110 :
    classify .p110 0b110 = (.interruptAck, false) ∧ classify .p110 0b111 = (.read, true) ∧
    classify .p110 0b100 = (.idle, true) ∧ classify .p110 0b011 = (.dmaAck, false) ∧
    classify .p101 0b101 = (.interruptAck, false) ∧ classify .p100 0b100 = (.interruptAck, false) := by decide

theorem test_decode_registration :
    decodeCmd [0x01, 0x40, 5] = .ok (.regRead 0x40 5, []) ∧ decodeCmd [0x02, 0x41, 6, 8] = .ok (.regWrite 0x41 6, [8]) ∧
    decodeCmd [0x03, 0xFF] = .ok (.unregister 0xFF, []) ∧ decodeCmd [0x04, 0, 8] = .ok (.claimSet 0 (some 7), []) ∧
    decodeCmd [0x04, 3, 0] = .ok (.claimSet 3 none, []) := by
  refine ⟨?_, ?_, ?_, ?_, ?_⟩ <;> rfl

theorem test_decode_control_and_interrupts :
    decodeCmd [0x08] = .ok (.arm, []) ∧ decodeCmd [0x09] = .ok (.traceStart, []) ∧
    decodeCmd [0x0A] = .ok (.traceStop, []) ∧ decodeCmd [0x10, 0x10] = .ok (.intSetVector 0x10, []) ∧
    decodeCmd [0x11, 1] = .ok (.intEnable true, []) ∧ decodeCmd [0x12, 0] = .ok (.intRequest false, []) ∧
    decodeCmd [0x13, 1] = .ok (.intWant true, []) ∧ decodeCmd [0x05] = .ok (.reserved 0x05, []) := by
  refine ⟨?_, ?_, ?_, ?_, ?_, ?_, ?_, ?_⟩ <;> rfl

theorem test_decode_dma :
    decodeCmd [0x20, 0x1000, 1, 4] = .ok (.dmaReadBlock 0x1000 (some 0) 4, []) ∧
    decodeCmd [0x21, 0x1000, 0, 4] = .ok (.dmaWriteBlock 0x1000 none 4, []) ∧
    decodeCmd [0x22, 0x3000] = .ok (.dmaReadByte 0x3000, []) ∧
    decodeCmd [0x23, 0x3000, 0x5A] = .ok (.dmaWriteByte 0x3000 0x5A, []) ∧
    decodeCmd [0x24, 0xFEFF] = .ok (.dmaReadWord 0xFEFF, []) ∧
    decodeCmd [0x25, 0x2000, 0xBEEF] = .ok (.dmaWriteWord 0x2000 0xBEEF, []) := by
  refine ⟨?_, ?_, ?_, ?_, ?_, ?_⟩ <;> rfl

theorem test_decode_rejects_by_name :
    decodeCmd [] = .error .noOpcode ∧ decodeCmd [256] = .error .tooWide ∧ decodeCmd [0x11, 2] = .error .tooWide ∧
    decodeCmd [0x23, 0x3000] = .error .missingOperand := by
  refine ⟨?_, ?_, ?_, ?_⟩ <;> rfl

theorem test_table_words :
    decodeTableWord 3 0b011 = some (.dmaAck noBus false) ∧ decodeTableWord 8 0x08 = some .arm ∧
    decodeTableWord 8 0x22 = some (.dmaReadByte 0) ∧ decodeTableWord 8 0xFF = some (.reserved 0xFF) := by
  refine ⟨?_, ?_, ?_, ?_⟩ <;> rfl

/-! ### The bus-cycle classes, one `EvP1F` each -/

/-- V8: the byte of phase 1 is captured, nothing else moves. -/
theorem test_idle : seen (fun t => (t.disp.a, t.disp.plb, t.lines.drvD)) (exec (.idle (bus 0x77) false) demo) =
    some (0x2000, 0x77, none) := by decide

/-- V9: the second load pairs its byte with the one before. -/
theorem test_addr_load :
    seen (fun t => (t.disp.a, t.disp.plb, t.disp.schedLoad))
      (exec (.addrLoad (bus 0x12) false) { demo with disp.schedLoad := true }) =
    some (0x1234, 0x12, true) := by decide

/-- V22: the increment at 0xFEFF. V23: none is due inside I/O space. -/
theorem test_increment :
    seen (fun t => t.disp.a) (exec (.idle (bus 0) false) { demoAt 0xFEFF with disp.schedInc := true }) = some 0xFF00 ∧
    seen (fun t => t.disp.schedInc) (exec (.write (bus 0) false) (demoAt 0xFFFF)) = some false := by decide

/-- V10, V68: ROMWIN in slot 0 answers before the claim of slot 1. -/
theorem test_read_claim :
    seen (fun t => (t.lines.drvD, t.lines.rdy, t.disp.schedInc)) (exec (.read (bus 0) false) (claimed 0x6001)) =
    some (some 0xA5, true, true) := by decide

/-- V11, V12: a handler that claims, and one that runs and declines. -/
theorem test_read_io :
    seen (fun t => (t.lines.drvD, t.dev, t.disp.schedInc)) (exec (.read (bus 0) false) (demoAt 0xFF10)) =
      some (some 0x99, [1], false) ∧
    seen (fun t => (t.lines.drvD, t.dev)) (exec (.read (bus 0) false) (demoAt 0xFF11)) = some (none, [1]) := by decide

/-- V13: outside I/O space the table is not consulted. V14: a read with an address load is answered. -/
theorem test_read_al :
    seen (fun t => (t.lines.drvD, t.dev)) (exec (.readAl false (bus 0) false) (demoAt 0x1210)) = some (none, [0]) ∧
    seen (fun t => (t.lines.drvD, t.disp.schedLoad, t.disp.schedInc))
      (exec (.readAl false (bus 0) false) { demoAt 0x6000 with tabs.claims := [(3, 8)] }) =
      some (some 0x00, true, false) := by decide

/-- V15, V16: the target of a write, and none where no accessor matches. -/
theorem test_write :
    seen (fun t => t.disp.schedWrite) (exec (.write (bus 0) false) (claimed 0x8000)) = some (some (.claimT 1)) ∧
    seen (fun t => t.disp.schedWrite) (exec (.write (bus 0) false) (demoAt 0xFF40)) = some (some (.ioT 0x40)) ∧
    seen (fun t => t.disp.schedWrite) (exec (.write (bus 0) false) (demoAt 0xFF41)) = some none := by decide

/-- V17: a write with an address load schedules no write. -/
theorem test_write_al :
    seen (fun t => (t.disp.schedWrite, t.disp.schedLoad, t.disp.cyc)) (exec (.writeAl (bus 0) false) (demoAt 0xFF40)) =
    some (none, true, .write) := by decide

/-- V18, V19. -/
theorem test_dma_ack :
    seen (fun t => (t.dma.ack, t.lines.halt, t.en.armed)) (exec (.dmaAck (bus 0) false) demo) =
      some (false, false, true) ∧
    seen (fun t => (t.dma.ack, t.dma.request, t.lines.halt, t.en.armed)) (exec (.dmaAck (bus 0) false) requesting) =
      some (true, false, true, false) := by decide

/-- V20. -/
theorem test_int_ack :
    seen (fun t => (t.lines.drvD, t.lines.rdy, t.lines.irq, t.int.arb, t.int.pending, t.disp.a))
      (exec (.intAck (bus 0) false) (withInt .requestPending true true true)) =
    some (some 0x10, true, false, .idle, false, 0x2000) := by decide

/-- V29, V31, R100 at a DMA_ACK, V32, V35, V36, V37 on the arbiter alone. -/
theorem test_arbiter :
    (arbStep .interruptAck true (withInt .idle true true true)).int.enable = false ∧
    (arbStep .idle false (withInt .idle true true true)).lines.irq = true ∧
    (arbStep .dmaAck false (withInt .idle true true true)).lines.irq = true ∧
    (arbStep .interruptAck false (withInt .idle true true true)).lines.drvD = none ∧
    (arbStep .interruptAck false (withInt .requestPending false true true)).lines.drvD = some 0x10 ∧
    (arbStep .interruptAck true (withInt .requestPending true true true)).int.pending = true ∧
    (arbStep .write false (withInt .requestPending false true true)).lines.irq = true := by decide

/-! ### Phase 1: the scheduled write, contention, the trace -/

/-- V6, P2: the handler gets the byte once. V15: the claim does. -/
theorem test_scheduled_write :
    (evP1R (bus 0x2A) { demoAt 0xFF40 with disp.schedWrite := some (.ioT 0x40) }).dev = [0x2A] ∧
    (evP1R (bus 0x5C) { claimed 0x8000 with disp.schedWrite := some (.claimT 1) }).dev = [0x5C] := by decide

/-- V39, V46, V67: the commands a handler returns. -/
theorem test_handler_commands :
    (evP1R (bus 0x01) { demoAt 0xFF42 with disp.schedWrite := some (.ioT 0x42) }).int.enable = true ∧
    (evP1R (bus 0x02) { demoAt 0xFF42 with disp.schedWrite := some (.ioT 0x42) }).marks.refused =
      some .blockingFromHandler ∧
    (evP1R (bus 0x03) { demoAt 0xFF42 with disp.schedWrite := some (.ioT 0x42) }).marks.refused =
      some .reservedCommand := by decide

/-- V21: two drivers at a capture. -/
theorem test_contention :
    (evP1R (bus 0x55) { demo with lines.drvD := some 0xA5, lines.rdy := true }).marks.fault = some .busContention := by
  decide

/-- V71: the packed record, and the index back at 0. -/
theorem test_trace_push :
    let t := evP1R (bus 0x2A) { demoAt 0xFF40 with trace := ⟨true, 3, [], 0⟩, disp.lastCtrl := 0b001 }
    traceAt t.trace 3 = ⟨0x01, 0x40, 0xFF, 0x2A, 0x77⟩ ∧ t.trace.idx = 0 := by decide

/-! ### Foreground commands -/

theorem test_reg_read_write :
    seen (fun t => sparseGet 0x40 t.tabs.rdTab) (exec (.regRead 0x40 3) unarmed) = some (some 3) ∧
    seen (fun t => sparseGet 0x41 t.tabs.wrTab) (exec (.regWrite 0x41 4) unarmed) = some (some 4) := by decide

/-- V2: both directions revert. -/
theorem test_unregister :
    seen (fun t => (sparseGet 0x40 t.tabs.rdTab, sparseGet 0x40 t.tabs.wrTab)) (exec (.unregister 0x40) unarmed) =
    some (none, none) := by decide

/-- V62, and the highest slot. -/
theorem test_claim_set :
    seen (fun t => t.marks.refused) (exec (.claimSet 4 (some 7)) unarmed) = some (some .argumentOutOfRange) ∧
    seen (fun t => sparseGet 3 t.tabs.claims) (exec (.claimSet 3 (some 7)) unarmed) = some (some 7) := by decide

/-- V63, V64. -/
theorem test_late_registration :
    seen (fun t => (t.marks.refused, sparseGet 0x40 t.tabs.rdTab)) (exec (.regRead 0x40 3) demo) =
      some (some .lateRegistration, none) ∧
    seen (fun t => t.marks.refused) (exec (.unregister 0x40) demo) = some (some .lateRegistration) := by decide

/-- V66. -/
theorem test_reserved : seen (fun t => t.marks.refused) (exec (.reserved 0x05) demo) = some (some .reservedCommand) := by
  decide

/-- V70. -/
theorem test_arm :
    seen (fun t => (t.en.armed, t.en.sysint, t.en.armedOnce)) (exec .arm unarmed) = some (true, true, true) := by decide

/-- R134, R135: the ring stays. -/
theorem test_trace_start_stop :
    seen (fun t => (t.trace.active, t.trace.idx)) (exec .traceStart { demo with trace.idx := 3 }) = some (true, 3) ∧
    seen (fun t => (t.trace.active, t.trace.idx)) (exec .traceStop { demo with trace := ⟨true, 2, [], 0⟩ }) =
      some (false, 2) := by decide

/-- R104 to R107. -/
theorem test_interrupt_commands :
    seen (fun t => t.int.vector) (exec (.intSetVector 0xA0) demo) = some 0xA0 ∧
    seen (fun t => t.int) (exec (.intEnable true) demo) = some ⟨.idle, 0x10, true, false, false⟩ ∧
    seen (fun t => t.int) (exec (.intRequest true) demo) = some ⟨.idle, 0x10, false, true, false⟩ ∧
    seen (fun t => t.int) (exec (.intWant true) demo) = some ⟨.idle, 0x10, false, false, true⟩ := by decide

/-- V40, V41, V45: the silent no-ops. -/
theorem test_dma_read_block_noop :
    seen (fun t => (t.fg.result, t.dma.state)) (exec (.dmaReadBlock 0x1000 (some 0) 0) demo) =
      some (some (.count 0), .dIdle) ∧
    seen (fun t => t.fg.result) (exec (.dmaReadBlock 0x1000 none 4) demo) = some (some (.count 0)) ∧
    seen (fun t => t.fg.result) (exec (.dmaReadBlock 0x1000 (some 99) 0) demo) = some (some (.count 0)) := by decide

/-- V42 to V44. -/
theorem test_dma_block_bounds :
    seen (fun t => t.marks.refused) (exec (.dmaWriteBlock 0x1000 (some 15) 2) demo) = some (some .bufferOutOfRange) ∧
    seen (fun t => t.dma.state) (exec (.dmaWriteBlock 0x1000 (some 15) 1) demo) = some .dSettle ∧
    seen (fun t => t.marks.refused) (exec (.dmaReadBlock 0x1000 (some 0) 65536) demo) =
      some (some .argumentOutOfRange) := by decide

/-- R126, R128: the read wrappers. -/
theorem test_dma_read_wrappers :
    seen (fun t => (t.dma.dir, t.dma.tgt, t.dma.count, t.dma.state)) (exec (.dmaReadByte 0x3000) demo) =
      some (.rd, .scratch, 1, .dSettle) ∧
    seen (fun t => (t.dma.dir, t.dma.addr, t.dma.count)) (exec (.dmaReadWord 0xFEFF) demo) =
      some (.rd, 0xFEFF, 2) := by decide

/-- V51, V52: what the write wrappers put in the scratch, the low byte first. -/
theorem test_dma_write_wrappers :
    seen (fun t => (t.dma.dir, t.dma.wbuf0, t.dma.count)) (exec (.dmaWriteByte 0x3000 0x5A) demo) =
      some (.wr, 0x5A, 1) ∧
    seen (fun t => (t.dma.wbuf0, t.dma.wbuf1, t.dma.count)) (exec (.dmaWriteWord 0x2000 0xBEEF) demo) =
      some (0xEF, 0xBE, 2) := by decide

/-! ### The engine as bus master -/

/-- V61, P3: the address bytes, low then high, and the first data byte of a write. -/
theorem test_engine_drives :
    (evP1F noBus 0 false (master .dAddrLo .wr (.buf 0) 2 ⟨.dmaWriteBlock 0x2010 (some 0) 2, rfl⟩)).lines.drvD =
      some 0x10 ∧
    (evP1F noBus 0 false (master .dAddrHi .wr (.buf 0) 2 ⟨.dmaWriteBlock 0x2010 (some 0) 2, rfl⟩)).lines.drvD =
      some 0x20 ∧
    (evP1F noBus 0 false { master .dXfer .wr (.buf 0) 2 ⟨.dmaWriteBlock 0x2010 (some 0) 2, rfl⟩ with
      buf := [(0, 0xAA), (1, 0x55)] }).lines.drvD = some 0xAA := by decide

/-- P3: the first data edge stores its byte and strobes the next. -/
theorem test_engine_reads :
    let t := evP1R (bus 0x11) (master .dXfer .rd (.buf 4) 2 ⟨.dmaReadBlock 0x2010 (some 4) 2, rfl⟩)
    (t.buf, t.dma.k, t.lines.ctrlOut) = ([(4, 0x11)], 1, 0b010) := by decide

/-- V56, V57: the yield after a full burst, and none after the last byte. -/
theorem test_engine_yields :
    let s := master .dXfer .rd (.buf 4) 3 ⟨.dmaReadBlock 0x2010 (some 4) 3, rfl⟩
    let t := evP1R (bus 0x22) { s with dma.k := 1, dma.burstK := 2 }
    (t.dma.state, t.dma.yieldK, t.lines.ctrlOut) = (.dYield, 2, 0b000) ∧
      (evP1R (bus 0x33) { s with dma.k := 2, dma.burstK := 2 }).dma.state = .dIdle := by decide

/-- V47, V48: the results, and the release. -/
theorem test_engine_results :
    (evP1R (bus 0x7E) (master .dXfer .rd .scratch 1 ⟨.dmaReadByte 0x3000, rfl⟩)).fg.result = some (.byte 0x7E) ∧
    (let s := master .dXfer .rd .scratch 2 ⟨.dmaReadWord 0x1000, rfl⟩
     let t := evP1R (bus 0x22) { s with dma.k := 1, dma.wbuf0 := 0x11 }
     (t.fg.result, t.lines.ctrlMode, t.lines.halt, t.en.armed) = (some (.word 0x2211), .host, false, true)) := by decide

/-- R119, D22: a write's last byte outlasts the release, is captured at the next `P1F` and ends there (R69). -/
theorem test_engine_holds_last_byte :
    let s := master .dXfer .wr (.buf 0) 1 ⟨.dmaWriteBlock 0x2010 (some 0) 1, rfl⟩
    let t := evP1R noBus { s with lines.drvD := some 0x55 }
    let u := evP1F noBus 0b000 false t
    (t.lines.drvD, t.lines.ctrlMode, t.fg.wait) = (some 0x55, .host, none) ∧ (u.disp.plb, u.lines.drvD) = (0x55, none) := by
  decide

/-! ### Steps -/

/-- The word of a class, and of a command, placed at reset, is the next step. -/
theorem test_step_runs_placed_word :
    step (demo.withFetchWord 3 0b000) = exec (.idle noBus false) demo ∧
    step (demo.withFetchWord 8 0x08) = exec .arm { demo with prog := [0, 0, 0] } := ⟨rfl, rfl⟩

/-- R30: the foreground sets `dev`, but not while it is blocked. -/
theorem test_foreground_work :
    seen (fun t => t.dev) (step { demo with turns := [.setDev [7]] }) = some [7] ∧
    seen (fun t => t.dev) (step { requesting with turns := [.setDev [7]] }) = some [0] := by decide

/-- R157: an external reset puts the foreground back at its first command. -/
theorem test_step_resets :
    seen (fun t => (t.prog, t.dev, t.en.armed))
      (step { demo with turns := [.reset], prog := [0x0A], boot := [0x08, 0x0A], dev := [7] }) =
    some ([0x08, 0x0A], [7], false) := by decide

/-- R154: a second rising edge in a row. R32: a marked state stops. -/
theorem test_step_stops :
    step { demo with turns := [.rise noBus] } = .refused .eventsDoNotAlternate ∧
    step { demo with turns := [.foreground], prog := [0x11, 7] } = .refused .undecodableCommand ∧
    step { demo with turns := [.foreground], marks.fault := some .busContention } = .fault .busContention ∧
    step { demo with turns := [.foreground], marks.refused := some .lateRegistration } =
      .refused (.withheld .lateRegistration) := by
  refine ⟨?_, ?_, ?_, ?_⟩ <;> rfl

/-! ### Witnesses: the hypotheses of each statement that has some, met together -/

theorem demoAt_coherent (a : Bits16) : Coherent (demoAt a) :=
  ⟨⟨nofun, nofun, nofun, nofun, nofun, nofun⟩, ⟨fun _ => rfl, fun _ => rfl⟩, nofun, nofun, nofun, nofun, nofun,
    fun _ => rfl⟩

theorem test_wit_CommandDecodesToItself :
    ∀ i ∈ [Instr.regRead 0xFF 0, .claimSet 0 none, .intWant true, .dmaReadBlock 0xFFFF (some 0) 0,
        .dmaWriteWord 0xFFFF 0xFFFF, .reserved 0x00, .reserved 0x26, .arm],
      i.isCommand = true ∧ i.wf .p111 = true ∧ i.wf .p110 = true := by decide

theorem test_wit_CycleDecodesToItself :
    (Instr.readAl true noBus true).wf .p110 = true ∧
    encodeCycle .p110 (.readAl true noBus true) = some (0b111, noBus, true) ∧
    (Instr.addrLoad noBus true).wf .p111 = true ∧
    encodeCycle .p111 (.addrLoad noBus true) = some (0b100, noBus, true) := by decide

theorem test_wit_ReservedOpcodesAreRefused :
    ∀ op ∈ [(0x00 : Byte), 0x05, 0x07, 0x0B, 0x0F, 0x14, 0x1F, 0x26, 0xFF],
      op = 0x00 ∨ (0x05 ≤ op ∧ op ≤ 0x07) ∨ (0x0B ≤ op ∧ op ≤ 0x0F) ∨ (0x14 ≤ op ∧ op ≤ 0x1F) ∨ 0x26 ≤ op := by
  decide

theorem test_wit_StepRunsTheSampledClass :
    let s := { demo with turns := [.fall noBus 0b010 false] }
    let m := { master .dXfer .rd .scratch 1 ⟨.dmaReadByte 0x1000, rfl⟩ with turns := [.fall noBus 0b010 false] }
    s.turns = .fall noBus 0b010 false :: [] ∧ Unmarked s ∧ s.en.lastEvent ≠ some .p1f ∧ s.lines.ctrlMode = .host ∧
    m.turns = .fall noBus 0b010 false :: [] ∧ Unmarked m ∧ m.en.lastEvent ≠ some .p1f ∧
      m.lines.ctrlMode = .device := by decide

theorem test_wit_StepRunsTheForegroundCommand :
    let s := { demo with turns := [.foreground], prog := [0x08, 0x09] }
    s.turns = .foreground :: [] ∧ Unmarked s ∧ s.dma.state ≠ .dSettle ∧ s.fg.wait = none ∧
      decodeCmd s.prog = .ok (.arm, [0x09]) := ⟨rfl, ⟨rfl, rfl⟩, nofun, rfl, rfl⟩

theorem test_wit_HoldsChangeNothing :
    let s := { requesting with turns := [.foreground] }
    s.turns = .foreground :: [] ∧ Unmarked s ∧ s.dma.state ≠ .dSettle ∧ s.fg.wait ≠ none ∧ demo.turns = [] := by decide

theorem test_wit_SettledCommandRequestsTheBus :
    let s := { demo with turns := [.foreground], dma.state := .dSettle }
    s.turns = .foreground :: [] ∧ Unmarked s ∧ s.dma.state = .dSettle := by decide

/-- Each kind of event after each. -/
theorem test_wit_ClockEventsAlternate :
    let r := { unarmed with turns := [.rise noBus] }
    let r' := { demo with turns := [.rise noBus] }
    let f' := { demo with turns := [.fall noBus 0 false], en.lastEvent := some .p1f }
    Unmarked r ∧ r.turns = .rise noBus :: [] ∧ r.en.lastEvent ≠ some .p1r ∧
    Unmarked r' ∧ r'.turns = .rise noBus :: [] ∧ r'.en.lastEvent = some .p1r ∧
    Unmarked f' ∧ f'.turns = .fall noBus 0 false :: [] ∧ f'.en.lastEvent = some .p1f := by decide

theorem test_wit_BothResetsGiveTheResetValues :
    { demo with turns := [.reset], marks.fault := some .busContention }.turns = .reset :: [] := rfl

theorem test_wit_MarkedStatesStop :
    let s := { demo with turns := [.foreground], marks.fault := some .busContention }
    let s' := { demo with turns := [.foreground], marks.refused := some .lateRegistration }
    s.turns = .foreground :: [] ∧ Turn.foreground ≠ .reset ∧ ¬ Unmarked s ∧ s.marks.fault = some .busContention ∧
    s'.turns = .foreground :: [] ∧ ¬ Unmarked s' ∧ s'.marks.fault = none ∧
      s'.marks.refused = some .lateRegistration := by decide

theorem test_wit_CaptureSeesTheDrivenByte :
    demo.lines.drvD = none ∧ { demo with lines.drvD := some 0xA5 }.lines.drvD = some 0xA5 := by decide

theorem test_wit_HandlersAreRegisteredAndRemoved : unarmed.en.armedOnce = false := rfl

theorem test_wit_ClaimSetWritesOneSlot :
    3 < unarmed.par.maxClaims ∧ unarmed.en.armedOnce = false ∧ unarmed.par.maxClaims ≤ 4 ∧
      unarmed.marks.refused = none := by decide

theorem test_wit_LateRegistrationIsRefused :
    demo.en.armedOnce = true ∧ demo.marks.refused = none ∧ 3 < demo.par.maxClaims ∧
    ∀ i ∈ [(⟨.regRead 0x40 5, rfl⟩ : Cmd), ⟨.regWrite 0x40 5, rfl⟩, ⟨.unregister 0x40, rfl⟩, ⟨.claimSet 3 none, rfl⟩],
      i.1 = .regRead 0x40 5 ∨ i.1 = .regWrite 0x40 5 ∨ i.1 = .unregister 0x40 ∨ i.1 = .claimSet 3 none := by decide

/-- Both slots cover the address. -/
theorem test_wit_LowestCoveringClaimServes :
    Sparse.rising (claimed 0x6001).tabs.claims ∧ claimP (claimed 0x6001) 7 0x6001 = true ∧
      claimP (claimed 0x6001) 8 0x6001 = true := by decide

theorem test_wit_UnregisterReverts :
    let s0 := { unarmed with tabs := ⟨[], [], []⟩ }
    unarmed.en.armedOnce = false ∧ exec (.unregister 0x10) unarmed = .next (unregister 0x10 unarmed) ∧
      s0.par = unarmed.par ∧ s0.tabs.claims = unarmed.tabs.claims ∧ s0.dev = unarmed.dev ∧
      sparseGet (0x10 : Byte).toNat s0.tabs.rdTab = none ∧ sparseGet (0x10 : Byte).toNat s0.tabs.wrTab = none ∧
      lowByte 0xFF10 = 0x10 := ⟨rfl, rfl, rfl, rfl, rfl, rfl, rfl, rfl⟩

/-- A covered address; inside I/O space with and without a read handler, and outside, at the page below. -/
theorem test_wit_IoHandlersServeOnlyIoSpace :
    firstClaim (claimed 0x6001) 0x6001 (claimed 0x6001).tabs.claims = some (0, 7) ∧
    (∀ d ∈ demo.tabs.claims, claimP demo d.2 0xFF10 = false) ∧ highByte 0xFEFF ≠ demo.par.ioPage ∧
    highByte 0xFF00 = demo.par.ioPage ∧ sparseGet (lowByte 0xFF00).toNat demo.tabs.rdTab = none ∧
    sparseGet (lowByte 0xFF40).toNat demo.tabs.wrTab = some 1 := by decide

theorem test_wit_HandlerCommandsAreAppliedInOrder :
    (Instr.intEnable true).isBlocking = false ∧ (Instr.reserved 0x30).isBlocking = false ∧
      (Instr.dmaReadByte 0x1000).isBlocking = true ∧ (Instr.dmaWriteBlock 0x1000 none 0).isBlocking = true ∧
      demo.marks.refused = none := by decide

/-- The last slot, and as many later pushes as the ring keeps. -/
theorem test_wit_TraceRingWraps :
    { demo with trace.idx := 3 }.trace.idx < 2 ^ demo.par.traceLog2 ∧
      ([1, 2, 3] : List Byte).length < 2 ^ demo.par.traceLog2 := by decide

theorem test_wit_IdleArbiterLosesItsEnableOrRequests : (withInt .idle true true true).int.arb = .idle := rfl

theorem test_wit_PendingArbiterIsServedLosesOrWaits :
    (withInt .requestPending true true true).int.arb = .requestPending := rfl

theorem test_wit_HigherPriorityIsServedFirst :
    let x := withInt .requestPending true true true
    let z := withInt .idle false true true
    (x.lines.priOut = true ↔ x.int.arb = .requestPending) ∧ x.int.arb = .requestPending ∧
    (z.lines.priOut = true ↔ z.int.arb = .requestPending) ∧ z.int.arb = .idle := by decide

/-- The six statements that a class completes: the dispatcher runs; every class is well formed where it should be. -/
theorem test_wit_CyclesComplete :
    Coherent demo ∧ dispatcherEnabled demo = true ∧
      (Instr.addrLoad noBus false).wf demo.par.intack = true ∧ (Instr.writeAl noBus false).wf demo.par.intack = true ∧
      (Instr.readAl false noBus false).wf demo.par.intack = true ∧
      (Instr.readAl true noBus false).wf { demoPar with intack := .p110 }.intack = true :=
  ⟨demoAt_coherent _, rfl, rfl, rfl, rfl, rfl⟩

theorem test_wit_DmaAckCycleCompletes : Coherent requesting ∧ dispatcherEnabled requesting = true ∧
    requesting.dma.request = true :=
  ⟨⟨⟨nofun, nofun, nofun, nofun, nofun, nofun⟩, ⟨nofun, nofun⟩, fun _ => rfl, nofun, nofun, nofun, nofun, fun _ => rfl⟩,
    rfl, rfl⟩

theorem test_wit_IntAckCycleCompletes :
    let s := withInt .requestPending true true true
    Coherent s ∧ dispatcherEnabled s = true ∧ s.int.arb = .requestPending :=
  ⟨⟨⟨nofun, nofun, nofun, nofun, nofun, nofun⟩, ⟨fun _ => rfl, fun _ => rfl⟩, nofun, nofun, nofun, nofun, nofun,
    fun _ => rfl⟩, rfl, rfl⟩

theorem test_wit_DisabledDispatcherTakesNoCycle :
    (Instr.read noBus false).isCommand = false ∧ dispatcherEnabled unarmed = false ∧ unarmed.dma.active = false := by
  decide

/-- A handler with the trace running, a claim, and no target. -/
theorem test_wit_ScheduledWriteIsPerformedOnce :
    let s := { demoAt 0xFF40 with disp.schedWrite := some (.ioT 0x40), trace.active := true }
    let c := { claimed 0x8000 with disp.schedWrite := some (.claimT 1) }
    Coherent s ∧ dispatcherEnabled s = true ∧ OneDriver s (bus 0x2A) 0x2A ∧ s.trace.active = true ∧
      sparseGet (0x40 : Byte).toNat s.tabs.wrTab = some 1 ∧
    Coherent c ∧ dispatcherEnabled c = true ∧ OneDriver c (bus 0x5C) 0x5C ∧ c.trace.active = false ∧
      sparseGet 1 c.tabs.claims = some 8 ∧
    Coherent demo ∧ dispatcherEnabled demo = true ∧ OneDriver demo (bus 0x00) 0x00 ∧ demo.disp.schedWrite = none :=
  ⟨⟨⟨nofun, nofun, nofun, nofun, nofun, nofun⟩, ⟨fun _ => rfl, fun _ => rfl⟩, nofun, nofun, nofun, nofun, nofun,
    fun _ => rfl⟩, rfl, .inl ⟨rfl, rfl⟩, rfl, rfl,
   ⟨⟨nofun, nofun, nofun, nofun, nofun, nofun⟩, ⟨fun _ => rfl, fun _ => rfl⟩, nofun, nofun, nofun, nofun, nofun,
    fun _ => rfl⟩, rfl, .inl ⟨rfl, rfl⟩, rfl, rfl,
   demoAt_coherent _, rfl, .inl ⟨rfl, rfl⟩, rfl⟩

/-- V9 for (a), V22 for (b). -/
theorem test_wit_AddressRegisterLaw :
    Coherent demo ∧ dispatcherEnabled demo = true ∧ (classify demo.par.intack 0b100).2 = true ∧
    (let m := evP1R (bus 0x34) (evP1F (bus 0) 0b100 false demo)
     OneDriver m (bus 0x34) 0x34 ∧
       OneDriver (evP1R (bus 0x12) (evP1F (bus 0x34) 0b100 false m)) (bus 0x12) 0x12) ∧
    classify demo.par.intack 0b010 = (.read, false) ∧ classify demo.par.intack 0b000 = (.idle, false) :=
  ⟨demoAt_coherent _, by decide⟩

/-- V43: the last byte of `BUF`. -/
theorem test_wit_BlockCommandIsAccepted :
    0 < 1 ∧ 1 ≤ demo.par.dmaCountMax ∧ 15 + 1 ≤ demo.par.bufSize ∧ demo.dma.state = .dIdle := by decide

/-- V45, V41, and re-entry. -/
theorem test_wit_DmaMisuseReturnsZero :
    (0 ≤ demo.par.dmaCountMax ∧ ∀ b, some 99 = some b → 0 < 0 → b + 0 ≤ demo.par.bufSize) ∧
    (4 ≤ demo.par.dmaCountMax ∧ ∀ b, none = some b → 0 < 4 → b + 4 ≤ demo.par.bufSize) ∧
    (4 ≤ requesting.par.dmaCountMax ∧ (∀ b, some 12 = some b → 0 < 4 → b + 4 ≤ requesting.par.bufSize) ∧
      requesting.dma.state ≠ .dIdle) :=
  ⟨⟨by decide, nofun⟩, ⟨by decide, nofun⟩, by decide, fun _ h _ => by cases h; decide, by decide⟩

/-- V44, V42. -/
theorem test_wit_DmaArgumentsOutOfRangeAreRefused :
    demo.marks.refused = none ∧ demo.par.dmaCountMax < 65536 ∧ 2 ≤ demo.par.dmaCountMax ∧ 0 < 2 ∧
      demo.par.bufSize < 15 + 2 := by decide

theorem test_wit_WrappersUseTheScratch : 2 ≤ demo.par.dmaCountMax ∧ demo.dma.state = .dIdle := by decide

theorem test_wit_HandoffTakesTheBus :
    let s := { requesting with dma := { requesting.dma with request := false, ack := true }, en.armed := false }
    s.dma.ack = true ∧ s.dma.active = false ∧ s.dma.state = .dWaitAck ∧ s.en.armed = false := by decide

theorem test_wit_AddressPhaseSendsLowThenHigh :
    ∀ st ∈ [DmaSub.dAddrLo, .dAddrHi],
      let s := master st .rd .scratch 1 ⟨.dmaReadByte 0x2010, rfl⟩
      s.dma.active = true ∧ s.en.armed = false ∧ s.dma.state = st := by decide

/-- A strobed cycle, of a read and of a write, from `BUF` and from the scratch at its two bytes. -/
theorem test_wit_StrobedWriteDrivesItsByte :
    ∀ dir ∈ [DmaDir.rd, .wr], ∀ tgt ∈ [DmaTarget.buf 0, .scratch], ∀ k ∈ [0, 1],
      let s := { master .dXfer dir tgt 2 ⟨.dmaWriteWord 0x2010 0xBEEF, rfl⟩ with dma.k := k }
      s.dma.active = true ∧ s.en.armed = false ∧ s.dma.state = .dXfer ∧ s.dma.xferPending = true ∧
        s.dma.k ≠ s.dma.count ∧ s.dma.dir = dir ∧ s.dma.tgt = tgt ∧ s.dma.k = k := by decide

/-- Into and out of `BUF` and each byte of the scratch, with a byte to come after the first. -/
theorem test_wit_DataEdgeCompletesOneByte :
    ∀ dir ∈ [DmaDir.rd, .wr], ∀ tgt ∈ [DmaTarget.buf 4, .scratch], ∀ k ∈ [0, 1],
      let s := { master .dXfer dir tgt 2 ⟨.dmaReadBlock 0x2010 (some 4) 2, rfl⟩ with dma.k := k }
      s.dma.active = true ∧ s.en.armed = false ∧ s.dma.state = .dXfer ∧ s.dma.xferPending = true ∧ s.dma.dir = dir ∧
        s.dma.tgt = tgt ∧ s.dma.k = k ∧ OneDriver s (bus 0x11) 0x11 ∧ (k = 0 → s.dma.k + 1 ≠ s.dma.count) ∧
        s.dma.burstK ≠ s.par.burstMax := by decide

/-- The edge that fills the burst, with and without a yield; a yield that goes on and one that ends. -/
theorem test_wit_FullBurstYields :
    let s := { master .dXfer .rd (.buf 4) 3 ⟨.dmaReadBlock 0x2010 (some 4) 3, rfl⟩ with dma.k := 1, dma.burstK := 2 }
    let y := { master .dYield .rd (.buf 4) 3 ⟨.dmaReadBlock 0x2010 (some 4) 3, rfl⟩ with dma.k := 2, dma.yieldK := 1 }
    s.dma.active = true ∧ s.en.armed = false ∧ s.dma.state = .dXfer ∧ s.dma.xferPending = true ∧
      s.dma.k + 1 ≠ s.dma.count ∧ s.dma.burstK = s.par.burstMax ∧ 0 < s.par.refreshIdle ∧
      { s with par.refreshIdle := 0 }.par.refreshIdle = 0 ∧
    y.dma.active = true ∧ y.en.armed = false ∧ y.dma.state = .dYield ∧ y.dma.k ≠ y.dma.count ∧ 0 < y.dma.yieldK ∧
      { y with dma.yieldK := 0 }.dma.yieldK = 0 := by decide

theorem test_wit_LastByteReleasesTheBus :
    ∀ c ∈ [(⟨.dmaReadBlock 0x2010 (some 4) 1, rfl⟩ : Cmd), ⟨.dmaWriteBlock 0x2010 (some 4) 1, rfl⟩,
        ⟨.dmaWriteByte 0x2010 0x5A, rfl⟩, ⟨.dmaWriteWord 0x2010 0xBEEF, rfl⟩],
      let s := { master .dXfer .wr (.buf 4) 1 c with lines.drvD := some 0x5A }
      s.dma.active = true ∧ s.en.armed = false ∧ s.dma.state = .dXfer ∧ s.dma.xferPending = true ∧
        s.dma.k + 1 = s.dma.count ∧ s.par.resume = .sameCycleP1F ∧ s.fg.wait = some c ∧
        OneDriver (evP1R noBus s) noBus 0x5A ∧ (classify s.par.intack 0b000).1 ≠ .read ∧
        (classify s.par.intack 0b000).1 ≠ .interruptAck := by decide

/-- The byte wrapper's edge, the word wrapper's two, the second of them also as the first leaves it, and a yield. -/
theorem test_wit_ReadWrappersReturnTheBusBytes :
    let s := master .dXfer .rd .scratch 1 ⟨.dmaReadByte 0x3000, rfl⟩
    let w := master .dXfer .rd .scratch 2 ⟨.dmaReadWord 0x3000, rfl⟩
    let w1 := { w with dma.k := 1 }
    let y := master .dYield .rd .scratch 2 ⟨.dmaReadWord 0x3000, rfl⟩
    (∀ t ∈ [s, w, w1, y], t.dma.active = true ∧ t.en.armed = false ∧ t.dma.dir = .rd ∧ t.dma.tgt = .scratch ∧
      t.par.resume = .sameCycleP1F) ∧
    (∀ t ∈ [s, w, w1], t.dma.state = .dXfer ∧ t.dma.xferPending = true ∧ OneDriver t (bus 0x7E) 0x7E) ∧
    s.dma.count = 1 ∧ s.dma.k = 0 ∧ s.fg.wait = some ⟨.dmaReadByte 0x3000, rfl⟩ ∧
    w.dma.count = 2 ∧ w.dma.k = 0 ∧ w.fg.wait = some ⟨.dmaReadWord 0x3000, rfl⟩ ∧ w.dma.burstK ≠ w.par.burstMax ∧
      OneDriver (evP1F noBus 0 false (evP1R (bus 0x7E) w)) (bus 0x22) 0x22 ∧
    w1.dma.count = 2 ∧ w1.dma.k = 1 ∧ w1.fg.wait = some ⟨.dmaReadWord 0x3000, rfl⟩ ∧ y.dma.xferPending = false := by
  decide

/-- Each command that can be waiting; the read wrappers with one driver at their last byte. -/
theorem test_wit_LateReleaseWaitsForTheFallingEdge :
    (∀ c ∈ [(⟨.dmaReadBlock 0x2010 (some 4) 1, rfl⟩ : Cmd), ⟨.dmaWriteBlock 0x2010 (some 4) 1, rfl⟩,
        ⟨.dmaWriteByte 0x2010 0x5A, rfl⟩, ⟨.dmaWriteWord 0x2010 0xBEEF, rfl⟩, ⟨.dmaReadByte 0x3000, rfl⟩],
      let s := { master .dXfer .rd .scratch 1 c with par.resume := .nextCycleP1R }
      s.dma.active = true ∧ s.en.armed = false ∧ s.dma.state = .dXfer ∧ s.dma.xferPending = true ∧
        s.dma.k + 1 = s.dma.count ∧ s.par.resume = .nextCycleP1R ∧ s.fg.wait = some c ∧ s.dma.dir = .rd ∧
        s.dma.tgt = .scratch ∧ s.dma.k = 0 ∧ OneDriver s (bus 0x7E) 0x7E) ∧
    (let w := { master .dXfer .rd .scratch 2 ⟨.dmaReadWord 0x3000, rfl⟩ with par.resume := .nextCycleP1R, dma.k := 1 }
     w.dma.active = true ∧ w.en.armed = false ∧ w.dma.state = .dXfer ∧ w.dma.xferPending = true ∧
       w.dma.k + 1 = w.dma.count ∧ w.par.resume = .nextCycleP1R ∧ w.fg.wait = some ⟨.dmaReadWord 0x3000, rfl⟩ ∧
       w.dma.dir = .rd ∧ w.dma.tgt = .scratch ∧ w.dma.k = 1 ∧ OneDriver w (bus 0x22) 0x22) := by decide

/-- A served and an unserved address. -/
theorem test_wit_PeersServeReadsAndWrites :
    let s := { demo with peers.write := some 0x2000 }
    classify s.par.intack 0b010 = (.read, false) ∧ classify s.par.intack 0b001 = (.write, false) ∧
      s.peers.write = some 0x2000 ∧ OneDriver s (bus 0x5A) 0x5A ∧ hostRead s.peers.mem 0x2000 = some 0x00 ∧
      (0x1000 : Bits16) ≠ 0x2000 ∧ demo.peers.write = none ∧ hostRead s.peers.mem 0x3000 = none := by decide

/-- The engine has just taken the bus for a DMA_READ_BYTE at an address the peers serve, and five clock edges are to
come before the byte's. -/
def readByteRun : State :=
  { master .dAddrLo .rd .scratch 1 ⟨.dmaReadByte 0x2010, rfl⟩ with
    peers := ⟨[(0x2010, 0x7E)], 0x1234, 0x34, false, false, none, none⟩
    turns := [.fall noBus 0 false, .rise noBus, .fall noBus 0 false, .rise noBus, .fall noBus 0 false, .rise .peers] }

theorem master_coherent (st : DmaSub) (dir : DmaDir) (tgt : DmaTarget) (n : Nat) (cmd : Cmd) (h : st ≠ .dIdle)
    (h' : st ≠ .dSettle) : Coherent (master st dir tgt n cmd) :=
  ⟨⟨fun _ => rfl, fun _ => rfl, fun _ => ⟨rfl, rfl⟩, fun _ => rfl, nofun, nofun⟩,
    ⟨fun e => absurd e h, nofun⟩, nofun, fun _ => ⟨h, h'⟩, fun _ => nofun, fun _ => rfl, fun _ => rfl, fun _ => rfl⟩

theorem test_wit_DmaReadByteReturnsHostMemory :
    let s := readByteRun
    Coherent s ∧ Unmarked s ∧ s.par.intack = .p111 ∧ s.par.resume = .sameCycleP1F ∧ s.dma.active = true ∧
      s.dma.state = .dAddrLo ∧ s.dma.dir = .rd ∧ s.dma.addr = 0x2010 ∧ s.dma.tgt = .scratch ∧ s.dma.count = 1 ∧
      s.dma.k = 0 ∧ s.fg.wait = some ⟨.dmaReadByte 0x2010, rfl⟩ ∧ s.lines.ctrlOut = 0b100 ∧ s.lines.drvD = none ∧
      s.peers.write = none ∧ hostRead s.peers.mem 0x2010 = some 0x7E ∧ s.en.lastEvent = some .p1r ∧
      s.turns = [.fall (.given none) 0 false, .rise (.given none), .fall (.given none) 0 false, .rise (.given none),
        .fall (.given none) 0 false, .rise .peers] :=
  ⟨⟨⟨fun _ => rfl, fun _ => rfl, fun _ => ⟨rfl, rfl⟩, fun _ => rfl, nofun, nofun⟩, ⟨nofun, nofun⟩, nofun,
      fun _ => ⟨nofun, nofun⟩, fun _ => nofun, fun _ => rfl, fun _ => rfl, fun _ => rfl⟩, ⟨rfl, rfl⟩, by decide⟩

/-- The engine has just taken the bus for a DMA_WRITE_WORD that the peers serve, and seven clock edges are to come before
the last byte's. -/
def writeWordRun (a : Bits16) : State :=
  { master .dAddrLo .wr .scratch 2 ⟨.dmaWriteWord a 0xBEEF, rfl⟩ with
    dma := { (master .dAddrLo .wr .scratch 2 ⟨.dmaWriteWord a 0xBEEF, rfl⟩).dma with
      addr := a, wbuf0 := 0xEF, wbuf1 := 0xBE }
    peers := ⟨[(a.toNat, 0x00), ((a + 1).toNat, 0x00)], 0x1234, 0x34, false, false, none, none⟩
    turns := [.fall noBus 0 false, .rise noBus, .fall noBus 0 false, .rise noBus, .fall noBus 0 false, .rise noBus,
      .fall noBus 0 false, .rise noBus] }

/-- Both addresses served, and one that is not. -/
theorem test_wit_DmaWriteWordAddresses :
    hostRead (writeWordRun 0xFEFF).peers.mem 0xFEFF ≠ none ∧ hostRead (writeWordRun 0xFEFF).peers.mem 0xFF00 ≠ none ∧
      hostRead (writeWordRun 0xFEFF).peers.mem 0x3000 = none ∧ highByte 0xFEFF ≠ demoPar.ioPage ∧
      highByte 0xFF40 = demoPar.ioPage := by decide

/-- Outside I/O space, at the last address before it, and inside. -/
theorem test_wit_DmaWriteWordReachesHostMemory : ∀ a ∈ [(0x2010 : Bits16), 0xFEFF, 0xFF40],
    let s := writeWordRun a
    Coherent s ∧ Unmarked s ∧ s.par.intack = .p111 ∧ s.par.resume = .sameCycleP1F ∧ s.dma.active = true ∧
      s.dma.state = .dAddrLo ∧ s.dma.dir = .wr ∧ s.dma.addr = a ∧ s.dma.tgt = .scratch ∧ s.dma.count = 2 ∧
      s.dma.k = 0 ∧ s.dma.burstK = 0 ∧ 1 < s.par.burstMax ∧ s.dma.wbuf0 = lowByte 0xBEEF ∧
      s.dma.wbuf1 = highByte 0xBEEF ∧ s.fg.wait = some ⟨.dmaWriteWord a 0xBEEF, rfl⟩ ∧ s.lines.ctrlOut = 0b100 ∧
      s.lines.drvD = none ∧ s.peers.write = none ∧ s.en.lastEvent = some .p1r ∧
      s.turns = [.fall (.given none) 0 false, .rise (.given none), .fall (.given none) 0 false, .rise (.given none),
        .fall (.given none) 0 false, .rise (.given none), .fall (.given none) 0 false, .rise (.given none)] :=
  fun a _ =>
    ⟨⟨⟨fun _ => rfl, fun _ => rfl, fun _ => ⟨rfl, rfl⟩, fun _ => rfl, nofun, nofun⟩, ⟨nofun, nofun⟩, nofun,
      fun _ => ⟨nofun, nofun⟩, fun _ => nofun, fun _ => rfl, fun _ => rfl, fun _ => rfl⟩, ⟨rfl, rfl⟩, rfl, rfl, rfl, rfl,
      rfl, rfl, rfl, rfl, rfl, rfl, by show 1 < 2; decide, rfl, rfl, rfl, rfl, rfl, rfl, rfl, rfl⟩

/-! The whole-machine statements speak of any step: here is one each that answers a next state. -/

theorem test_wit_EveryStepKeepsCoherence :
    Coherent { demo with turns := [.rise noBus], en.lastEvent := none } ∧
      step { demo with turns := [.rise noBus], en.lastEvent := none } =
        .next (evP1R noBus { demo with en.lastEvent := none }) :=
  ⟨⟨⟨nofun, nofun, nofun, nofun, nofun, nofun⟩, ⟨fun _ => rfl, fun _ => rfl⟩, nofun, nofun, nofun, nofun, nofun,
    fun _ => rfl⟩, rfl⟩

theorem test_wit_EveryStepKeepsTheRanges :
    InRange { demo with turns := [.foreground], prog := [0x08] } ∧
      step { demo with turns := [.foreground], prog := [0x08] } = .next (armDispatcher demo) :=
  ⟨⟨⟨by decide, by decide⟩, by decide, by decide, by decide, by decide, by decide, nofun, fun _ => rfl,
    fun _ h => absurd rfl h, fun _ _ => rfl⟩, rfl⟩

theorem test_wit_EveryStepKeepsTheCanonicalForms :
    InRange { demo with turns := [.foreground], prog := [0x08] } ∧
      Canonical { demo with turns := [.foreground], prog := [0x08] } :=
  ⟨test_wit_EveryStepKeepsTheRanges.1, ⟨⟨by decide, by decide⟩, ⟨⟨by decide, by decide⟩, by decide⟩,
    ⟨by decide, by decide⟩, ⟨by decide, by decide⟩, ⟨by decide, by decide⟩, ⟨by decide, by decide⟩⟩⟩

theorem test_wit_TablesAreFixedOnceArmed :
    demo.en.armedOnce = true ∧ (∀ ts, demo.turns ≠ .reset :: ts) ∧ step demo = .next demo := ⟨rfl, nofun, rfl⟩

/-- The last byte's data edge releases the bus. -/
theorem test_wit_OnlyTheReleaseClearsHalt :
    let s := { master .dXfer .rd .scratch 1 ⟨.dmaReadByte 0x3000, rfl⟩ with
      turns := [.rise (bus 0x7E)], en.lastEvent := some .p1f }
    Coherent s ∧ (∀ ts, s.turns ≠ .reset :: ts) ∧ s.lines.halt = true ∧
      ∃ t, step s = .next t ∧ t.lines.halt = false :=
  ⟨⟨⟨fun _ => rfl, fun _ => rfl, fun _ => ⟨rfl, rfl⟩, fun _ => rfl, nofun, nofun⟩, ⟨nofun, nofun⟩, nofun,
      fun _ => ⟨nofun, nofun⟩, fun _ => nofun, fun _ => rfl, fun _ => rfl, fun _ => rfl⟩, nofun, rfl, _, rfl, rfl⟩

theorem test_wit_DispatcherIsFrozenDuringDma :
    let s := { readByteRun with par := demoPar }
    Coherent s ∧ s.dma.active = true ∧ (∀ ts, s.turns ≠ .reset :: ts) ∧ ∃ t, step s = .next t :=
  ⟨test_wit_DmaReadByteReturnsHostMemory.1, rfl, nofun, _, rfl⟩

theorem test_wit_MasterPatternsAreLoadStrobeOrIdle :
    Coherent readByteRun ∧ readByteRun.lines.ctrlMode = .device ∧
      readByteRun.lines.ctrlOut ∈ ([0b100, 0b010, 0b001, 0b000] : List Bits3) ∧
      ∃ t, step readByteRun = .next t ∧ t.lines.ctrlMode = .device :=
  ⟨test_wit_DmaReadByteReturnsHostMemory.1, rfl, by decide, _, rfl, rfl⟩

theorem test_wit_RequestLinesFollowTheArbiter :
    let s := withInt .requestPending true true true
    (s.lines.irq = true ↔ s.int.arb = .requestPending) ∧ (s.lines.priOut = true ↔ s.int.arb = .requestPending) ∧
      step s = .next s := ⟨by decide, by decide, rfl⟩

end Sys2Proof.Tests
end

section
/-! What a capture of the data bus sees (R37). -/

namespace Sys2Proof.Machine
open Sys2Proof

/-- Nobody drives: the capture is a draw (R7). -/
theorem busValue_undriven {s : State} (h : s.lines.drvD = none) : busValue none s = drawByte s := by
  unfold busValue; rw [h]

/-- Both sides drive: the capture is a draw, made after the fault is recorded. -/
theorem busValue_contended {s : State} {u : Byte} (v : Byte) (h : s.lines.drvD = some u) :
    busValue (some v) s = drawByte (raiseContention s) := by
  unfold busValue; rw [h]

/-- Settles O14: one lemma for each of the four cases of R37. -/
theorem captureSeesTheDrivenByte : Obligations.CaptureSeesTheDrivenByte := by
  intro s v u
  refine ⟨busValue_others v, busValue_own, busValue_undriven, fun h => ?_⟩
  rw [busValue_contended v h]
  exact ⟨rfl, rfl⟩

end Sys2Proof.Machine
end

section
/-! The ranges of the counters (R26, R28). Most of a step leaves every element that `InRange` speaks of; the few
operations that move a counter each keep it in its range. -/

namespace Sys2Proof.Machine
open Sys2Proof

/-- Every element of the state that `InRange` speaks of. -/
def rangeFields (s : State) : Params × Nat × Nat × Nat × Nat × Nat × Bool × DmaSub × DmaTarget :=
  (s.par, s.trace.idx, s.dma.count, s.dma.k, s.dma.burstK, s.dma.yieldK, s.dma.xferPending, s.dma.state, s.dma.tgt)

theorem InRange.of_rangeFields {s t : State} (h : InRange s) (e : rangeFields t = rangeFields s) : InRange t := by
  simp only [rangeFields, Prod.mk.injEq] at e
  obtain ⟨hpar, hidx, hcount, hk, hburst, hyield, hpending, hstate, htgt⟩ := e
  exact h.congr hpar hcount hk hburst hyield hidx hpending hstate htgt

/-! The operations that move no counter. -/

theorem applyCmd_rangeFields (s : State) (c : Cmd) : rangeFields (applyCmd s c) = rangeFields s :=
  applyCmd_keeps rangeFields s c (fun _ _ => rfl) (fun _ _ => rfl) (fun _ _ => rfl) (fun _ => rfl)
    (fun _ _ _ => rfl) fun _ _ => rfl

theorem peersP1R_rangeFields (e : Option Byte) (s : State) : rangeFields (peersP1R e s) = rangeFields s :=
  peersP1R_keeps rangeFields e s (fun _ _ => rfl) fun _ _ => rfl

theorem peersP1F_rangeFields (e : Option Byte) (p : Bits3) (s : State) :
    rangeFields (peersP1F e p s) = rangeFields s :=
  peersP1F_keeps rangeFields e p s (fun _ _ => rfl) fun _ _ => rfl

theorem handoffStep_rangeFields (s : State) : rangeFields (handoffStep s) = rangeFields s := by
  unfold handoffStep
  split <;> rfl

theorem onP1F_rangeFields (e : Option Byte) (s : State) : rangeFields (onP1F e s) = rangeFields s :=
  onP1F_keeps rangeFields e s (fun _ _ => rfl) (fun _ _ => rfl) fun _ _ => rfl

theorem respondRead_rangeFields (s : State) : rangeFields (respondRead s) = rangeFields s :=
  respondRead_keeps rangeFields s
    (fun a t => resolveRead_keeps rangeFields a t (fun _ => rfl) fun cs u =>
      applyCmds_keeps rangeFields applyCmd_rangeFields cs u)
    fun _ _ => rfl

theorem onSP2_rangeFields (p : Bits3) (pri : Bool) (s : State) : rangeFields (onSP2 p pri s) = rangeFields s :=
  onSP2_keeps rangeFields p pri s respondRead_rangeFields (fun _ _ _ => rfl) (fun _ _ => rfl) fun _ => rfl

/-! The trace (R28, R136). -/

/-- `trace_idx` stays below `TRACE_SIZE`, which is no less than 1. -/
theorem tracePush_inRange {s : State} (d : Byte) (h : InRange s) : InRange (tracePush d s) := by
  have hidx : (tracePush d s).trace.idx = (s.trace.idx + 1) % s.par.traceSize := rfl
  have hlt : (tracePush d s).trace.idx < (tracePush d s).par.traceSize := by
    rw [hidx, tracePush_par]
    exact Nat.mod_lt _ (Nat.two_pow_pos _)
  obtain ⟨a1, a2, a3, a4, a5, -, a7, a8, a9, a10⟩ := h
  constructor
  case trace_idx_lt => exact hlt
  all_goals (simp only [tracePush_par, tracePush_dma]; assumption)

theorem onP1R_inRange {s : State} (e : Option Byte) (h : InRange s) : InRange (onP1R e s) :=
  onP1R_induct e s (fun _ _ => h.of_rangeFields rfl) (fun _ _ ht => ht.of_rangeFields rfl)
    (fun t c ht => ht.of_rangeFields (applyCmd_rangeFields t c)) (fun _ ht => ht.of_rangeFields rfl)
    fun _ d ht => tracePush_inRange d ht

/-! The engine (R115 to R123). -/

/-- The release clears every counter (R123). -/
theorem dmaRelease_inRange {s : State} (h : InRange s) : InRange (dmaRelease s) :=
  { h with
    k_le_count := Nat.zero_le _
    burst_le_max := Nat.zero_le _
    yield_le_refresh := Nat.zero_le _
    pending_in_xfer := nofun
    burst_only_in_xfer := fun _ => rfl
    buffer_fits := fun _ hbusy => absurd rfl hbusy
    no_byte_before_xfer := fun _ _ => rfl }

theorem dmaReleaseAtEdge_inRange {s : State} (h : InRange s) : InRange (dmaReleaseAtEdge s) :=
  (dmaRelease_inRange h).of_rangeFields rfl

/-- A new burst may start in any state of the engine (R121). -/
theorem InRange.burst_restarted {s : State} (h : InRange s) :
    InRange { s with dma := { s.dma with burstK := 0 } } :=
  { h with burst_le_max := Nat.zero_le _, burst_only_in_xfer := fun _ => rfl }

/-- A strobe is issued while a byte is left and the burst is not full (R119, R121). -/
theorem dmaIssue_inRange {s : State} (h : InRange s) (hbusy : s.dma.state ≠ .dIdle) (hk : s.dma.k ≠ s.dma.count)
    (hb : s.dma.burstK < s.par.burstMax) : InRange (dmaIssue s) :=
  { h with
    burst_le_max := hb
    pending_in_xfer := fun _ => ⟨rfl, Nat.lt_of_le_of_ne h.k_le_count hk⟩
    burst_only_in_xfer := fun hx => absurd rfl hx
    buffer_fits := fun b _ => h.buffer_fits b hbusy
    no_byte_before_xfer := fun hx => absurd rfl hx }

/-- A yield starts between two bytes, after a full burst (R121, R122). -/
theorem dmaBeginYield_inRange {s : State} (h : InRange s) (hbusy : s.dma.state ≠ .dIdle)
    (hp : s.dma.xferPending = false) (hb : s.dma.burstK = 0) : InRange (dmaBeginYield s) :=
  { h with
    yield_le_refresh := Nat.sub_le _ _
    pending_in_xfer := fun hx => absurd (hp.symm.trans hx) nofun
    burst_only_in_xfer := fun _ => hb
    buffer_fits := fun b _ => h.buffer_fits b hbusy
    no_byte_before_xfer := fun _ hy => absurd rfl hy }

/-- `NextCycle` runs between two bytes, when no strobe is pending (R121 to R123). -/
theorem dmaNextCycle_inRange {s : State} (h : InRange s) (hp : s.dma.xferPending = false)
    (hx : s.dma.state = .dXfer ∨ s.dma.state = .dYield) : InRange (dmaNextCycle s) := by
  have hbusy : s.dma.state ≠ .dIdle := by rcases hx with hx | hx <;> simp [hx]
  rcases dmaNextCycle_cases s with ⟨-, -, e⟩ | ⟨-, -, e⟩ | ⟨-, -, -, -, e⟩ | ⟨hk, -, -, -, e⟩ | ⟨-, -, -, e⟩ |
    ⟨hk, hfull, -, e⟩ <;> rw [e]
  · exact dmaReleaseAtEdge_inRange (h.of_rangeFields rfl)
  · exact h.of_rangeFields rfl
  · exact dmaBeginYield_inRange h.burst_restarted hbusy hp rfl
  · exact dmaIssue_inRange h.burst_restarted hbusy hk h.parameters_legal.2
  · exact { h with yield_le_refresh := (Nat.sub_le _ _).trans h.yield_le_refresh }
  · refine dmaIssue_inRange h hbusy hk ?_
    rcases hx with hx | hx
    · exact Nat.lt_of_le_of_ne h.burst_le_max fun hb => hfull ⟨hx, hb⟩
    · rw [h.burst_only_in_xfer (by simp [hx])]
      exact h.parameters_legal.2

/-- The data edge of a pending strobe completes one byte of those left (R120). -/
theorem dmaDataEdge_inRange {s : State} (e : Option Byte) (h : InRange s) (hp : s.dma.xferPending = true) :
    InRange (dmaDataEdge e s) ∧ (dmaDataEdge e s).dma.xferPending = false ∧ (dmaDataEdge e s).dma.state = .dXfer := by
  obtain ⟨hx, hk⟩ := h.pending_in_xfer hp
  obtain ⟨n, x, b, w0, w1, hd⟩ := dmaDataEdge_state e s
  rw [hd]
  exact ⟨{ h with
    k_le_count := hk
    pending_in_xfer := nofun
    no_byte_before_xfer := fun hn => absurd hx hn }, rfl, hx⟩

theorem InRange.not_pending {s : State} (h : InRange s) (hx : s.dma.state ≠ .dXfer) : s.dma.xferPending = false :=
  Bool.eq_false_iff.mpr fun hp => hx (h.pending_in_xfer hp).1

/-- Before the first strobe the engine moves from one busy sub-state to the next with its counters at 0 (R113, R115 to
R117). -/
theorem InRange.before_xfer {s t : State} (h : InRange s) (q : DmaSub)
    (e : rangeFields t = rangeFields { s with dma := { s.dma with state := q } })
    (hbusy : s.dma.state ≠ .dIdle) (hx : s.dma.state ≠ .dXfer) (hy : s.dma.state ≠ .dYield) : InRange t :=
  InRange.of_rangeFields (s := { s with dma := { s.dma with state := q } })
    { h with
      pending_in_xfer := fun hp => absurd (h.pending_in_xfer hp).1 hx
      burst_only_in_xfer := fun _ => h.burst_only_in_xfer hx
      buffer_fits := fun b _ => h.buffer_fits b hbusy
      no_byte_before_xfer := fun _ _ => h.no_byte_before_xfer hx hy } e

theorem engP1R_inRange {s : State} (e : Option Byte) (h : InRange s) : InRange (engP1R e s) := by
  unfold engP1R
  cases hs : s.dma.state with
  | dWaitAck => exact h.before_xfer .dAddrLo rfl (by simp [hs]) (by simp [hs]) (by simp [hs])
  | dAddrLo => exact h.before_xfer .dAddrHi rfl (by simp [hs]) (by simp [hs]) (by simp [hs])
  | dAddrHi =>
    have hk : s.dma.k = 0 := h.no_byte_before_xfer (by simp [hs]) (by simp [hs])
    have hb : s.dma.burstK = 0 := h.burst_only_in_xfer (by simp [hs])
    have hcount := h.count_positive
    exact dmaIssue_inRange h (by simp [hs]) (by omega) (hb ▸ h.parameters_legal.2)
  | dXfer =>
    by_cases hp : s.dma.xferPending = true
    · obtain ⟨hr, hn, hx⟩ := dmaDataEdge_inRange e h hp
      simp only [hp, if_true]
      exact dmaNextCycle_inRange hr hn (.inl hx)
    · simp only [hp, if_false, Bool.false_eq_true]
      exact dmaNextCycle_inRange h (Bool.eq_false_iff.mpr hp) (.inl hs)
  | dYield => exact dmaNextCycle_inRange h (h.not_pending (by simp [hs])) (.inr hs)
  | dIdle => exact h
  | dSettle => exact h

/-- At the falling edge the engine drives the bus, which moves no counter, or releases it (R116 to R119, R123). -/
theorem engP1F_inRange {s : State} (h : InRange s) : InRange (engP1F s) := by
  have hend : InRange (dmaEndDrive s) := h.of_rangeFields rfl
  have hdata : InRange (dmaDriveData (dmaEndDrive s)) := by
    unfold dmaDriveData
    split
    · exact hend.of_rangeFields rfl
    · exact hend
  unfold engP1F
  cases s.dma.state with
  | dAddrLo => exact hend.of_rangeFields rfl
  | dAddrHi => exact hend.of_rangeFields rfl
  | dXfer =>
    show InRange (dmaLateRelease _)
    unfold dmaLateRelease
    split
    · exact dmaRelease_inRange hdata
    · exact hdata
  | dYield => exact hend
  | dWaitAck => exact hend
  | dIdle => exact hend
  | dSettle => exact hend

/-! The clock events (R65). -/

theorem evP1R_inRange {s : State} (d : Drive) (h : InRange s) : InRange (evP1R d s) := by
  have h1 : InRange (handoffStep (peersP1R (others s d) s)) :=
    h.of_rangeFields ((handoffStep_rangeFields _).trans (peersP1R_rangeFields _ s))
  have h2 := iteInduction (motive := InRange) (c := dispatcherEnabled (handoffStep (peersP1R (others s d) s)))
    (fun _ => onP1R_inRange (others s d) h1) fun _ => h1
  exact (iteInduction (motive := InRange) (fun _ => engP1R_inRange (others s d) h2) fun _ => h2).of_rangeFields rfl

theorem evP1F_inRange {s : State} (d : Drive) (p : Bits3) (pri : Bool) (h : InRange s) : InRange (evP1F d p pri s) := by
  have h1 : InRange (peersP1F (others s d) p s) := h.of_rangeFields (peersP1F_rangeFields _ p s)
  have h2 := iteInduction (motive := InRange) (c := dispatcherEnabled (peersP1F (others s d) p s))
    (fun _ => h1.of_rangeFields ((onSP2_rangeFields p pri _).trans (onP1F_rangeFields (others s d) _))) fun _ => h1
  exact (iteInduction (motive := InRange) (fun _ => engP1F_inRange h2) fun _ => h2).of_rangeFields rfl

/-! The foreground and the reset (R110 to R113, R158). -/

/-- An accepted transfer starts with its counters at 0 and its buffer inside `BUF` (R110). -/
theorem dmaAccept_inRange {s : State} (dir : DmaDir) (addr : Bits16) {tgt : DmaTarget} {n : Nat} (c : Cmd)
    (h : InRange s) (hn : 0 < n) (hfit : ∀ b, tgt = .buf b → b + n ≤ s.par.bufSize) :
    InRange (dmaAccept dir addr tgt n c s) :=
  { h with
    count_positive := hn
    k_le_count := Nat.zero_le _
    burst_le_max := Nat.zero_le _
    yield_le_refresh := Nat.zero_le _
    pending_in_xfer := nofun
    burst_only_in_xfer := fun _ => rfl
    buffer_fits := fun b _ => hfit b
    no_byte_before_xfer := fun _ _ => rfl }

theorem dmaCommand_inRange {misuse : State → State} (hm : ∀ u, rangeFields (misuse u) = rangeFields u) (dir : DmaDir)
    (addr : Bits16) (tgt : Option DmaTarget) (n : Nat) (c : Cmd) {s : State} (h : InRange s) :
    InRange (dmaCommand misuse dir addr tgt n c s) := by
  rcases dmaCommand_cases misuse dir addr tgt n c s with ⟨r, e⟩ | e | ⟨q, -, hn, -, hfit, e⟩ <;> rw [e]
  · exact h.of_rangeFields rfl
  · exact h.of_rangeFields (hm s)
  · exact dmaAccept_inRange dir addr c h hn hfit

theorem exec_command_inRange {s t : State} {c : Cmd} (e : exec c.1 s = .next t) (h : InRange s) : InRange t := by
  have hzero : ∀ u, rangeFields (returnZero u) = rangeFields u := fun _ => rfl
  have hbyte : ∀ u, rangeFields (returnDrawnByte u) = rangeFields u := fun _ => rfl
  have hword : ∀ u, rangeFields (returnDrawnWord u) = rangeFields u := fun _ => rfl
  rcases exec_command c s with e' | ⟨a, b, n, e'⟩ | ⟨a, b, n, e'⟩ | ⟨a, e'⟩ | ⟨a, v, e'⟩ | ⟨a, e'⟩ | ⟨a, v, e'⟩ <;>
    rw [e'] at e <;> cases e
  · exact h.of_rangeFields (applyCmd_rangeFields s c)
  · exact dmaCommand_inRange hzero _ _ _ _ _ h
  · exact dmaCommand_inRange hzero _ _ _ _ _ h
  · exact dmaCommand_inRange hbyte _ _ _ _ _ h
  · exact dmaCommand_inRange hzero _ _ _ _ _ (h.of_rangeFields rfl)
  · exact dmaCommand_inRange hword _ _ _ _ _ h
  · exact dmaCommand_inRange hzero _ _ _ _ _ (h.of_rangeFields rfl)

theorem requestStep_inRange {s : State} (h : InRange s) (hs : s.dma.state = .dSettle) : InRange (requestStep s) :=
  h.before_xfer .dWaitAck rfl (by simp [hs]) (by simp [hs]) (by simp [hs])

/-- A reset leaves the parameters, and its other values are in range for every legal choice of them (R158). -/
theorem externalReset_inRange {s : State} (hlegal : s.par.legal) : InRange (externalReset s) where
  parameters_legal := hlegal
  count_positive := Nat.le_add_left 1 _
  k_le_count := Nat.zero_le _
  burst_le_max := Nat.zero_le _
  yield_le_refresh := Nat.zero_le _
  trace_idx_lt := Nat.two_pow_pos _
  pending_in_xfer := nofun
  burst_only_in_xfer _ := rfl
  buffer_fits _ hbusy := absurd rfl hbusy
  no_byte_before_xfer _ _ := rfl

/-- Settles O54, by the cases of a step: each kind of turn keeps the ranges. -/
theorem everyStepKeepsTheRanges : Obligations.EveryStepKeepsTheRanges := by
  intro s t h hstep
  rcases step_cases hstep with rfl | ⟨ts, -, rfl⟩ | ⟨d, ts, -, rfl⟩ | ⟨d, p, pri, ts, -, rfl⟩ |
    ⟨ts, -, rfl | ⟨hs, rfl⟩ | ⟨c, ws, -, -, e⟩⟩ | ⟨d, ts, -, rfl | ⟨-, rfl⟩⟩
  · exact h
  · exact externalReset_inRange h.parameters_legal
  · exact evP1R_inRange d (h.of_rangeFields rfl)
  · exact evP1F_inRange d _ pri (h.of_rangeFields rfl)
  · exact h.of_rangeFields rfl
  · exact requestStep_inRange (h.of_rangeFields rfl) hs
  · exact exec_command_inRange e (h.of_rangeFields rfl)
  · exact h.of_rangeFields rfl
  · exact h.of_rangeFields rfl

end Sys2Proof.Machine
end

section
/-! What each whole turn does, said once: a predicate kept by the parts of an event, of a command or of a step is kept by
the whole. -/

namespace Sys2Proof.Machine
open Sys2Proof

/-! The clock events (R65). -/

/-- The dispatcher's and the engine's parts of an event run or not; a predicate both keep needs no case on which. -/
theorem evP1R_induct {P : State → Prop} (d : Drive) {s : State} (hs : P s)
    (hpeers : ∀ e u, P u → P (peersP1R e u)) (hhandoff : ∀ u, P u → P (handoffStep u))
    (hdisp : ∀ e u, P u → P (onP1R e u)) (heng : ∀ e u, P u → P (engP1R e u))
    (hmark : ∀ u, P u → P (markEvent .p1r u)) : P (evP1R d s) := by
  have h1 := hhandoff _ (hpeers (others s d) s hs)
  have h2 := iteInduction (motive := P) (c := dispatcherEnabled (handoffStep (peersP1R (others s d) s)))
    (fun _ => hdisp (others s d) _ h1) fun _ => h1
  exact hmark _ (iteInduction (motive := P) (fun _ => heng (others s d) _ h2) fun _ => h2)

theorem evP1F_induct {P : State → Prop} (d : Drive) (p : Bits3) (pri : Bool) {s : State} (hs : P s)
    (hpeers : ∀ e u, P u → P (peersP1F e p u)) (hfall : ∀ e u, P u → P (onP1F e u))
    (hsample : ∀ u, P u → P (onSP2 p pri u)) (heng : ∀ u, P u → P (engP1F u))
    (hmark : ∀ u, P u → P (markEvent .p1f u)) : P (evP1F d p pri s) := by
  have h1 := hpeers (others s d) s hs
  have h2 := iteInduction (motive := P) (c := dispatcherEnabled (peersP1F (others s d) p s))
    (fun _ => hsample _ (hfall (others s d) _ h1)) fun _ => h1
  exact hmark _ (iteInduction (motive := P) (fun _ => heng _ h2) fun _ => h2)

/-- `OnSP2` in its parts: a read may run a handler, the arbiter and the request line move, an acknowledge is taken, and
the schedule is set (R70). -/
theorem onSP2_induct {P : State → Prop} (p : Bits3) (pri : Bool) {s : State} (hs : P s)
    (hdisp : ∀ u r, P u → P { u with disp := r }) (hread : ∀ u, P u → P (respondRead u))
    (harb : ∀ cyc u, P u → P (arbStep cyc pri u)) (hhalt : ∀ u, P u → P (driveHalt u))
    (hack : ∀ u, P u → P (acknowledgeDma u)) : P (onSP2 p pri s) := by
  have h1 : P (setClassification p s) := hdisp s _ hs
  have h2 : P (beforeArbiter p s) := iteInduction (motive := P) (fun _ => hread _ h1) fun _ => h1
  exact hdisp _ _ (hack _ (hhalt _ (harb _ _ h2)))

/-- In a coherent state at most one of the dispatcher and the engine has the rising edge (R68, R140). -/
theorem evP1R_cases {s : State} (h : Coherent s) (d : Drive) :
    (dispatcherEnabled s = true ∧ evP1R d s = markEvent .p1r (onP1R (others s d) (peersP1R (others s d) s))) ∨
    (s.dma.ack = true ∧ s.dma.active = false ∧
      evP1R d s = markEvent .p1r (engP1R (others s d) (handoffStep (peersP1R (others s d) s)))) ∨
    (s.dma.active = true ∧ evP1R d s = markEvent .p1r (engP1R (others s d) (peersP1R (others s d) s))) ∨
    evP1R d s = markEvent .p1r (peersP1R (others s d) s) := by
  by_cases he : dispatcherEnabled s = true
  · obtain ⟨hk, ha, -⟩ := h.serving he
    exact .inl ⟨he, evP1R_serving d he hk ha⟩
  · rw [Bool.not_eq_true] at he
    cases ha : s.dma.active with
    | true => exact .inr (.inr (.inl ⟨rfl, evP1R_master d (h.active_is_master ha).1 ha⟩))
    | false =>
      cases hk : s.dma.ack with
      | true => exact .inr (.inl ⟨rfl, rfl, evP1R_handoff d (h.ack_disarms hk) hk ha⟩)
      | false => exact .inr (.inr (.inr (evP1R_asleep d he hk ha)))

/-- The same at the falling edge. -/
theorem evP1F_cases {s : State} (h : Coherent s) (d : Drive) (p : Bits3) (pri : Bool) :
    (dispatcherEnabled s = true ∧
      evP1F d p pri s = markEvent .p1f (onSP2 p pri (onP1F (others s d) (peersP1F (others s d) p s)))) ∨
    (s.dma.active = true ∧ evP1F d p pri s = markEvent .p1f (engP1F (peersP1F (others s d) p s))) ∨
    evP1F d p pri s = markEvent .p1f (peersP1F (others s d) p s) := by
  by_cases he : dispatcherEnabled s = true
  · exact .inl ⟨he, evP1F_serving d p pri he (h.serving he).2.1⟩
  · rw [Bool.not_eq_true] at he
    cases ha : s.dma.active with
    | true => exact .inr (.inl ⟨rfl, evP1F_master d p pri (h.active_is_master ha).1 ha⟩)
    | false => exact .inr (.inr (evP1F_asleep d p pri he ha))

/-! Commands. -/

/-- A table is canonical with keys below a bound. -/
def KeyedBelow {α : Type} (n : Nat) (m : Sparse α) : Prop := Sparse.rising m ∧ ∀ c ∈ m, c.1 < n

theorem KeyedBelow.nil {α : Type} (n : Nat) : KeyedBelow n ([] : Sparse α) := ⟨rising_nil, nofun⟩

theorem KeyedBelow.set {α : Type} {n k : Nat} {m : Sparse α} (h : KeyedBelow n m) (hk : k < n) (v : α) :
    KeyedBelow n (sparseSet k v m) :=
  ⟨sparseSet_rising h.1, fun c hc => (mem_sparseSet hc).elim (fun e => e ▸ hk) (h.2 c)⟩

theorem KeyedBelow.erase {α : Type} {n : Nat} {m : Sparse α} (h : KeyedBelow n m) (k : Nat) :
    KeyedBelow n (sparseErase k m) :=
  ⟨sparseErase_rising h.1, fun c hc => h.2 c (mem_sparseErase hc)⟩

theorem KeyedBelow.put {α : Type} {n k : Nat} {m : Sparse α} (h : KeyedBelow n m) (hk : k < n) (v : Option α) :
    KeyedBelow n (sparsePut k v m) :=
  ⟨sparsePut_rising h.1, fun c hc => (mem_sparsePut hc).elim (fun e => e ▸ hk) (h.2 c)⟩

/-- The I/O tables and the claim list are canonical, with keys of their spaces (R22, R23). -/
structure TablesCanonical (p : Params) (t : Tables) : Prop where
  read_table : KeyedBelow 256 t.rdTab
  write_table : KeyedBelow 256 t.wrTab
  claim_list : KeyedBelow p.maxClaims t.claims

/-- What one command that a handler may issue can do to `s` (R90 to R94, R104 to R107, R133 to R135). -/
inductive CommandEffect (s : State) : State → Prop where
  | refused (r : RefuseReason) : CommandEffect s (refuse r s)
  /-- The tables change before the first ARM only, and stay canonical. -/
  | registered (t : Tables) (late : s.en.armedOnce = false)
      (canonical : TablesCanonical s.par s.tabs → TablesCanonical s.par t) :
      CommandEffect s (setResult .done { s with tabs := t })
  | armed : CommandEffect s (armDispatcher s)
  | traced (b : Bool) : CommandEffect s (setResult .done { s with trace := { s.trace with active := b } })
  /-- A command sets the arbiter's bits and vector, never its state. -/
  | arbiter (i : Arbiter) (same_state : i.arb = s.int.arb) : CommandEffect s (setResult .done { s with int := i })

theorem registerStep_effect (g : Tables → Tables) {s : State}
    (hg : TablesCanonical s.par s.tabs → TablesCanonical s.par (g s.tabs)) : CommandEffect s (registerStep g s) := by
  unfold registerStep
  split
  · exact .refused _
  · next ho => exact .registered _ (Bool.eq_false_iff.mpr ho) hg

theorem regRead_effect (lo : Byte) (h : Nat) (s : State) : CommandEffect s (regRead lo h s) :=
  registerStep_effect _ fun ht => { ht with read_table := ht.read_table.set lo.isLt h }

theorem regWrite_effect (lo : Byte) (h : Nat) (s : State) : CommandEffect s (regWrite lo h s) :=
  registerStep_effect _ fun ht => { ht with write_table := ht.write_table.set lo.isLt h }

theorem unregister_effect (lo : Byte) (s : State) : CommandEffect s (unregister lo s) :=
  registerStep_effect _ fun ht =>
    { ht with read_table := ht.read_table.erase lo.toNat, write_table := ht.write_table.erase lo.toNat }

theorem claimSet_effect (i : Nat) (c : Option Nat) (s : State) : CommandEffect s (claimSet i c s) := by
  unfold claimSet
  split
  · exact .refused _
  · next hi =>
    exact registerStep_effect _ fun ht => { ht with claim_list := ht.claim_list.put (Nat.lt_of_not_ge hi) c }

theorem applyCmd_effect (s : State) (c : Cmd) : CommandEffect s (applyCmd s c) := by
  obtain ⟨i, hi⟩ := c
  cases i with
  | regRead lo h => exact regRead_effect lo h s
  | regWrite lo h => exact regWrite_effect lo h s
  | unregister lo => exact unregister_effect lo s
  | claimSet i c => exact claimSet_effect i c s
  | arm => exact .armed
  | traceStart => exact .traced true
  | traceStop => exact .traced false
  | intSetVector v => exact .arbiter { s.int with vector := v } rfl
  | intEnable b => exact .arbiter { s.int with enable := b } rfl
  | intRequest b => exact .arbiter { s.int with pending := b } rfl
  | intWant b => exact .arbiter { s.int with want := b } rfl
  | dmaReadBlock | dmaWriteBlock | dmaReadByte | dmaWriteByte | dmaReadWord | dmaWriteWord | reserved =>
    exact .refused _
  | idle | addrLoad | read | readAl | write | writeAl | dmaAck | intAck => exact absurd hi nofun

/-- A predicate that the parts of a foreground command keep is kept by the command. -/
theorem exec_command_induct {P : State → Prop} {s t : State} {c : Cmd} (e : exec c.1 s = .next t) (hs : P s)
    (happly : P (applyCmd s c)) (hrefuse : ∀ u r, P u → P (refuse r u))
    (hreturn : ∀ u v n, P u → P (setResult v { u with draws := n }))
    (hscratch : ∀ (u : State) w0 w1, P u → P { u with dma := { u.dma with wbuf0 := w0, wbuf1 := w1 } })
    (haccept : ∀ u dir addr tgt n c, P u → u.dma.state = .dIdle → P (dmaAccept dir addr tgt n c u)) : P t := by
  have block : ∀ misuse dir addr tgt n c u, (P u → P (misuse u)) → P u →
      P (dmaCommand misuse dir addr tgt n c u) := by
    intro misuse dir addr tgt n c u hm hu
    rcases dmaCommand_cases misuse dir addr tgt n c u with ⟨r, e⟩ | e | ⟨q, -, -, hi, -, e⟩ <;> rw [e]
    · exact hrefuse u r hu
    · exact hm hu
    · exact haccept u dir addr q n c hu hi
  rcases exec_command c s with e' | ⟨a, b, n, e'⟩ | ⟨a, b, n, e'⟩ | ⟨a, e'⟩ | ⟨a, v, e'⟩ | ⟨a, e'⟩ | ⟨a, v, e'⟩ <;>
    rw [e'] at e <;> cases e
  · exact happly
  · exact block _ _ _ _ _ _ _ (hreturn s _ s.draws) hs
  · exact block _ _ _ _ _ _ _ (hreturn s _ s.draws) hs
  · exact block _ _ _ _ _ _ _ (hreturn s _ _) hs
  · exact block _ _ _ _ _ _ _ (hreturn _ _ s.draws) (hscratch s v s.dma.wbuf1 hs)
  · exact block _ _ _ _ _ _ _ (hreturn s _ _) hs
  · exact block _ _ _ _ _ _ _ (hreturn _ _ s.draws) (hscratch s _ _ hs)

/-! Steps. -/

/-- A predicate that every kind of turn keeps is kept by a step. The reset comes with the turns it is met in, so that a
statement that excludes it can say so. -/
theorem step_induct {P : State → Prop} {s t : State} (hstep : step s = .next t) (hs : P s)
    (henv : ∀ (u : State) ts ws d, P u → P { u with turns := ts, prog := ws, dev := d })
    (hreset : ∀ ts, s.turns = .reset :: ts → P (externalReset { s with turns := ts }))
    (hrise : ∀ d u, P u → P (evP1R d u)) (hfall : ∀ d p pri u, P u → P (evP1F d p pri u))
    (hrequest : ∀ u, P u → u.dma.state = .dSettle → P (requestStep u))
    (hexec : ∀ (c : Cmd) u v, P u → u.fg.wait = none → exec c.1 u = .next v → P v) : P t := by
  rcases step_cases hstep with rfl | ⟨ts, hr, rfl⟩ | ⟨d, ts, -, rfl⟩ | ⟨d, p, pri, ts, -, rfl⟩ |
    ⟨ts, -, rfl | ⟨hq, rfl⟩ | ⟨c, ws, -, hw, e⟩⟩ | ⟨d, ts, -, rfl | ⟨-, rfl⟩⟩
  · exact hs
  · exact hreset ts hr
  · exact hrise d _ (henv s ts s.prog s.dev hs)
  · exact hfall d _ pri _ (henv s ts s.prog s.dev hs)
  · exact henv s ts s.prog s.dev hs
  · exact hrequest _ (henv s ts s.prog s.dev hs) hq
  · exact hexec c _ t (henv s ts ws s.dev hs) hw e
  · exact henv s ts s.prog s.dev hs
  · exact henv s ts s.prog d hs

end Sys2Proof.Machine
end

section
/-! What the engine's steps as bus master leave unchanged, and how they leave the transfer (R115 to R123). -/

namespace Sys2Proof.Machine
open Sys2Proof

/-- What no step of the engine writes: the dispatcher, the tables, the arbiter with its lines, the trace, and what only an
ARM or an acknowledge sets (R30). -/
structure EngineFrame (s t : State) : Prop where
  par : t.par = s.par
  disp : t.disp = s.disp
  tabs : t.tabs = s.tabs
  int : t.int = s.int
  trace : t.trace = s.trace
  dev : t.dev = s.dev
  irq : t.lines.irq = s.lines.irq
  priOut : t.lines.priOut = s.lines.priOut
  rdy : t.lines.rdy = s.lines.rdy
  armedOnce : t.en.armedOnce = s.en.armedOnce
  request : t.dma.request = s.dma.request

theorem EngineFrame.rfl {s : State} : EngineFrame s s := by constructor <;> exact Eq.refl _

theorem EngineFrame.trans {s t u : State} (h : EngineFrame s t) (k : EngineFrame t u) : EngineFrame s u where
  par := k.par.trans h.par
  disp := k.disp.trans h.disp
  tabs := k.tabs.trans h.tabs
  int := k.int.trans h.int
  trace := k.trace.trans h.trace
  dev := k.dev.trans h.dev
  irq := k.irq.trans h.irq
  priOut := k.priOut.trans h.priOut
  rdy := k.rdy.trans h.rdy
  armedOnce := k.armedOnce.trans h.armedOnce
  request := k.request.trans h.request

/-- The engine is past its request: it waits for the acknowledge or is bus master (R109). -/
abbrev EngineBusy (s : State) : Prop := s.dma.state ≠ .dIdle ∧ s.dma.state ≠ .dSettle

/-- The transfer is still in progress: the handshake, the blocked command, the arming, `halt` and the ownership of the
control lines are as they were. -/
structure TransferGoesOn (s t : State) : Prop where
  active : t.dma.active = s.dma.active
  ack : t.dma.ack = s.dma.ack
  busy : EngineBusy t
  wait : t.fg.wait = s.fg.wait
  armed : t.en.armed = s.en.armed
  halt : t.lines.halt = s.lines.halt
  ctrlMode : t.lines.ctrlMode = s.lines.ctrlMode

theorem TransferGoesOn.trans {s t u : State} (h : TransferGoesOn s t) (k : TransferGoesOn t u) : TransferGoesOn s u where
  active := k.active.trans h.active
  ack := k.ack.trans h.ack
  busy := k.busy
  wait := k.wait.trans h.wait
  armed := k.armed.trans h.armed
  halt := k.halt.trans h.halt
  ctrlMode := k.ctrlMode.trans h.ctrlMode

/-- The transfer has been released: nothing of it is left, and the foreground goes on (R123, R125). -/
structure TransferEnded (t : State) : Prop where
  active : t.dma.active = false
  ack : t.dma.ack = false
  idle : t.dma.state = .dIdle
  wait : t.fg.wait = none
  ctrlMode : t.lines.ctrlMode = .host

/-- What a step of the engine can come to: its frame holds, and a transfer that was in progress goes on or ends. -/
structure EngineStep (s t : State) : Prop where
  frame : EngineFrame s t
  outcome : EngineBusy s → TransferGoesOn s t ∨ TransferEnded t

theorem EngineStep.goesOn {s t : State} (h : EngineFrame s t) (k : EngineBusy s → TransferGoesOn s t) :
    EngineStep s t := ⟨h, fun b => .inl (k b)⟩

theorem EngineStep.ended {s t : State} (h : EngineFrame s t) (k : TransferEnded t) : EngineStep s t :=
  ⟨h, fun _ => .inr k⟩

/-- A step of the engine after something that only carries the transfer on. -/
theorem EngineStep.after {s t u : State} (h : EngineFrame s t) (k : EngineBusy s → TransferGoesOn s t)
    (l : EngineStep t u) : EngineStep s u :=
  ⟨h.trans l.frame, fun b => (l.outcome (k b).busy).imp (k b).trans id⟩

theorem dmaIssue_step (s : State) : EngineStep s (dmaIssue s) :=
  .goesOn (by constructor <;> rfl) fun _ => ⟨rfl, rfl, ⟨nofun, nofun⟩, rfl, rfl, rfl, rfl⟩

theorem dmaRelease_step (s : State) : EngineStep s (dmaRelease s) :=
  .ended (by constructor <;> rfl) ⟨rfl, rfl, rfl, rfl, rfl⟩

/-- `NextCycle` releases the bus after the last byte, and else goes on with a strobe or a yield (R121 to R123). -/
theorem dmaNextCycle_step (s : State) : EngineStep s (dmaNextCycle s) := by
  rcases dmaNextCycle_cases s with ⟨-, -, e⟩ | ⟨-, -, e⟩ | ⟨-, -, -, -, e⟩ | ⟨-, -, -, -, e⟩ | ⟨-, -, -, e⟩ |
    ⟨-, -, -, e⟩ <;> rw [e]
  · exact .ended (by constructor <;> rfl) ⟨rfl, rfl, rfl, rfl, rfl⟩
  · exact .goesOn (by constructor <;> rfl) fun b => ⟨rfl, rfl, b, rfl, rfl, rfl, rfl⟩
  · exact .goesOn (by constructor <;> rfl) fun _ => ⟨rfl, rfl, ⟨nofun, nofun⟩, rfl, rfl, rfl, rfl⟩
  · exact .goesOn (by constructor <;> rfl) fun _ => ⟨rfl, rfl, ⟨nofun, nofun⟩, rfl, rfl, rfl, rfl⟩
  · exact .goesOn (by constructor <;> rfl) fun b => ⟨rfl, rfl, b, rfl, rfl, rfl, rfl⟩
  · exact dmaIssue_step s

theorem dmaDataEdge_goesOn (e : Option Byte) (s : State) :
    EngineFrame s (dmaDataEdge e s) ∧ (EngineBusy s → TransferGoesOn s (dmaDataEdge e s)) := by
  obtain ⟨n, x, b, w0, w1, h⟩ := dmaDataEdge_state e s
  rw [h]
  exact ⟨by constructor <;> rfl, fun b => ⟨rfl, rfl, b, rfl, rfl, rfl, rfl⟩⟩

theorem engP1R_step (e : Option Byte) (s : State) : EngineStep s (engP1R e s) := by
  unfold engP1R
  cases hs : s.dma.state with
  | dWaitAck => exact .goesOn (by constructor <;> rfl) fun _ => ⟨rfl, rfl, ⟨nofun, nofun⟩, rfl, rfl, rfl, rfl⟩
  | dAddrLo => exact .goesOn (by constructor <;> rfl) fun _ => ⟨rfl, rfl, ⟨nofun, nofun⟩, rfl, rfl, rfl, rfl⟩
  | dAddrHi => exact dmaIssue_step s
  | dXfer =>
    by_cases hp : s.dma.xferPending = true
    · obtain ⟨hf, hg⟩ := dmaDataEdge_goesOn e s
      simpa only [hp] using .after hf hg (dmaNextCycle_step _)
    · simpa only [hp, Bool.false_eq_true, if_false] using dmaNextCycle_step s
  | dYield => exact dmaNextCycle_step s
  | dIdle => exact ⟨.rfl, fun b => absurd hs b.1⟩
  | dSettle => exact ⟨.rfl, fun b => absurd hs b.2⟩

/-- At the falling edge the engine drives the bus or, after the last byte, releases it late (R116 to R119, R123). -/
theorem engP1F_step (s : State) : EngineStep s (engP1F s) := by
  have hend : EngineStep s (dmaEndDrive s) :=
    .goesOn (by constructor <;> rfl) fun b => ⟨rfl, rfl, b, rfl, rfl, rfl, rfl⟩
  unfold engP1F
  cases s.dma.state with
  | dAddrLo | dAddrHi => exact .goesOn (by constructor <;> rfl) fun b => ⟨rfl, rfl, b, rfl, rfl, rfl, rfl⟩
  | dXfer =>
    have hdata : EngineFrame s (dmaDriveData (dmaEndDrive s)) ∧
        (EngineBusy s → TransferGoesOn s (dmaDriveData (dmaEndDrive s))) := by
      unfold dmaDriveData
      split <;> exact ⟨by constructor <;> rfl, fun b => ⟨rfl, rfl, b, rfl, rfl, rfl, rfl⟩⟩
    show EngineStep s (dmaLateRelease _)
    unfold dmaLateRelease
    split
    · exact .after hdata.1 hdata.2 (dmaRelease_step _)
    · exact .goesOn hdata.1 hdata.2
  | dYield | dWaitAck | dIdle | dSettle => exact hend

end Sys2Proof.Machine
end

section
/-! The invariants of R31 over every step. A step changes what they speak of in few places: the falling edge and the
response of the dispatcher, its acknowledge of a request, the handoff, the engine, an ARM, and the start of a transfer. -/

namespace Sys2Proof.Machine
open Sys2Proof

/-- Every element of the state that `Coherent` speaks of. -/
def coherenceFields (s : State) : Dma × Option Cmd × (Bool × Bool) × (CtrlMode × Bool × Option Byte) × Bool × Bool :=
  (s.dma, s.fg.wait, (s.en.armed, s.en.armedOnce), (s.lines.ctrlMode, s.lines.rdy, s.lines.drvD), s.disp.schedLoad,
    s.disp.schedInc)

theorem Coherent.of_coherenceFields {s t : State} (h : Coherent s) (e : coherenceFields t = coherenceFields s) :
    Coherent t := by
  simp only [coherenceFields, Prod.mk.injEq] at e
  obtain ⟨hdma, hwait, ⟨harmed, honce⟩, ⟨hmode, hrdy, hdrv⟩, hload, hinc⟩ := e
  exact h.congr (by rw [hdma]) (by rw [hdma]) (by rw [hdma]) (by rw [hdma]) hwait harmed honce hmode hrdy hdrv hload hinc

theorem Coherent.marked {s : State} (h : Coherent s) (k : EventKind) : Coherent (markEvent k s) :=
  h.of_coherenceFields rfl

theorem peersP1R_coherenceFields (e : Option Byte) (s : State) :
    coherenceFields (peersP1R e s) = coherenceFields s :=
  peersP1R_keeps coherenceFields e s (fun _ _ => rfl) fun _ _ => rfl

theorem peersP1F_coherenceFields (e : Option Byte) (p : Bits3) (s : State) :
    coherenceFields (peersP1F e p s) = coherenceFields s :=
  peersP1F_keeps coherenceFields e p s (fun _ _ => rfl) fun _ _ => rfl

/-- An idle engine has no acknowledged transfer and is no bus master. -/
theorem Coherent.idle_engine {s : State} (h : Coherent s) (hi : s.dma.state = .dIdle) :
    s.dma.request = false ∧ s.dma.ack = false ∧ s.dma.active = false := by
  have hack : s.dma.ack = false := Bool.eq_false_iff.mpr fun hk => (h.ack_is_busy hk).1 hi
  refine ⟨Bool.eq_false_iff.mpr fun hr => ?_, hack, Bool.eq_false_iff.mpr fun ha => ?_⟩
  · rw [h.request_waits hr] at hi
    cases hi
  · rw [h.active_acked ha] at hack
    cases hack

/-! The dispatcher. It runs only while no transfer is acknowledged, and after an ARM. -/

/-- A coherent state in which the dispatcher may act. -/
structure Serving (s : State) : Prop extends Coherent s where
  unacknowledged : s.dma.ack = false
  armed_once : s.en.armedOnce = true

theorem Coherent.serves {s : State} (h : Coherent s) (he : dispatcherEnabled s = true) : Serving s :=
  { h with unacknowledged := (h.serving he).1, armed_once := (h.serving he).2.2.1 }

theorem Serving.of_coherenceFields {s t : State} (h : Serving s) (e : coherenceFields t = coherenceFields s) :
    Serving t := by
  have hc := h.toCoherent.of_coherenceFields e
  simp only [coherenceFields, Prod.mk.injEq] at e
  obtain ⟨hdma, -, ⟨-, honce⟩, -⟩ := e
  exact { hc with unacknowledged := by rw [hdma]; exact h.unacknowledged, armed_once := honce.trans h.armed_once }

theorem Serving.not_master {s : State} (h : Serving s) : s.dma.active = false :=
  Bool.eq_false_iff.mpr fun ha => Bool.false_ne_true (h.unacknowledged.symm.trans (h.active_acked ha))

/-- While no transfer is acknowledged, arming contradicts nothing (R133). -/
theorem CommandEffect.coherent {s t : State} (e : CommandEffect s t) (h : Coherent s) (hack : s.dma.ack = false) :
    Coherent t := by
  cases e with
  | armed =>
    have hmaster : s.dma.active ≠ true := fun ha => Bool.false_ne_true (hack.symm.trans (h.active_acked ha))
    exact { h with
      active_is_master := fun ha => absurd ha hmaster
      ack_disarms := fun hk => absurd (hack.symm.trans hk) Bool.false_ne_true
      armed_by_arm := fun _ => rfl }
  | refused | registered | traced | arbiter => exact h.of_coherenceFields rfl

theorem applyCmd_serving (s : State) (c : Cmd) (h : Serving s) : Serving (applyCmd s c) :=
  { (applyCmd_effect s c).coherent h.toCoherent h.unacknowledged with
    unacknowledged := by
      rw [applyCmd_keeps (·.dma.ack) s c (fun _ _ => rfl) (fun _ _ => rfl) (fun _ _ => rfl) (fun _ => rfl)
        (fun _ _ _ => rfl) fun _ _ => rfl]
      exact h.unacknowledged
    armed_once := applyCmd_armedOnce s c h.armed_once }

theorem onP1R_serving {s : State} (e : Option Byte) (h : Serving s) : Serving (onP1R e s) :=
  onP1R_induct e s (fun _ _ => h.of_coherenceFields rfl) (fun _ _ ht => ht.of_coherenceFields rfl) applyCmd_serving
    (fun _ ht => ht.of_coherenceFields rfl)
    fun _ d ht => ht.of_coherenceFields (tracePush_keeps coherenceFields d _ (fun _ => rfl) fun _ _ => rfl)

/-- The dispatcher answers on the bus with `RDY` only where it drives. -/
theorem Serving.answering {s : State} (h : Serving s) (v : Byte) :
    Serving { s with lines := { s.lines with drvD := some v, rdy := true } } :=
  { h with
    ready_drives := fun _ => nofun
    ack_is_quiet := fun hk => absurd (h.unacknowledged.symm.trans hk) Bool.false_ne_true }

/-- The falling edge ends the drive, releases `RDY` and clears the schedule (R69). -/
theorem onP1F_serving {s : State} (e : Option Byte) (h : Serving s) :
    Serving (onP1F e s) ∧ (onP1F e s).lines.rdy = false := by
  have hrdy : (onP1F e s).lines.rdy = false := by
    rw [onP1F_lines]
    by_cases hd : s.lines.drvD = none
    · have : s.lines.rdy = false := Bool.eq_false_iff.mpr fun hr => h.ready_drives hr hd
      simp [hd, this]
    · simp [hd]
  have hquiet : Serving { s with
      lines := { s.lines with drvD := none, rdy := false }
      disp := { s.disp with schedLoad := false, schedInc := false } } :=
    { h with load_excludes_inc := nofun, ready_drives := nofun, ack_is_quiet := fun _ => rfl }
  refine ⟨hquiet.of_coherenceFields ?_, hrdy⟩
  unfold coherenceFields
  rw [hrdy]
  simp [onP1F_disp, onP1F_lines]

theorem respondRead_serving {s : State} (h : Serving s) : Serving (respondRead s) := by
  have hr : Serving (resolveRead s.disp.a s).2 :=
    resolveRead_induct _ s h (fun _ _ ht => ht.of_coherenceFields rfl) applyCmd_serving
  unfold respondRead
  simp only []
  split
  · exact hr.answering _
  · exact hr

theorem arbStep_serving {s : State} (cyc : BusState) (pri : Bool) (h : Serving s) : Serving (arbStep cyc pri s) := by
  have hrelease : Serving (releaseRequest s) := h.of_coherenceFields rfl
  unfold arbStep
  split
  · split
    · exact h.of_coherenceFields rfl
    · split
      · exact h.of_coherenceFields rfl
      · exact h
  · split
    · exact (hrelease.answering s.int.vector).of_coherenceFields rfl
    · split
      · exact hrelease
      · exact h

/-- A class that is neither a Read nor an interrupt acknowledge leaves `RDY` as the falling edge left it. -/
theorem afterArbiter_rdy {p : Bits3} (pri : Bool) {s : State} (h1 : (classify s.par.intack p).1 ≠ .read)
    (h2 : (classify s.par.intack p).1 ≠ .interruptAck) : (afterArbiter p pri s).lines.rdy = s.lines.rdy := by
  unfold afterArbiter
  rw [beforeArbiter_unread h1, arbStep_outside h2]
  split <;> rfl

/-- The acknowledge hands the bus over: it disarms the dispatcher, ends the request and finds `RDY` released (R81). -/
theorem acknowledgeDma_coherent {s : State} (h : Serving s) (hquiet : s.disp.cyc = .dmaAck → s.lines.rdy = false) :
    Coherent (acknowledgeDma s) := by
  unfold acknowledgeDma
  split
  · next hq =>
    obtain ⟨hcyc, hout⟩ := hq
    have hreq : s.dma.request = true := by
      simp only [requestOutstanding, Bool.and_eq_true] at hout
      exact hout.1
    have hwait := h.request_waits hreq
    exact { h with
      active_acked := fun _ => rfl
      ack_ends_request := fun _ => rfl
      active_is_master := fun ha => absurd (h.not_master.symm.trans ha) Bool.false_ne_true
      request_waits := nofun
      ack_is_busy := fun _ => by simp [hwait]
      handoff_waits := fun _ _ => hwait
      ack_disarms := fun _ => rfl
      ack_is_quiet := fun _ => hquiet hcyc
      armed_by_arm := fun _ => h.armed_once }
  · exact h.toCoherent

/-- The schedule never has both a load and an increment (R73). -/
theorem scheduleNext_coherent {s : State} (h : Coherent s) : Coherent (scheduleNext s) := by
  have hsched : (scheduleNext s).disp.schedLoad = true → (scheduleNext s).disp.schedInc = false := by
    intro (hal : s.disp.al = true)
    simp [scheduleNext, incDue, hal]
  exact { h with load_excludes_inc := hsched }

theorem onSP2_coherent {s : State} (p : Bits3) (pri : Bool) (h : Serving s) (hrdy : s.lines.rdy = false) :
    Coherent (onSP2 p pri s) := by
  have hclass : Serving (setClassification p s) := h.of_coherenceFields rfl
  have hbefore : Serving (beforeArbiter p s) :=
    iteInduction (motive := Serving) (fun _ => respondRead_serving hclass) fun _ => hclass
  have hafter : Serving (afterArbiter p pri s) := arbStep_serving _ pri hbefore
  have hcyc : (afterArbiter p pri s).disp.cyc = (classify s.par.intack p).1 := by
    rw [afterArbiter_eq]
    exact congrArg Dispatcher.cyc (beforeArbiter_disp p s)
  rw [onSP2_eq]
  refine scheduleNext_coherent (acknowledgeDma_coherent ?_ ?_) <;> rw [driveHalt_state]
  · exact hafter.of_coherenceFields rfl
  · intro hk
    have hk' : (classify s.par.intack p).1 = .dmaAck := hcyc.symm.trans hk
    exact (afterArbiter_rdy pri (by rw [hk']; nofun) (by rw [hk']; nofun)).trans hrdy

/-! The engine. -/

theorem handoffStep_active {s : State} (hack : s.dma.ack = true) : (handoffStep s).dma.active = true := by
  unfold handoffStep handoffPending
  cases ha : s.dma.active <;> simp [hack, ha]

theorem handoffStep_coherent {s : State} (h : Coherent s) : Coherent (handoffStep s) := by
  unfold handoffStep
  split
  · next hp =>
    have hack : s.dma.ack = true := by
      simp only [handoffPending, Bool.and_eq_true] at hp
      exact hp.1
    exact { h with
      active_acked := fun _ => hack
      active_is_master := fun _ => ⟨h.ack_disarms hack, rfl⟩
      master_is_active := fun _ => rfl
      handoff_waits := nofun }
  · exact h

/-- As bus master the engine keeps the invariants whether its transfer goes on or ends. -/
theorem EngineStep.coherent {s t : State} (e : EngineStep s t) (h : Coherent s) (ha : s.dma.active = true) :
    Coherent t := by
  have hack := h.active_acked ha
  have hquiet : t.lines.rdy = false := e.frame.rdy.trans (h.ack_is_quiet hack)
  have honce : t.en.armedOnce = true := e.frame.armedOnce.trans (h.armed_by_arm (.inr hack))
  have hreq : t.dma.request = false := e.frame.request.trans (h.ack_ends_request hack)
  have hload : t.disp.schedLoad = true → t.disp.schedInc = false := by
    rw [e.frame.disp]
    exact h.load_excludes_inc
  rcases e.outcome (h.ack_is_busy hack) with g | g
  · have hactive := g.active.trans ha
    have hdisarmed := g.armed.trans (h.ack_disarms hack)
    have hblocked : t.fg.wait ≠ none := fun hw => (h.ack_is_busy hack).1 (h.busy_iff_waiting.mpr (g.wait.symm.trans hw))
    exact {
      active_acked := fun _ => g.ack.trans hack
      ack_ends_request := fun _ => hreq
      active_is_master := fun _ => ⟨hdisarmed, g.ctrlMode.trans (h.active_is_master ha).2⟩
      master_is_active := fun _ => hactive
      load_excludes_inc := hload
      ready_drives := by simp [hquiet]
      busy_iff_waiting := ⟨fun hi => absurd hi g.busy.1, fun hw => absurd hw hblocked⟩
      request_waits := by simp [hreq]
      ack_is_busy := fun _ => g.busy
      handoff_waits := by simp [hactive]
      ack_disarms := fun _ => hdisarmed
      ack_is_quiet := fun _ => hquiet
      armed_by_arm := fun _ => honce }
  · obtain ⟨hactive, hack', hidle, hwait, hmode⟩ := g
    exact {
      active_acked := by simp [hactive]
      ack_ends_request := fun _ => hreq
      active_is_master := by simp [hactive]
      master_is_active := by simp [hmode]
      load_excludes_inc := hload
      ready_drives := by simp [hquiet]
      busy_iff_waiting := ⟨fun _ => hwait, fun _ => hidle⟩
      request_waits := by simp [hreq]
      ack_is_busy := by simp [hack']
      handoff_waits := by simp [hack']
      ack_disarms := by simp [hack']
      ack_is_quiet := fun _ => hquiet
      armed_by_arm := fun _ => honce }

/-! The turns. -/

theorem evP1R_coherent {s : State} (d : Drive) (h : Coherent s) : Coherent (evP1R d s) := by
  have hp : Coherent (peersP1R (others s d) s) := h.of_coherenceFields (peersP1R_coherenceFields _ s)
  rcases evP1R_cases h d with ⟨he, e⟩ | ⟨hack, -, e⟩ | ⟨ha, e⟩ | e <;> rw [e] <;>
    refine Coherent.marked ?_ _
  · exact (onP1R_serving _ ((h.serves he).of_coherenceFields (peersP1R_coherenceFields _ s))).toCoherent
  · exact (engP1R_step _ _).coherent (handoffStep_coherent hp) (handoffStep_active (by simpa using hack))
  · exact (engP1R_step _ _).coherent hp (by simpa using ha)
  · exact hp

theorem evP1F_coherent {s : State} (d : Drive) (p : Bits3) (pri : Bool) (h : Coherent s) :
    Coherent (evP1F d p pri s) := by
  have hp : Coherent (peersP1F (others s d) p s) := h.of_coherenceFields (peersP1F_coherenceFields _ p s)
  rcases evP1F_cases h d p pri with ⟨he, e⟩ | ⟨ha, e⟩ | e <;> rw [e] <;> refine Coherent.marked ?_ _
  · obtain ⟨hs, hrdy⟩ :=
      onP1F_serving (others s d) ((h.serves he).of_coherenceFields (peersP1F_coherenceFields (others s d) p s))
    exact onSP2_coherent p pri hs hrdy
  · exact (engP1F_step _).coherent hp (by simpa using ha)
  · exact hp

/-- An accepted transfer blocks the foreground and sets the engine going (R110). -/
theorem dmaAccept_coherent {s : State} (dir : DmaDir) (addr : Bits16) (tgt : DmaTarget) (n : Nat) (c : Cmd)
    (h : Coherent s) (hi : s.dma.state = .dIdle) : Coherent (dmaAccept dir addr tgt n c s) := by
  obtain ⟨hreq, hack, -⟩ := h.idle_engine hi
  exact { h with
    busy_iff_waiting := ⟨nofun, nofun⟩
    request_waits := by simp [dmaAccept, hreq]
    ack_is_busy := by simp [dmaAccept, hack]
    handoff_waits := by simp [dmaAccept, hack] }

theorem exec_command_coherent {s t : State} {c : Cmd} (e : exec c.1 s = .next t) (h : Coherent s)
    (hw : s.fg.wait = none) : Coherent t :=
  exec_command_induct (P := Coherent) e h
    ((applyCmd_effect s c).coherent h (h.idle_engine (h.busy_iff_waiting.mpr hw)).2.1)
    (fun _ _ hu => hu.of_coherenceFields rfl) (fun _ _ _ hu => hu.of_coherenceFields rfl)
    (fun _ _ _ hu => hu.congr rfl rfl rfl rfl rfl rfl rfl rfl rfl rfl rfl rfl)
    fun _ dir addr tgt n c hu hi => dmaAccept_coherent dir addr tgt n c hu hi

/-- The request step raises the request, and the engine waits for the acknowledge (R113). -/
theorem requestStep_coherent {s : State} (h : Coherent s) (hs : s.dma.state = .dSettle) : Coherent (requestStep s) := by
  have hack : s.dma.ack ≠ true := fun hk => (h.ack_is_busy hk).2 hs
  have hblocked : s.fg.wait ≠ none := fun hw => by
    rw [h.busy_iff_waiting.mpr hw] at hs
    cases hs
  exact { h with
    ack_ends_request := fun hk => absurd hk hack
    busy_iff_waiting := ⟨nofun, fun hw => absurd hw hblocked⟩
    request_waits := fun _ => rfl
    ack_is_busy := fun hk => absurd hk hack
    handoff_waits := fun _ _ => rfl }

/-- The reset values meet the invariants, from any state (R158). -/
theorem externalReset_coherent (s : State) : Coherent (externalReset s) where
  active_acked := nofun
  ack_ends_request := nofun
  active_is_master := nofun
  master_is_active := nofun
  load_excludes_inc := nofun
  ready_drives := nofun
  busy_iff_waiting := ⟨fun _ => rfl, fun _ => rfl⟩
  request_waits := nofun
  ack_is_busy := nofun
  handoff_waits := nofun
  ack_disarms := nofun
  ack_is_quiet := nofun
  armed_by_arm := by simp [externalReset, Enables.reset, Dma.reset]

/-- Settles O52, turn by turn. -/
theorem everyStepKeepsCoherence : Obligations.EveryStepKeepsCoherence := fun _ _ h hstep =>
  step_induct (P := Coherent) hstep h (fun _ _ _ _ hu => hu.of_coherenceFields rfl) (fun _ _ => externalReset_coherent _)
    (fun d _ hu => evP1R_coherent d hu) (fun d p pri _ hu => evP1F_coherent d p pri hu)
    (fun _ hu hs => requestStep_coherent hu hs) fun _ _ _ hu hw e => exec_command_coherent e hu hw

end Sys2Proof.Machine
end

section
/-! The canonical forms (R22, R23, R28, R34, R36). They speak of memories and tables that few operations write: a capture
of the peers, a registration, the trace push, and the engine's store. -/

namespace Sys2Proof.Machine
open Sys2Proof

/-- Every element of the state that `Canonical` speaks of. -/
def canonicalFields (s : State) : Params × List Host.Cell × List Host.Cell × Tables × Sparse TraceRecord :=
  (s.par, s.peers.mem, s.buf, s.tabs, s.trace.buf)

theorem Canonical.of_canonicalFields {s t : State} (h : Canonical s) (e : canonicalFields t = canonicalFields s) :
    Canonical t := by
  simp only [canonicalFields, Prod.mk.injEq] at e
  obtain ⟨hpar, hmem, hbuf, htabs, htrace⟩ := e
  exact h.congr hmem hbuf htabs htrace hpar

theorem Canonical.tables {s : State} (h : Canonical s) : TablesCanonical s.par s.tabs :=
  ⟨h.read_table, h.write_table, h.claim_list⟩

theorem CommandEffect.canonical {s t : State} (e : CommandEffect s t) (h : Canonical s) : Canonical t := by
  cases e with
  | registered t _ keeps =>
    have ht := keeps h.tables
    exact { h with read_table := ht.read_table, write_table := ht.write_table, claim_list := ht.claim_list }
  | refused | armed | traced | arbiter => exact h.of_canonicalFields rfl

/-- A byte that lands in host memory lands at an address that is listed already (R38). -/
theorem peersP1R_canonical {s : State} (e : Option Byte) (h : Canonical s) : Canonical (peersP1R e s) := by
  have hmem : hostMemWf (peersP1R e s).peers.mem := by
    unfold peersP1R
    split
    · exact h.host_memory
    · exact hostWrite_keeps_wf _ _ h.host_memory
  have hrest : canonicalFields (peersP1R e s) =
      canonicalFields { s with peers := { s.peers with mem := (peersP1R e s).peers.mem } } := by
    simp [canonicalFields]
  exact Canonical.of_canonicalFields (s := { s with peers := { s.peers with mem := (peersP1R e s).peers.mem } })
    { h with host_memory := hmem } hrest

theorem peersP1F_canonicalFields (e : Option Byte) (p : Bits3) (s : State) :
    canonicalFields (peersP1F e p s) = canonicalFields s := by
  simp [canonicalFields, peersP1F_mem]

/-- A record is pushed at `trace_idx`, which is below `TRACE_SIZE` (R136). -/
theorem tracePush_canonical {s : State} (d : Byte) (h : Canonical s) (hi : s.trace.idx < s.par.traceSize) :
    Canonical (tracePush d s) := by
  have hbuf : KeyedBelow s.par.traceSize (tracePush d s).trace.buf := KeyedBelow.set h.trace_ring hi _
  have hrest : canonicalFields (tracePush d s) =
      canonicalFields { s with trace := { s.trace with buf := (tracePush d s).trace.buf } } := by
    simp [canonicalFields]
  exact Canonical.of_canonicalFields (s := { s with trace := { s.trace with buf := (tracePush d s).trace.buf } })
    { h with trace_ring := hbuf } hrest

/-- The engine stores inside the buffer of its transfer (R112, R120). -/
theorem dmaStore_canonical {s : State} {k : Nat} (v : Byte) (h : Canonical s)
    (hk : ∀ b, s.dma.tgt = .buf b → b + k < s.par.bufSize) : Canonical (dmaStore k v s) := by
  unfold dmaStore
  split
  · next b hb =>
    exact { h with buffer := ⟨bufWrite_keeps_wf _ v h.buffer.1, fun c hc =>
      (mem_bufWrite hc).elim (fun hi => hi ▸ hk b hb) (h.buffer.2 c)⟩ }
  · split <;> exact h.of_canonicalFields rfl

theorem dmaDataEdge_canonical {s : State} (e : Option Byte) (h : Canonical s) (hr : InRange s)
    (hp : s.dma.xferPending = true) : Canonical (dmaDataEdge e s) := by
  obtain ⟨hx, hlt⟩ := hr.pending_in_xfer hp
  have hfit : ∀ b, s.dma.tgt = .buf b → b + s.dma.k < s.par.bufSize := fun b hb => by
    have := hr.buffer_fits b (by simp [hx]) hb
    omega
  unfold dmaDataEdge
  cases s.dma.dir with
  | wr => exact h.of_canonicalFields rfl
  | rd =>
    have hc : Canonical (busValue e s).2 := h.of_canonicalFields (by simp [canonicalFields])
    exact (dmaStore_canonical _ hc (by simpa using hfit)).of_canonicalFields rfl

theorem dmaNextCycle_canonicalFields (s : State) : canonicalFields (dmaNextCycle s) = canonicalFields s :=
  dmaNextCycle_keeps canonicalFields s fun _ _ _ _ _ => rfl

theorem engP1R_canonical {s : State} (e : Option Byte) (h : Canonical s) (hr : InRange s) : Canonical (engP1R e s) := by
  unfold engP1R
  cases s.dma.state with
  | dXfer =>
    by_cases hp : s.dma.xferPending = true
    · simpa only [hp, if_true] using (dmaDataEdge_canonical e h hr hp).of_canonicalFields (dmaNextCycle_canonicalFields _)
    · simpa only [hp, Bool.false_eq_true, if_false] using h.of_canonicalFields (dmaNextCycle_canonicalFields s)
  | dYield => exact h.of_canonicalFields (dmaNextCycle_canonicalFields s)
  | dWaitAck | dAddrLo | dAddrHi => exact h.of_canonicalFields rfl
  | dIdle | dSettle => exact h

/-! The ranges and the canonical forms together: the keys of the trace ring and of `BUF` are counters. -/

/-- Canonical, with the counters in their ranges. -/
abbrev CanonicalInRange (s : State) : Prop := InRange s ∧ Canonical s

theorem applyCmd_canonicalInRange (s : State) (c : Cmd) (h : CanonicalInRange s) : CanonicalInRange (applyCmd s c) :=
  ⟨h.1.of_rangeFields (applyCmd_rangeFields s c), (applyCmd_effect s c).canonical h.2⟩

theorem CanonicalInRange.of_fields {s t : State} (h : CanonicalInRange s) (e : rangeFields t = rangeFields s)
    (e' : canonicalFields t = canonicalFields s) : CanonicalInRange t :=
  ⟨h.1.of_rangeFields e, h.2.of_canonicalFields e'⟩

theorem onP1R_canonicalInRange {s : State} (e : Option Byte) (h : CanonicalInRange s) :
    CanonicalInRange (onP1R e s) :=
  onP1R_induct e s (fun _ _ => h.of_fields rfl rfl) (fun _ _ ht => ht.of_fields rfl rfl) applyCmd_canonicalInRange
    (fun _ ht => ht.of_fields rfl rfl)
    fun _ d ht => ⟨tracePush_inRange d ht.1, tracePush_canonical d ht.2 ht.1.trace_idx_lt⟩

theorem evP1R_canonicalInRange {s : State} (d : Drive) (h : CanonicalInRange s) : CanonicalInRange (evP1R d s) := by
  refine evP1R_induct (P := CanonicalInRange) d h
    (fun e u hu => ⟨hu.1.of_rangeFields (peersP1R_rangeFields e u), peersP1R_canonical e hu.2⟩)
    (fun u hu => hu.of_fields (handoffStep_rangeFields u) ?_) (fun e _ hu => onP1R_canonicalInRange e hu)
    (fun e _ hu => ⟨engP1R_inRange e hu.1, engP1R_canonical e hu.2 hu.1⟩) fun _ hu => hu.of_fields rfl rfl
  unfold handoffStep
  split <;> rfl

theorem respondRead_canonical {s : State} (h : Canonical s) : Canonical (respondRead s) :=
  respondRead_induct s h (fun _ _ ht => ht.of_canonicalFields rfl) (fun t c ht => (applyCmd_effect t c).canonical ht)
    fun _ _ ht => ht.of_canonicalFields rfl

theorem evP1F_canonical {s : State} (d : Drive) (p : Bits3) (pri : Bool) (h : Canonical s) :
    Canonical (evP1F d p pri s) := by
  refine evP1F_induct d p pri h (fun e u hu => hu.of_canonicalFields (peersP1F_canonicalFields e p u))
    (fun e u hu => hu.of_canonicalFields
      (onP1F_keeps canonicalFields e u (fun _ _ => rfl) (fun _ _ => rfl) fun _ _ => rfl))
    (fun u hu => onSP2_induct p pri hu (fun _ _ ht => ht.of_canonicalFields rfl) (fun _ ht => respondRead_canonical ht)
      (fun cyc t ht => ?_) (fun t ht => ?_) fun t ht => ?_)
    (fun u hu => hu.of_canonicalFields (engP1F_keeps canonicalFields u fun _ _ _ _ _ => rfl))
    fun _ hu => hu.of_canonicalFields rfl
  · rw [arbStep_state]
    exact ht.of_canonicalFields rfl
  · rw [driveHalt_state]
    exact ht.of_canonicalFields rfl
  · unfold acknowledgeDma
    split <;> exact ht.of_canonicalFields rfl

theorem exec_command_canonical {s t : State} {c : Cmd} (e : exec c.1 s = .next t) (h : Canonical s) : Canonical t :=
  exec_command_induct (P := Canonical) e h ((applyCmd_effect s c).canonical h) (fun _ _ hu => hu.of_canonicalFields rfl)
    (fun _ _ _ hu => hu.of_canonicalFields rfl) (fun _ _ _ hu => hu.of_canonicalFields rfl)
    fun _ _ _ _ _ _ hu _ => hu.of_canonicalFields rfl

/-- A reset empties the tables and the ring, and leaves host memory and `BUF` (R157, R158). -/
theorem externalReset_canonical {s : State} (h : Canonical s) : Canonical (externalReset s) where
  host_memory := h.host_memory
  buffer := h.buffer
  read_table := KeyedBelow.nil _
  write_table := KeyedBelow.nil _
  claim_list := KeyedBelow.nil _
  trace_ring := KeyedBelow.nil _

/-- Settles O55, turn by turn, with the ranges carried along. -/
theorem everyStepKeepsTheCanonicalForms : Obligations.EveryStepKeepsTheCanonicalForms := fun _ _ hr hc hstep =>
  (step_induct (P := CanonicalInRange) hstep ⟨hr, hc⟩ (fun _ _ _ _ hu => hu.of_fields rfl rfl)
    (fun _ _ => ⟨externalReset_inRange hr.parameters_legal,
      externalReset_canonical (hc.of_canonicalFields rfl)⟩)
    (fun d _ hu => evP1R_canonicalInRange d hu)
    (fun d p pri _ hu => ⟨evP1F_inRange d p pri hu.1, evP1F_canonical d p pri hu.2⟩)
    (fun _ hu hs => ⟨requestStep_inRange hu.1 hs, hu.2.of_canonicalFields rfl⟩)
    fun _ _ _ hu _ e => ⟨exec_command_inRange e hu.1, exec_command_canonical e hu.2⟩).2

/-- The launch state is what a reset of it gives, but for the count of draws. -/
theorem reset_eq_externalReset : State.reset = externalReset { State.reset with draws := 0 } := rfl

/-- Settles O53: the reset values meet the invariants from any state, and at launch the parameters are legal and no memory
lists anything. -/
theorem resetMeetsTheInvariants : Obligations.ResetMeetsTheInvariants := by
  have hlaunch : Canonical { State.reset with draws := 0 } :=
    { host_memory := KeyedBelow.nil _
      buffer := ⟨⟨rising_nil, nofun⟩, nofun⟩
      read_table := KeyedBelow.nil _
      write_table := KeyedBelow.nil _
      claim_list := KeyedBelow.nil _
      trace_ring := KeyedBelow.nil _ }
  have hlegal : Config.launch.legal := ⟨Nat.le_add_left 1 _, Nat.le_add_left 1 _⟩
  show Coherent State.reset ∧ InRange State.reset ∧ Canonical State.reset
  rw [reset_eq_externalReset]
  exact ⟨externalReset_coherent _, externalReset_inRange hlegal, externalReset_canonical hlaunch⟩

end Sys2Proof.Machine
end

section
/-! What else holds over every step: the request lines follow the arbiter, the parameters and the armed tables stay, and
`halt` ends with the transfer. -/

namespace Sys2Proof.Machine
open Sys2Proof

/-! The request line and the priority line (R100 to R102). -/

/-- Both lines are asserted exactly in RequestPending (R14). -/
def LinesFollowArbiter (s : State) : Prop :=
  (s.lines.irq = true ↔ s.int.arb = .requestPending) ∧ (s.lines.priOut = true ↔ s.int.arb = .requestPending)

/-- Every element of the state that `LinesFollowArbiter` speaks of. -/
def requestFields (s : State) : Bool × Bool × ArbState := (s.lines.irq, s.lines.priOut, s.int.arb)

theorem LinesFollowArbiter.of_requestFields {s t : State} (h : LinesFollowArbiter s)
    (e : requestFields t = requestFields s) : LinesFollowArbiter t := by
  simp only [requestFields, Prod.mk.injEq] at e
  obtain ⟨hirq, hpri, harb⟩ := e
  unfold LinesFollowArbiter
  rwa [hirq, hpri, harb]

theorem assertRequest_lines_follow (s : State) : LinesFollowArbiter (assertRequest s) :=
  ⟨⟨fun _ => rfl, fun _ => rfl⟩, fun _ => rfl, fun _ => rfl⟩

theorem releaseRequest_lines_follow (s : State) : LinesFollowArbiter (releaseRequest s) :=
  ⟨⟨nofun, nofun⟩, nofun, nofun⟩

theorem arbStep_lines_follow {s : State} (cyc : BusState) (pri : Bool) (h : LinesFollowArbiter s) :
    LinesFollowArbiter (arbStep cyc pri s) := by
  unfold arbStep
  split
  · split
    · exact h.of_requestFields rfl
    · split
      · exact assertRequest_lines_follow s
      · exact h
  · split
    · exact (releaseRequest_lines_follow s).of_requestFields rfl
    · split
      · exact releaseRequest_lines_follow s
      · exact h

theorem applyCmd_requestFields (s : State) (c : Cmd) : requestFields (applyCmd s c) = requestFields s :=
  applyCmd_keeps requestFields s c (fun _ _ => rfl) (fun _ _ => rfl) (fun _ _ => rfl) (fun _ => rfl)
    (fun i u hi => by simp only [requestFields, hi]) fun _ _ => rfl

theorem respondRead_requestFields (s : State) : requestFields (respondRead s) = requestFields s := by
  obtain ⟨d, r, h, -⟩ := respondRead_lines s
  simp [requestFields, h]

theorem EngineFrame.requestFields_eq {s t : State} (h : EngineFrame s t) :
    requestFields t = requestFields s := by
  simp only [requestFields, h.irq, h.priOut, h.int]

theorem handoffStep_requestFields (s : State) : requestFields (handoffStep s) = requestFields s := by
  unfold handoffStep
  split <;> rfl

theorem evP1R_lines_follow {s : State} (d : Drive) (h : LinesFollowArbiter s) : LinesFollowArbiter (evP1R d s) :=
  evP1R_induct d h
    (fun e u hu => hu.of_requestFields (by simp [requestFields]))
    (fun u hu => hu.of_requestFields (handoffStep_requestFields u))
    (fun e u hu => hu.of_requestFields (by simp [requestFields]))
    (fun e u hu => hu.of_requestFields (engP1R_step e u).frame.requestFields_eq)
    fun _ hu => hu.of_requestFields rfl

theorem evP1F_lines_follow {s : State} (d : Drive) (p : Bits3) (pri : Bool) (h : LinesFollowArbiter s) :
    LinesFollowArbiter (evP1F d p pri s) :=
  evP1F_induct d p pri h
    (fun e u hu => hu.of_requestFields (by simp [requestFields]))
    (fun e u hu => hu.of_requestFields (by simp [requestFields, onP1F_lines]))
    (fun u hu => onSP2_induct p pri hu (fun _ _ ht => ht.of_requestFields rfl)
      (fun t ht => ht.of_requestFields (respondRead_requestFields t))
      (fun cyc _ ht => arbStep_lines_follow cyc pri ht)
      (fun t ht => ht.of_requestFields (by rw [driveHalt_state]; rfl))
      fun t ht => ht.of_requestFields (by simp only [requestFields, acknowledgeDma_lines, acknowledgeDma_int]))
    (fun u hu => hu.of_requestFields (engP1F_step u).frame.requestFields_eq)
    fun _ hu => hu.of_requestFields rfl

theorem exec_command_requestFields {s t : State} {c : Cmd} (e : exec c.1 s = .next t) :
    requestFields t = requestFields s :=
  exec_command_keeps requestFields (fun _ _ => rfl) (fun _ _ => rfl) (fun _ _ _ => rfl) (fun _ _ => rfl)
    (applyCmd_requestFields s c) e

/-- Settles O60: only the arbiter's step and a reset move the lines or the arbiter's state, and they move them together. -/
theorem requestLinesFollowTheArbiter : Obligations.RequestLinesFollowTheArbiter := fun _ _ h hstep =>
  step_induct (P := LinesFollowArbiter) hstep h (fun _ _ _ _ hu => hu.of_requestFields rfl)
    (fun _ _ => ⟨⟨nofun, nofun⟩, nofun, nofun⟩) (fun d _ hu => evP1R_lines_follow d hu)
    (fun d p pri _ hu => evP1F_lines_follow d p pri hu) (fun _ hu _ => hu.of_requestFields rfl)
    fun _ _ _ hu _ e => hu.of_requestFields (exec_command_requestFields e)

/-! The parameters and the armed tables (R33, R94). -/

@[simp] theorem engP1R_par (e : Option Byte) (s : State) : (engP1R e s).par = s.par := (engP1R_step e s).frame.par

@[simp] theorem engP1F_par (s : State) : (engP1F s).par = s.par := (engP1F_step s).frame.par

@[simp] theorem handoffStep_par (s : State) : (handoffStep s).par = s.par := by
  unfold handoffStep
  split <;> rfl

@[simp] theorem evP1R_par (d : Drive) (s : State) : (evP1R d s).par = s.par :=
  evP1R_induct (P := fun u => u.par = s.par) d rfl (fun e u hu => (peersP1R_par e u).trans hu)
    (fun u hu => (handoffStep_par u).trans hu) (fun e u hu => (onP1R_par e u).trans hu)
    (fun e u hu => (engP1R_par e u).trans hu) fun _ hu => hu

@[simp] theorem evP1F_par (d : Drive) (p : Bits3) (pri : Bool) (s : State) : (evP1F d p pri s).par = s.par :=
  evP1F_induct (P := fun u => u.par = s.par) d p pri rfl (fun e u hu => (peersP1F_par e p u).trans hu)
    (fun e u hu => (onP1F_par e u).trans hu) (fun u hu => (onSP2_par p pri u).trans hu)
    (fun u hu => (engP1F_par u).trans hu) fun _ hu => hu

theorem applyCmd_par (s : State) (c : Cmd) : (applyCmd s c).par = s.par :=
  applyCmd_keeps (·.par) s c (fun _ _ => rfl) (fun _ _ => rfl) (fun _ _ => rfl) (fun _ => rfl) (fun _ _ _ => rfl)
    fun _ _ => rfl

theorem step_par {s t : State} (hstep : step s = .next t) : t.par = s.par :=
  step_induct (P := fun u => u.par = s.par) hstep rfl (fun _ _ _ _ hu => hu) (fun _ _ => rfl)
    (fun d u hu => (evP1R_par d u).trans hu) (fun d p pri u hu => (evP1F_par d p pri u).trans hu) (fun _ hu _ => hu)
    fun c u _ hu _ e => (exec_command_keeps (·.par) (fun _ _ => rfl) (fun _ _ => rfl) (fun _ _ _ => rfl) (fun _ _ => rfl)
      (applyCmd_par u c) e).trans hu

/-- The dispatcher has been armed, and the tables are `tabs`. -/
def ArmedWith (tabs : Tables) (s : State) : Prop := s.en.armedOnce = true ∧ s.tabs = tabs

section
variable {tabs : Tables}

theorem ArmedWith.of_eq {s t : State} (h : ArmedWith tabs s) (hen : t.en.armedOnce = s.en.armedOnce)
    (ht : t.tabs = s.tabs) : ArmedWith tabs t := ⟨hen.trans h.1, ht.trans h.2⟩

theorem CommandEffect.armedWith {s t : State} (e : CommandEffect s t) (h : ArmedWith tabs s) : ArmedWith tabs t := by
  cases e with
  | registered _ late => exact absurd (late.symm.trans h.1) Bool.false_ne_true
  | armed => exact ⟨rfl, h.2⟩
  | refused | traced | arbiter => exact h

theorem applyCmd_armedWith (s : State) (c : Cmd) (h : ArmedWith tabs s) : ArmedWith tabs (applyCmd s c) :=
  (applyCmd_effect s c).armedWith h

theorem EngineFrame.armedWith {s t : State} (e : EngineFrame s t) (h : ArmedWith tabs s) : ArmedWith tabs t :=
  h.of_eq e.armedOnce e.tabs

theorem evP1R_armedWith {s : State} (d : Drive) (h : ArmedWith tabs s) : ArmedWith tabs (evP1R d s) := by
  refine evP1R_induct d h (fun e u hu => hu.of_eq (by simp) (by simp)) (fun u hu => hu.of_eq (by simp) ?_)
    (fun e u hu => onP1R_induct e u (fun _ _ => hu) (fun _ _ ht => ht) applyCmd_armedWith (fun _ ht => ht)
      fun t d ht => ht.of_eq (by simp) (by simp))
    (fun e u hu => (engP1R_step e u).frame.armedWith hu) fun _ hu => hu
  unfold handoffStep
  split <;> rfl

theorem evP1F_armedWith {s : State} (d : Drive) (p : Bits3) (pri : Bool) (h : ArmedWith tabs s) :
    ArmedWith tabs (evP1F d p pri s) := by
  refine evP1F_induct d p pri h (fun e u hu => hu.of_eq (by simp) (by simp)) (fun e u hu => hu.of_eq (by simp) (by simp))
    (fun u hu => onSP2_induct p pri hu (fun _ _ ht => ht)
      (fun t ht => respondRead_induct t ht (fun _ _ hv => hv) applyCmd_armedWith fun _ _ hv => hv)
      (fun cyc t ht => ?_) (fun t ht => ?_) fun t ht => ?_)
    (fun u hu => (engP1F_step u).frame.armedWith hu) fun _ hu => hu
  · rw [arbStep_state]
    exact ht
  · rw [driveHalt_state]
    exact ht
  · unfold acknowledgeDma
    split <;> exact ht

theorem exec_command_armedWith {s t : State} {c : Cmd} (e : exec c.1 s = .next t) (h : ArmedWith tabs s) :
    ArmedWith tabs t :=
  exec_command_induct (P := ArmedWith tabs) e h (applyCmd_armedWith s c h) (fun _ _ hu => hu) (fun _ _ _ hu => hu)
    (fun _ _ _ hu => hu) fun _ _ _ _ _ _ hu _ => hu

end

/-- Settles O56: a registration after the arming is refused, and nothing else writes a table or `armed_once` but a reset. -/
theorem tablesAreFixedOnceArmed : Obligations.TablesAreFixedOnceArmed := fun s _ hstep =>
  ⟨step_par hstep, fun ho hnoreset =>
    (step_induct (P := ArmedWith s.tabs) hstep ⟨ho, rfl⟩ (fun _ _ _ _ hu => hu)
      (fun ts ht => absurd ht (hnoreset ts)) (fun d _ hu => evP1R_armedWith d hu)
      (fun d p pri _ hu => evP1F_armedWith d p pri hu) (fun _ hu _ => hu)
      fun _ _ _ hu _ e => exec_command_armedWith e hu).symm⟩

/-! `halt` (R13, R123). -/

/-- `halt` stays, or the bus master's transfer ends. -/
def HaltEndsWithTransfer (s t : State) : Prop :=
  (s.lines.halt = true → t.lines.halt = true) ∨ (s.dma.active = true ∧ t.dma.active = false)

theorem EngineStep.halt {s t u : State} (e : EngineStep t u) (hc : Coherent t) (ht : t.dma.active = true)
    (hs : s.dma.active = true) (hl : t.lines = s.lines) : HaltEndsWithTransfer s u :=
  (e.outcome (hc.ack_is_busy (hc.active_acked ht))).imp (fun g h => by rw [g.halt, hl]; exact h)
    fun g => ⟨hs, g.active⟩

/-- The engine's first step as bus master drives the control lines only (R68, R115). -/
theorem engP1R_first_lines {s : State} (e : Option Byte) (h : s.dma.state = .dWaitAck) :
    (engP1R e s).lines = { s.lines with ctrlOut := 0b100 } := by
  simp [engP1R, h]

theorem handoffStep_dma_state (s : State) : (handoffStep s).dma.state = s.dma.state := by
  unfold handoffStep
  split <;> rfl

theorem handoffStep_halt (s : State) : (handoffStep s).lines.halt = s.lines.halt := by
  unfold handoffStep
  split <;> rfl

theorem evP1R_halt {s : State} (d : Drive) (h : Coherent s) : HaltEndsWithTransfer s (evP1R d s) := by
  have hp : Coherent (peersP1R (others s d) s) := h.of_coherenceFields (peersP1R_coherenceFields _ s)
  rcases evP1R_cases h d with ⟨-, e⟩ | ⟨hack, ha, e⟩ | ⟨ha, e⟩ | e <;> rw [e]
  · exact .inl fun hh => by simpa using hh
  · have hw : (handoffStep (peersP1R (others s d) s)).dma.state = .dWaitAck := by
      rw [handoffStep_dma_state, peersP1R_dma]
      exact h.handoff_waits hack ha
    refine .inl fun hh => ?_
    rw [markEvent_lines, engP1R_first_lines _ hw, handoffStep_halt, peersP1R_lines]
    exact hh
  · exact (engP1R_step _ _).halt hp (by simpa using ha) ha (by simp)
  · exact .inl fun hh => by simpa using hh

theorem evP1F_halt {s : State} (d : Drive) (p : Bits3) (pri : Bool) (h : Coherent s) :
    HaltEndsWithTransfer s (evP1F d p pri s) := by
  have hp : Coherent (peersP1F (others s d) p s) := h.of_coherenceFields (peersP1F_coherenceFields _ p s)
  rcases evP1F_cases h d p pri with ⟨he, -⟩ | ⟨ha, e⟩ | e
  · exact .inl fun hh => by rw [(cycleDone d p pri h he).halt, hh, Bool.true_or]
  · rw [e]
    exact (engP1F_step _).halt hp (by simpa using ha) ha (by simp)
  · rw [e]
    exact .inl fun hh => by simpa using hh

theorem exec_command_halt {s t : State} {c : Cmd} (e : exec c.1 s = .next t) : t.lines.halt = s.lines.halt :=
  exec_command_keeps (·.lines.halt) (fun _ _ => rfl) (fun _ _ => rfl) (fun _ _ _ => rfl) (fun _ _ => rfl)
    (applyCmd_keeps (·.lines.halt) s c (fun _ _ => rfl) (fun _ _ => rfl) (fun _ _ => rfl) (fun _ => rfl)
      (fun _ _ _ => rfl) fun _ _ => rfl) e

theorem step_halt {s t : State} (h : Coherent s) (hnoreset : ∀ ts, s.turns ≠ .reset :: ts)
    (hstep : step s = .next t) : HaltEndsWithTransfer s t := by
  rcases step_cases hstep with rfl | ⟨ts, ht, -⟩ | ⟨d, ts, -, rfl⟩ | ⟨d, p, pri, ts, -, rfl⟩ |
    ⟨ts, -, rfl | ⟨-, rfl⟩ | ⟨c, ws, -, -, e⟩⟩ | ⟨d, ts, -, rfl | ⟨-, rfl⟩⟩
  · exact .inl id
  · exact absurd ht (hnoreset ts)
  · exact evP1R_halt d (h.of_coherenceFields (t := { s with turns := ts }) rfl)
  · exact evP1F_halt d (sampledPattern s p) pri (h.of_coherenceFields (t := { s with turns := ts }) rfl)
  · exact .inl id
  · exact .inl id
  · exact .inl fun hh => (exec_command_halt e).trans hh
  · exact .inl id
  · exact .inl id

/-- Settles O57: outside the engine's steps as bus master `halt` is only ever asserted, and of those steps only the release
clears it. -/
theorem onlyTheReleaseClearsHalt : Obligations.OnlyTheReleaseClearsHalt := fun _ _ h hnoreset hstep hs ht =>
  (step_halt h hnoreset hstep).resolve_left fun keeps => Bool.false_ne_true (ht.symm.trans (keeps hs))

end Sys2Proof.Machine
end

section
/-! Where nothing runs: a class met by a disabled dispatcher (R20, R140), and a marked state (R32). -/

namespace Sys2Proof.Machine
open Sys2Proof

/-- Every bus-cycle class is the event with its pattern (R53, R65). -/
theorem exec_cycle {i : Instr} (h : i.isCommand = false) (s : State) :
    ∃ p e pri, exec i s = .next (evP1F e p pri s) := by
  cases i with
  | idle | addrLoad | read | readAl | write | writeAl | dmaAck | intAck => exact ⟨_, _, _, rfl⟩
  | regRead | regWrite | unregister | claimSet | arm | traceStart | traceStop | intSetVector | intEnable | intRequest
  | intWant | dmaReadBlock | dmaWriteBlock | dmaReadByte | dmaWriteByte | dmaReadWord | dmaWriteWord | reserved =>
    exact absurd h nofun

/-- Settles O35: with neither the dispatcher nor the engine running, the event is the host peers' alone. -/
theorem disabledDispatcherTakesNoCycle : Obligations.DisabledDispatcherTakesNoCycle := by
  intro s i hi he ha
  obtain ⟨p, e, pri, hexec⟩ := exec_cycle hi s
  rw [evP1F_asleep e p pri he ha] at hexec
  refine ⟨_, hexec, ?_⟩
  simp [peersP1F_mem]

/-- Settles O13: `step` looks at the record before it takes any turn but a reset. -/
theorem markedStatesStop : Obligations.MarkedStatesStop := by
  intro s t ts hts ht _
  constructor
  · intro f hf
    cases t with
    | reset => exact absurd rfl ht
    | rise | fall | foreground | setDev => simp only [step, hts, hf]
  · intro r hf hr
    cases t with
    | reset => exact absurd rfl ht
    | rise | fall | foreground | setDev => simp only [step, hts, hf, hr]

end Sys2Proof.Machine
end

section
/-! While this device is bus master: the engine has the events, and it writes nothing of the dispatcher, the arbiter, the
tables, `dev` or the trace (R49, R115, R125). -/

namespace Sys2Proof.Machine
open Sys2Proof

/-- The elements that stand still while the engine is bus master. -/
def frozenFields (s : State) : Dispatcher × Arbiter × Tables × Dev × Trace × Bool × Bool :=
  (s.disp, s.int, s.tabs, s.dev, s.trace, s.lines.irq, s.lines.priOut)

theorem EngineFrame.frozenFields_eq {s t : State} (h : EngineFrame s t) : frozenFields t = frozenFields s := by
  simp only [frozenFields, h.disp, h.int, h.tabs, h.dev, h.trace, h.irq, h.priOut]

theorem peersP1R_frozenFields (e : Option Byte) (s : State) : frozenFields (peersP1R e s) = frozenFields s :=
  peersP1R_keeps frozenFields e s (fun _ _ => rfl) fun _ _ => rfl

theorem peersP1F_frozenFields (e : Option Byte) (p : Bits3) (s : State) :
    frozenFields (peersP1F e p s) = frozenFields s :=
  peersP1F_keeps frozenFields e p s (fun _ _ => rfl) fun _ _ => rfl

/-- The bus master has disarmed the dispatcher, is past its request, and blocks the foreground. -/
theorem Coherent.master {s : State} (h : Coherent s) (ha : s.dma.active = true) :
    s.en.armed = false ∧ s.dma.state ≠ .dSettle ∧ s.fg.wait ≠ none := by
  obtain ⟨hidle, hsettle⟩ := h.ack_is_busy (h.active_acked ha)
  exact ⟨(h.active_is_master ha).1, hsettle, fun hw => hidle (h.busy_iff_waiting.mpr hw)⟩

theorem evP1R_frozenFields {s : State} (d : Drive) (h : s.en.armed = false) (ha : s.dma.active = true) :
    frozenFields (evP1R d s) = frozenFields s := by
  rw [evP1R_master d h ha]
  exact (engP1R_step _ _).frame.frozenFields_eq.trans (peersP1R_frozenFields _ s)

theorem evP1F_frozenFields {s : State} (d : Drive) (p : Bits3) (pri : Bool) (h : s.en.armed = false)
    (ha : s.dma.active = true) : frozenFields (evP1F d p pri s) = frozenFields s := by
  rw [evP1F_master d p pri h ha]
  exact (engP1F_step _).frame.frozenFields_eq.trans (peersP1F_frozenFields _ p s)

theorem step_frozenFields {s t : State} (h : Coherent s) (ha : s.dma.active = true)
    (hnoreset : ∀ ts, s.turns ≠ .reset :: ts) (hstep : step s = .next t) : frozenFields t = frozenFields s := by
  obtain ⟨hdisarmed, hsettle, hblocked⟩ := h.master ha
  rcases step_cases hstep with rfl | ⟨ts, ht, -⟩ | ⟨d, ts, -, rfl⟩ | ⟨d, p, pri, ts, -, rfl⟩ |
    ⟨ts, -, rfl | ⟨hs, -⟩ | ⟨c, ws, -, hw, -⟩⟩ | ⟨d, ts, -, rfl | ⟨hw, -⟩⟩
  · rfl
  · exact absurd ht (hnoreset ts)
  · exact evP1R_frozenFields (s := { s with turns := ts }) d hdisarmed ha
  · exact evP1F_frozenFields (s := { s with turns := ts }) d _ pri hdisarmed ha
  · rfl
  · exact absurd hs hsettle
  · exact absurd hw hblocked
  · rfl
  · exact absurd hw hblocked

/-- Settles O58: the clock events are the engine's, and the foreground's turns change nothing while it is blocked. -/
theorem dispatcherIsFrozenDuringDma : Obligations.DispatcherIsFrozenDuringDma := by
  intro s t h ha hnoreset hstep
  simpa only [frozenFields, Prod.mk.injEq] using step_frozenFields h ha hnoreset hstep

/-! The address phase (R116 to R119). -/

theorem engP1F_addrLo {s : State} (h : s.dma.state = .dAddrLo) :
    engP1F s = dmaDriveAddress (lowByte s.dma.addr) (dmaEndDrive s) := by
  simp only [engP1F, h]

theorem engP1F_addrHi {s : State} (h : s.dma.state = .dAddrHi) :
    engP1F s = dmaDriveAddress (highByte s.dma.addr) (dmaEndDrive s) := by
  simp only [engP1F, h]

theorem engP1R_addrLo {s : State} (e : Option Byte) (h : s.dma.state = .dAddrLo) :
    engP1R e s = { s with lines := { s.lines with ctrlOut := 0b100 }, dma := { s.dma with state := .dAddrHi } } := by
  simp only [engP1R, h]

theorem engP1R_addrHi {s : State} (e : Option Byte) (h : s.dma.state = .dAddrHi) : engP1R e s = dmaIssue s := by
  simp only [engP1R, h]

/-- Settles O43: the peers' captures leave the lines and the engine's registers, and the engine's step is that of its
sub-state. -/
theorem addressPhaseSendsLowThenHigh : Obligations.AddressPhaseSendsLowThenHigh := by
  intro s d p pri ha h
  rw [evP1F_master d p pri h ha, evP1R_master d h ha]
  refine ⟨fun hs => ?_, fun hs => ?_⟩
  · rw [engP1F_addrLo (by simpa using hs), engP1R_addrLo _ (by simpa using hs)]
    simp [dmaDriveAddress, dmaEndDrive]
  · rw [engP1F_addrHi (by simpa using hs), engP1R_addrHi _ (by simpa using hs)]
    simp [dmaDriveAddress, dmaEndDrive, dmaIssue]

end Sys2Proof.Machine
end

section
/-! The accessor searches: a covering claim, I/O space, and the rest (R35, R71, R72). -/

namespace Sys2Proof.Machine
open Sys2Proof

theorem isIo_iff (p : Params) (a : Bits16) : isIo p a = true ↔ highByte a = p.ioPage := by
  simp [isIo]

theorem resolveRead_claimed {s : State} {a : Bits16} {i c : Nat} (h : firstClaim s a s.tabs.claims = some (i, c)) :
    resolveRead a s = (some (claimR s c a), s) := by
  simp only [resolveRead, h]

theorem resolveWrite_claimed {s : State} {a : Bits16} {i c : Nat} (h : firstClaim s a s.tabs.claims = some (i, c)) :
    resolveWrite s a = some (.claimT i) := by
  simp only [resolveWrite, h]

theorem resolveRead_unclaimed {s : State} {a : Bits16} (h : firstClaim s a s.tabs.claims = none)
    (hslot : highByte a = s.par.ioPage → sparseGet (lowByte a).toNat s.tabs.rdTab = none) :
    resolveRead a s = (none, s) := by
  simp only [resolveRead, h, isIo_iff]
  split
  · next hio => simp only [hslot hio]
  · rfl

theorem resolveWrite_unclaimed {s : State} {a : Bits16} (h : firstClaim s a s.tabs.claims = none) :
    resolveWrite s a =
      if highByte a = s.par.ioPage then (sparseGet (lowByte a).toNat s.tabs.wrTab).map fun _ => .ioT (lowByte a)
      else none := by
  simp only [resolveWrite, h, Bool.and_eq_true, isIo_iff]
  by_cases hio : highByte a = s.par.ioPage
  · cases sparseGet (lowByte a).toNat s.tabs.wrTab <;> simp [hio]
  · simp [hio]

/-- Settles O20: the claims are searched first, and without one only the page of the address decides. -/
theorem ioHandlersServeOnlyIoSpace : Obligations.IoHandlersServeOnlyIoSpace := by
  intro s a
  refine ⟨fun i c h => ⟨resolveRead_claimed h, resolveWrite_claimed h⟩, fun hclaims => ?_⟩
  have h := firstClaim_none.mpr hclaims
  exact ⟨fun hio => ⟨resolveRead_unclaimed h fun k => absurd k hio, by rw [resolveWrite_unclaimed h, if_neg hio]⟩,
    fun _ hslot => resolveRead_unclaimed h fun _ => hslot, fun hio => by rw [resolveWrite_unclaimed h, if_pos hio]⟩

end Sys2Proof.Machine
end

section
/-! The host peers at a clock event (R38, R69, R73). -/

namespace Sys2Proof.Machine
open Sys2Proof

/-- Writing serves no new address and loses none (R38). -/
theorem hostRead_write_eq_none_iff (m : List Host.Cell) (a b : Bits16) (v : Byte) :
    hostRead (hostWrite m a v) b = none ↔ hostRead m b = none := by
  by_cases hb : b = a
  · subst hb
    cases h : hostRead m b with
    | none => simp [hostWrite_unserved v h, h]
    | some w => simp [hostRead_write_same h]
  · rw [hostRead_write_other v hb]

/-- The peers' state after a capture of `v` at `P1F` and the sample of pattern `p` (R38, R69, R73). -/
def peersCapture (par : Params) (p : Bits3) (v : Byte) (q : Peers) : Peers :=
  peersSample par p (peersAddress v q) { q with ha := peersAddress v q, hplb := v }

theorem peersP1F_eq (e : Option Byte) (p : Bits3) (s : State) :
    peersP1F e p s = { (busValue e s).2 with peers := peersCapture s.par p (busValue e s).1 s.peers } :=
  rfl

theorem evP1F_peers_eq (d : Drive) (p : Bits3) (pri : Bool) (s : State) :
    (evP1F d p pri s).peers = peersCapture s.par p (busValue (others s d) s).1 s.peers := by
  rw [evP1F_peers, peersP1F_eq]

theorem incDue_iff (par : Params) (c : BusState × Bool) (a : Bits16) :
    incDue par c.1 c.2 a = true ↔ (c = (.read, false) ∨ c = (.write, false)) ∧ highByte a ≠ par.ioPage := by
  obtain ⟨cyc, al⟩ := c
  cases al <;> simp [incDue, isIo]

/-- What a capture and a sample leave the peers with. -/
theorem peersCapture_fields (par : Params) (p : Bits3) (v : Byte) (q : Peers) :
    let r := peersCapture par p v q
    r.mem = q.mem ∧ r.hplb = v ∧ r.ha = peersAddress v q ∧ r.load = (classify par.intack p).2 ∧
      (r.inc = true ↔ (classify par.intack p = (.read, false) ∨ classify par.intack p = (.write, false)) ∧
        highByte r.ha ≠ par.ioPage) ∧
      r.drive = (if classify par.intack p = (.read, false) then hostRead q.mem r.ha else none) ∧
      r.write = (if classify par.intack p = (.write, false) then some r.ha else none) :=
  ⟨rfl, rfl, rfl, rfl, incDue_iff par _ _, by simp [peersCapture, peersSample, Prod.ext_iff],
    by simp [peersCapture, peersSample, Prod.ext_iff]⟩

/-- At a rising edge the byte of a Write lands at the address it was sampled at (R38). -/
theorem evP1R_peers_eq (d : Drive) (s : State) : (evP1R d s).peers =
    match s.peers.write with
    | none => s.peers
    | some a => { s.peers with mem := hostWrite s.peers.mem a (busValue (others s d) s).1, write := none } := by
  rw [evP1R_peers]
  unfold peersP1R
  cases s.peers.write <;> rfl

/-- Settles O50: the falling edge is `peersCapture`, the rising edge one write to host memory. -/
theorem peersServeReadsAndWrites : Obligations.PeersServeReadsAndWrites := by
  intro s d p pri t u
  obtain ⟨hmem, hplb, hha, hload, hinc, hdrive, hwrite⟩ :=
    peersCapture_fields s.par p (busValue (others s d) s).1 s.peers
  rw [← evP1F_peers_eq d p pri s] at hmem hplb hha hload hinc hdrive hwrite
  have hu := evP1R_peers_eq d s
  refine ⟨⟨_, fun w hw => by rw [busValue_oneDriver hw s rfl], hplb, hha⟩, hload, hinc, hdrive, hwrite,
    fun a => by rw [hmem], ?_⟩
  cases hw : s.peers.write with
  | none =>
    have hu : u.peers = s.peers := by simpa only [hw] using hu
    rw [hu]
    exact ⟨by rw [← hw], nofun, nofun, fun _ _ => rfl, fun _ ha => ha⟩
  | some a =>
    have hu : u.peers = { s.peers with mem := hostWrite s.peers.mem a (busValue (others s d) s).1, write := none } := by
      simpa only [hw] using hu
    rw [hu]
    refine ⟨rfl, ?_, ?_, nofun, fun b hb => (hostRead_write_eq_none_iff _ _ _ _).mpr hb⟩
    · rintro _ v w ⟨⟩ hv hr
      rw [busValue_oneDriver hv s rfl]
      exact hostRead_write_same hr
    · rintro _ b ⟨⟩ hb
      exact hostRead_write_other _ hb

end Sys2Proof.Machine
end

section
/-! A turn of an unmarked machine, and the foreground's (R45, R58, R63). -/

namespace Sys2Proof.Machine
open Sys2Proof

/-- With the record clear, a step is the next turn (R65). -/
theorem step_unmarked {s : State} {t : Turn} {ts : List Turn} (h : s.turns = t :: ts) (hu : Unmarked s) :
    step s = stepTurn t { s with turns := ts } := by
  cases t <;> simp only [step, h, hu.1, hu.2]

/-- Where nothing holds the foreground, it issues the command its numbers decode to (R45, R58). -/
theorem foregroundMove_issue {s : State} {i : Instr} {rest : List Nat} (hs : s.dma.state ≠ .dSettle)
    (hw : s.fg.wait = none) (hd : decodeCmd s.prog = .ok (i, rest)) : foregroundMove s = .issue i rest := by
  unfold foregroundMove
  rw [if_neg hs, if_neg (by simp [hw])]
  cases hp : s.prog with
  | nil => rw [hp] at hd; cases hd
  | cons n r => rw [hp] at hd; simp only [hd]

/-- Settles O7: the step is the foreground's turn, whose move is the command decoded. -/
theorem stepRunsTheForegroundCommand : Obligations.StepRunsTheForegroundCommand := by
  intro s ts i rest ht hu hs hw hd
  have hm : foregroundMove { s with turns := ts } = .issue i rest := foregroundMove_issue hs hw hd
  rw [step_unmarked ht hu]
  simp only [stepTurn, stepForeground, hm]

end Sys2Proof.Machine
end

section
/-! One byte after the other, as bus master: what each clock edge of a transfer with no other driver does (R116 to R123). -/

namespace Sys2Proof.Machine
open Sys2Proof

/-- A running machine is taken one step on. -/
theorem run_step {s t : State} {n : Nat} (h : step s = .next t) :
    Host.Core.run Sys2Proof.core (n + 1) s = Host.Core.run Sys2Proof.core n t := by
  have hcore : Sys2Proof.core.step s = .next t := h
  simp only [Host.Core.run, hcore]

/-- This device is bus master with the dispatcher disarmed, and the record is clear: what every edge before the release
leaves so. -/
abbrev Mastering (s : State) : Prop :=
  s.en.armed = false ∧ s.dma.active = true ∧ s.lines.ctrlMode = .device ∧ Unmarked s

theorem Coherent.mastering {s : State} (h : Coherent s) (ha : s.dma.active = true) (hu : Unmarked s) : Mastering s :=
  ⟨(h.active_is_master ha).1, ha, (h.active_is_master ha).2, hu⟩

/-- The bus master's next turn is `t`, after an event of kind `k`. -/
structure MasterTurn (s : State) (k : EventKind) (t : Turn) (ts : List Turn) : Prop where
  mastering : Mastering s
  last : s.en.lastEvent = some k
  turns : s.turns = t :: ts

section
variable {s : State} {d : Drive} {p : Bits3} {pri : Bool} {ts : List Turn}

/-- The pattern sampled is the master's own (R65). -/
theorem MasterTurn.fall (h : MasterTurn s .p1r (.fall d p pri) ts) : step s = .next
    (markEvent .p1f (engP1F (peersP1F (others s d) s.lines.ctrlOut { s with turns := ts }))) := by
  obtain ⟨hdisarmed, hactive, hdevice, hunmarked⟩ := h.mastering
  have hp : sampledPattern s p = s.lines.ctrlOut := by simp only [sampledPattern, hdevice]
  rw [step_fall h.turns hunmarked (by rw [h.last]; nofun), hp]
  exact congrArg _ (evP1F_master (s := { s with turns := ts }) d _ pri hdisarmed hactive)

theorem MasterTurn.rise (h : MasterTurn s .p1f (.rise d) ts) : step s = .next
    (markEvent .p1r (engP1R (others s d) (peersP1R (others s d) { s with turns := ts }))) := by
  obtain ⟨hdisarmed, hactive, -, hunmarked⟩ := h.mastering
  have ha : alternates { s with turns := ts } .p1r = true := by simp [alternates, h.last]
  rw [step_unmarked h.turns hunmarked]
  simp only [stepTurn, ha, if_true]
  exact congrArg _ (evP1R_master (s := { s with turns := ts }) d hdisarmed hactive)

/-- The peers capture the byte that the master drives. -/
theorem MasterTurn.fall_driven {v : Byte} (h : MasterTurn s .p1r (.fall (.given none) p pri) ts)
    (hv : s.lines.drvD = some v) : step s = .next (markEvent .p1f (engP1F
      { s with turns := ts, peers := peersCapture s.par s.lines.ctrlOut v s.peers })) := by
  rw [h.fall, peersP1F_eq, show others s (.given none) = none from rfl,
    busValue_own (s := { s with turns := ts }) hv]

/-- Where nobody drives, they capture a draw. -/
theorem MasterTurn.fall_undriven (h : MasterTurn s .p1r (.fall (.given none) p pri) ts) (hv : s.lines.drvD = none) :
    step s = .next (markEvent .p1f (engP1F
      { s with
        turns := ts, draws := s.draws + 1
        peers := peersCapture s.par s.lines.ctrlOut (Config.drawByte s.draws) s.peers })) := by
  rw [h.fall, peersP1F_eq, show others s (.given none) = none from rfl,
    busValue_undriven (s := { s with turns := ts }) hv]
  rfl

/-- With no Write in flight the peers do nothing at a rising edge. -/
theorem MasterTurn.rise_quiet (h : MasterTurn s .p1f (.rise d) ts) (hw : s.peers.write = none) :
    step s = .next (markEvent .p1r (engP1R (others s d) { s with turns := ts })) := by
  rw [h.rise]
  simp only [peersP1R, hw]

/-- The byte of a Write in flight is the one that the master drives. -/
theorem MasterTurn.rise_landing {a : Bits16} {v : Byte} (h : MasterTurn s .p1f (.rise (.given none)) ts)
    (hw : s.peers.write = some a) (hv : s.lines.drvD = some v) :
    step s = .next (markEvent .p1r (engP1R none
      { s with turns := ts, peers := { s.peers with mem := hostWrite s.peers.mem a v, write := none } })) := by
  rw [h.rise, show others s (.given none) = none from rfl]
  simp only [peersP1R, hw, busValue_own (s := { s with turns := ts }) hv]

end

/-! The engine's part of a strobed byte (R119, R120, R123). -/

/-- Before a read's data edge the engine only ends its own drive. -/
theorem engP1F_readStrobe {s : State} (hs : s.dma.state = .dXfer) (hd : s.dma.dir = .rd) (hk : s.dma.k ≠ s.dma.count) :
    engP1F s = dmaEndDrive s := by
  simp [engP1F, hs, dmaDriveData, dmaEndDrive, hd, dmaLateRelease, hk]

/-- Before a write's data edge it drives the byte. -/
theorem engP1F_writeStrobe {s : State} (hs : s.dma.state = .dXfer) (hd : s.dma.dir = .wr)
    (hp : s.dma.xferPending = true) (hk : s.dma.k ≠ s.dma.count) :
    engP1F s = { s with
      lines := { s.lines with drvD := some (dmaLoad s s.dma.k) }, dma := { s.dma with addrDrive := false } } := by
  have hdrive : dmaDriveData (dmaEndDrive s) = { s with
      lines := { s.lines with drvD := some (dmaLoad s s.dma.k) }, dma := { s.dma with addrDrive := false } } :=
    if_pos ⟨hp, hd⟩
  simp only [engP1F, hs, hdrive]
  exact if_neg fun hlast => hk hlast.1

theorem engP1R_dataEdge {s : State} (e : Option Byte) (hs : s.dma.state = .dXfer) (hp : s.dma.xferPending = true) :
    engP1R e s = dmaNextCycle (dmaDataEdge e s) := by
  simp only [engP1R, hs, hp, if_true]

theorem dmaDataEdge_write {s : State} (e : Option Byte) (hd : s.dma.dir = .wr) :
    dmaDataEdge e s = { s with dma := { s.dma with k := s.dma.k + 1, xferPending := false } } := by
  simp only [dmaDataEdge, hd]

theorem dmaNextCycle_strobe {s : State} (hs : s.dma.state = .dXfer) (hk : s.dma.k ≠ s.dma.count)
    (hb : s.dma.burstK ≠ s.par.burstMax) : dmaNextCycle s = dmaIssue s := by
  simp [dmaNextCycle, hs, hk, hb]

theorem dmaNextCycle_release {s : State} (hk : s.dma.k = s.dma.count) (hr : s.par.resume = .sameCycleP1F) :
    dmaNextCycle s = dmaReleaseAtEdge { s with lines := { s.lines with ctrlOut := 0b000 } } := by
  simp [dmaNextCycle, hk, hr]

/-! The address phase, edge by edge and whole. -/

/-- Peers with memory `m` that have captured `v` in an address load, and complete the load at the next `P1F` (R69). -/
structure LoadPending (m : List Host.Cell) (v : Byte) (q : Peers) : Prop where
  mem : q.mem = m
  hplb : q.hplb = v
  load : q.load = true
  write : q.write = none

/-- The capture of the high byte completes the address (R69). -/
theorem LoadPending.address {m : List Host.Cell} {a : Bits16} {q : Peers} (h : LoadPending m (lowByte a) q) :
    peersAddress (highByte a) q = a := by
  simp [peersAddress, h.load, h.hplb]

/-- The pattern of an address load is no Read and no Write: the peers serve nothing (R38, R53). -/
theorem loadPending_capture {par : Params} (hi : par.intack = .p111) (v : Byte) (q : Peers) :
    LoadPending q.mem v (peersCapture par 0b100 v q) := by
  have hc : classify par.intack 0b100 = (.idle, true) := by rw [hi]; rfl
  obtain ⟨hmem, hplb, -, hload, -, -, hwrite⟩ := peersCapture_fields par 0b100 v q
  exact ⟨hmem, hplb, by rw [hload, hc], by rw [hwrite, hc]; rfl⟩

/-- The transfer of `s` when its address phase is over: the first strobe is issued and the peers, `q`, still wait for the
high byte on the bus. -/
def firstStrobe (s : State) (q : Peers) (ts : List Turn) : State :=
  { s with
    lines := { s.lines with drvD := some (highByte s.dma.addr), ctrlOut := if s.dma.dir = .rd then 0b010 else 0b001 }
    dma := { s.dma with burstK := s.dma.burstK + 1, xferPending := true, state := .dXfer, addrDrive := true }
    en := { s.en with lastEvent := some .p1r }
    peers := q
    draws := s.draws + 1
    turns := ts }

section
variable {s : State} {d : Drive} {p : Bits3} {pri : Bool} {ts : List Turn}

theorem MasterTurn.fall_addrLo (h : MasterTurn s .p1r (.fall (.given none) p pri) ts) (hs : s.dma.state = .dAddrLo)
    (hc : s.lines.ctrlOut = 0b100) (hv : s.lines.drvD = none) : step s = .next { s with
      lines := { s.lines with drvD := some (lowByte s.dma.addr) }
      dma := { s.dma with addrDrive := true }
      en := { s.en with lastEvent := some .p1f }
      peers := peersCapture s.par 0b100 (Config.drawByte s.draws) s.peers
      draws := s.draws + 1
      turns := ts } := by
  rw [h.fall_undriven hv, engP1F_addrLo (by exact hs), hc]
  rfl

theorem MasterTurn.rise_addrLo (h : MasterTurn s .p1f (.rise d) ts) (hs : s.dma.state = .dAddrLo)
    (hw : s.peers.write = none) : step s = .next { s with
      lines := { s.lines with ctrlOut := 0b100 }
      dma := { s.dma with state := .dAddrHi }
      en := { s.en with lastEvent := some .p1r }
      turns := ts } := by
  rw [h.rise_quiet hw, engP1R_addrLo _ (by exact hs)]
  rfl

theorem MasterTurn.fall_addrHi {v : Byte} (h : MasterTurn s .p1r (.fall (.given none) p pri) ts)
    (hs : s.dma.state = .dAddrHi) (hv : s.lines.drvD = some v) : step s = .next { s with
      lines := { s.lines with drvD := some (highByte s.dma.addr) }
      dma := { s.dma with addrDrive := true }
      en := { s.en with lastEvent := some .p1f }
      peers := peersCapture s.par s.lines.ctrlOut v s.peers
      turns := ts } := by
  rw [h.fall_driven hv, engP1F_addrHi (by exact hs)]
  rfl

theorem MasterTurn.rise_addrHi (h : MasterTurn s .p1f (.rise d) ts) (hs : s.dma.state = .dAddrHi)
    (hw : s.peers.write = none) : step s = .next (markEvent .p1r (dmaIssue { s with turns := ts })) := by
  rw [h.rise_quiet hw, engP1R_addrHi _ (by exact hs)]

end

/-- The address phase runs its four edges to the first strobe (R116 to R119). -/
theorem run_addressPhase {s : State} {ts : List Turn} (n : Nat)
    (h : MasterTurn s .p1r (.fall (.given none) 0 false)
      (.rise (.given none) :: .fall (.given none) 0 false :: .rise (.given none) :: ts))
    (hi : s.par.intack = .p111) (hs : s.dma.state = .dAddrLo) (hc : s.lines.ctrlOut = 0b100)
    (hv : s.lines.drvD = none) :
    ∃ q, LoadPending s.peers.mem (lowByte s.dma.addr) q ∧
      Host.Core.run Sys2Proof.core (n + 4) s = Host.Core.run Sys2Proof.core n (firstStrobe s q ts) := by
  have hfirst := loadPending_capture hi (Config.drawByte s.draws) s.peers
  have hsecond := loadPending_capture hi (lowByte s.dma.addr) (peersCapture s.par 0b100 (Config.drawByte s.draws) s.peers)
  have edge1 := h.fall_addrLo hs hc hv
  have hm := h.mastering
  refine ⟨_, hsecond, Eq.trans (run_step edge1) ?_⟩
  refine Eq.trans (run_step (MasterTurn.rise_addrLo ⟨hm, rfl, rfl⟩ hs hfirst.write)) ?_
  refine Eq.trans (run_step (MasterTurn.fall_addrHi ⟨hm, rfl, rfl⟩ rfl rfl)) ?_
  exact run_step (MasterTurn.rise_addrHi ⟨hm, rfl, rfl⟩ rfl hsecond.write)

end Sys2Proof.Machine
end

section
/-! The strobed bytes of a wrapper's transfer, edge by edge, and the two wrappers' runs (R119, R120, R123, R126, R129). -/

namespace Sys2Proof.Machine
open Sys2Proof

section
variable {s : State} {d : Drive} {p : Bits3} {pri : Bool} {ts : List Turn} {v w : Byte}

theorem MasterTurn.fall_readStrobe (h : MasterTurn s .p1r (.fall (.given none) p pri) ts) (hs : s.dma.state = .dXfer)
    (hd : s.dma.dir = .rd) (hk : s.dma.k ≠ s.dma.count) (hc : s.lines.ctrlOut = 0b010)
    (hv : s.lines.drvD = some v) : step s = .next { s with
      lines := { s.lines with drvD := none }
      dma := { s.dma with addrDrive := false }
      en := { s.en with lastEvent := some .p1f }
      peers := peersCapture s.par 0b010 v s.peers
      turns := ts } := by
  rw [h.fall_driven hv, engP1F_readStrobe (by exact hs) (by exact hd) (by exact hk), hc]
  rfl

theorem MasterTurn.fall_writeStrobe (h : MasterTurn s .p1r (.fall (.given none) p pri) ts) (hs : s.dma.state = .dXfer)
    (hd : s.dma.dir = .wr) (hp : s.dma.xferPending = true) (hk : s.dma.k ≠ s.dma.count)
    (hc : s.lines.ctrlOut = 0b001) (hv : s.lines.drvD = some v) (hw : dmaLoad s s.dma.k = w) :
    step s = .next { s with
      lines := { s.lines with drvD := some w }
      dma := { s.dma with addrDrive := false }
      en := { s.en with lastEvent := some .p1f }
      peers := peersCapture s.par 0b001 v s.peers
      turns := ts } := by
  rw [h.fall_driven hv, engP1F_writeStrobe (by exact hs) (by exact hd) (by exact hp) (by exact hk), hc, ← hw]
  rfl

/-- The data edge of a one-byte read into the scratch releases the bus. -/
theorem MasterTurn.rise_onlyRead (h : MasterTurn s .p1f (.rise d) ts) (hb : OneDriver s d v)
    (hw : s.peers.write = none) (hs : s.dma.state = .dXfer) (hp : s.dma.xferPending = true) (hd : s.dma.dir = .rd)
    (ht : s.dma.tgt = .scratch) (hk : s.dma.k = 0) (hc : s.dma.count = 1) (hr : s.par.resume = .sameCycleP1F) :
    step s = .next (markEvent .p1r (dmaReleaseAtEdge { s with
      lines := { s.lines with ctrlOut := 0b000 }
      dma := { s.dma with wbuf0 := v, k := 1, xferPending := false }
      turns := ts })) := by
  have hedge : dmaDataEdge (others s d) { s with turns := ts } =
      { s with dma := { s.dma with wbuf0 := v, k := 1, xferPending := false }, turns := ts } := by
    rw [dmaDataEdge_read (t := { s with turns := ts }) hb rfl hd]
    simp [dmaStore, ht, hk]
  rw [h.rise_quiet hw, engP1R_dataEdge _ (by exact hs) (by exact hp), hedge,
    dmaNextCycle_release (by exact hc.symm) (by exact hr)]

/-- The data edge of a written byte that is not the last, within its burst: the byte lands and the next strobe is
issued. -/
theorem MasterTurn.rise_nextWrite {a : Bits16} (h : MasterTurn s .p1f (.rise (.given none)) ts)
    (hw : s.peers.write = some a) (hv : s.lines.drvD = some v) (hs : s.dma.state = .dXfer)
    (hp : s.dma.xferPending = true) (hd : s.dma.dir = .wr) (hk : s.dma.k + 1 ≠ s.dma.count)
    (hb : s.dma.burstK ≠ s.par.burstMax) :
    step s = .next (markEvent .p1r (dmaIssue { s with
      dma := { s.dma with k := s.dma.k + 1, xferPending := false }
      peers := { s.peers with mem := hostWrite s.peers.mem a v, write := none }
      turns := ts })) := by
  rw [h.rise_landing hw hv, engP1R_dataEdge _ (by exact hs) (by exact hp), dmaDataEdge_write _ (by exact hd),
    dmaNextCycle_strobe (by exact hs) (by exact hk) (by exact hb)]

/-- The data edge of the last written byte: it lands and the bus is released. -/
theorem MasterTurn.rise_lastWrite {a : Bits16} (h : MasterTurn s .p1f (.rise (.given none)) ts)
    (hw : s.peers.write = some a) (hv : s.lines.drvD = some v) (hs : s.dma.state = .dXfer)
    (hp : s.dma.xferPending = true) (hd : s.dma.dir = .wr) (hk : s.dma.k + 1 = s.dma.count)
    (hr : s.par.resume = .sameCycleP1F) :
    step s = .next (markEvent .p1r (dmaReleaseAtEdge { s with
      lines := { s.lines with ctrlOut := 0b000 }
      dma := { s.dma with k := s.dma.k + 1, xferPending := false }
      peers := { s.peers with mem := hostWrite s.peers.mem a v, write := none }
      turns := ts })) := by
  rw [h.rise_landing hw hv, engP1R_dataEdge _ (by exact hs) (by exact hp), dmaDataEdge_write _ (by exact hd),
    dmaNextCycle_release (by exact hk) (by exact hr)]

end

/-- The scratch's bytes (R120). -/
theorem dmaLoad_scratch_first {s : State} (ht : s.dma.tgt = .scratch) (hk : s.dma.k = 0) :
    dmaLoad s s.dma.k = s.dma.wbuf0 := by
  simp [dmaLoad, ht, hk]

theorem dmaLoad_scratch_second {s : State} (ht : s.dma.tgt = .scratch) (hk : s.dma.k = 1) :
    dmaLoad s s.dma.k = s.dma.wbuf1 := by
  simp [dmaLoad, ht, hk]

/-! What the peers do at the strobes (R38, R69, R73). -/

section
variable {par : Params} {p : Bits3}

/-- At a Read the peers drive the byte they hold at their address. -/
theorem peersCapture_read (hc : classify par.intack p = (.read, false)) (v : Byte) (q : Peers) :
    (peersCapture par p v q).drive = hostRead q.mem (peersAddress v q) ∧ (peersCapture par p v q).write = none := by
  obtain ⟨-, -, hha, -, -, hdrive, hwrite⟩ := peersCapture_fields par p v q
  exact ⟨by rw [hdrive, if_pos hc, hha], by rw [hwrite, hc]; rfl⟩

/-- At a Write they take the byte to come at their address. -/
theorem peersCapture_write (hc : classify par.intack p = (.write, false)) (v : Byte) (q : Peers) :
    (peersCapture par p v q).write = some (peersAddress v q) := by
  obtain ⟨-, -, hha, -, -, -, hwrite⟩ := peersCapture_fields par p v q
  rw [hwrite, if_pos hc, hha]

/-- The address of the transaction after one at `a`, where no address load comes between (R73, R85). -/
def followingAddress (par : Params) (a : Bits16) : Bits16 := if highByte a = par.ioPage then a else a + 1

/-- After a Write the peers go on to the following address, whatever has landed in their memory. -/
theorem peersAddress_after_write (hc : classify par.intack p = (.write, false)) (v w : Byte) (q : Peers)
    (m : List Host.Cell) : peersAddress w { peersCapture par p v q with mem := m, write := none } =
      followingAddress par (peersAddress v q) := by
  obtain ⟨-, -, hha, hload, hinc, -, -⟩ := peersCapture_fields par p v q
  rw [hc] at hload
  rw [hha] at hinc
  by_cases hio : highByte (peersAddress v q) = par.ioPage
  · have hinc : (peersCapture par p v q).inc = false := by simpa [hio] using hinc
    rw [followingAddress, if_pos hio, ← hha]
    simp only [peersAddress, hload, hinc, Bool.false_eq_true, if_false]
  · have hinc : (peersCapture par p v q).inc = true := hinc.mpr ⟨.inr hc, hio⟩
    rw [followingAddress, if_neg hio, ← hha]
    simp only [peersAddress, hload, hinc, Bool.false_eq_true, if_false, if_true, incr16]

/-- A Read right after the address load is answered at the loaded address. -/
theorem LoadPending.read {m : List Host.Cell} {a : Bits16} {q : Peers} (h : LoadPending m (lowByte a) q)
    (hc : classify par.intack p = (.read, false)) :
    (peersCapture par p (highByte a) q).drive = hostRead m a ∧ (peersCapture par p (highByte a) q).write = none := by
  rw [← h.mem]
  simpa only [h.address] using peersCapture_read hc (highByte a) q

/-- Two Writes right after the address load go to the loaded address and the following one. -/
theorem LoadPending.writes {m : List Host.Cell} {a : Bits16} {q : Peers} (h : LoadPending m (lowByte a) q)
    (hc : classify par.intack p = (.write, false)) (v : Byte) (m' : List Host.Cell) :
    (peersCapture par p (highByte a) q).write = some a ∧
      (peersCapture par p v { peersCapture par p (highByte a) q with mem := m', write := none }).write =
        some (followingAddress par a) := by
  refine ⟨by rw [peersCapture_write hc, h.address], ?_⟩
  rw [peersCapture_write hc, peersAddress_after_write hc, h.address]

end

/-- Host memory after a byte at `a` and then one at `a'` (R38, R130). -/
theorem hostRead_write_write (m : List Host.Cell) (a a' : Bits16) (lo hi : Byte) :
    let m' := hostWrite (hostWrite m a lo) a' hi
    (hostRead m a' ≠ none → hostRead m' a' = some hi) ∧
      (a' ≠ a → hostRead m a ≠ none → hostRead m' a = some lo) ∧
      (∀ b, hostRead m b = none → hostRead m' b = none) ∧
      (∀ b, b ≠ a → b ≠ a' → hostRead m' b = hostRead m b) := by
  have same : ∀ (m : List Host.Cell) a v, hostRead m a ≠ none → hostRead (hostWrite m a v) a = some v :=
    fun m a v h => hostRead_write_same (Option.ne_none_iff_exists'.mp h).choose_spec
  refine ⟨fun h => same _ _ _ ?_, fun hne h => ?_, fun b h => ?_, fun b h h' => ?_⟩
  · rwa [Ne, hostRead_write_eq_none_iff]
  · rw [hostRead_write_other _ hne.symm, same _ _ _ h]
  · rwa [hostRead_write_eq_none_iff, hostRead_write_eq_none_iff]
  · rw [hostRead_write_other _ h', hostRead_write_other _ h]

/-! The results (R125). -/

theorem dmaResult_readByte {s : State} {a : Bits16} (h : s.fg.wait = some ⟨.dmaReadByte a, rfl⟩) :
    dmaResult s = .byte s.dma.wbuf0 := by
  simp only [dmaResult, h]

theorem dmaResult_writeWord {s : State} {a v : Bits16} (h : s.fg.wait = some ⟨.dmaWriteWord a v, rfl⟩) :
    dmaResult s = .count 2 := by
  simp only [dmaResult, h]

/-! The runs. -/

/-- Settles O51: after the address phase the read strobe has the peers drive the byte, and its data edge returns it. -/
theorem dmaReadByteReturnsHostMemory : Obligations.DmaReadByteReturnsHostMemory := by
  rintro s _ v h hu hi hr ha hs hd rfl htgt hcount hk hwait hc hv - hmem hlast hturns
  have hm := h.mastering ha hu
  obtain ⟨q, hq, hrun⟩ := run_addressPhase 2 ⟨hm, hlast, hturns⟩ hi hs hc hv
  have hread : classify s.par.intack 0b010 = (.read, false) := by rw [hi]; rfl
  obtain ⟨hdrive, hwrite⟩ := hq.read hread
  rw [hmem] at hdrive
  have hne : s.dma.k ≠ s.dma.count := by omega
  have hend := Eq.trans hrun <|
    Eq.trans (run_step (MasterTurn.fall_readStrobe ⟨hm, rfl, rfl⟩ rfl hd hne (if_pos hd) rfl)) <|
    run_step (MasterTurn.rise_onlyRead ⟨hm, rfl, rfl⟩ (.inl ⟨hdrive, rfl⟩) hwrite rfl rfl hd htgt hk
      hcount hr)
  exact ⟨_, hend, congrArg some (dmaResult_readByte hwait), rfl, rfl, rfl, rfl, rfl, hu,
    fun b => congrArg (hostRead · b) hq.mem⟩

/-- Settles O12: after the address phase each of the two write strobes has the peers take a byte, the second at the
following address, and the second data edge releases the bus. -/
theorem dmaWriteWordReachesHostMemory : Obligations.DmaWriteWordReachesHostMemory := by
  rintro s _ v h hu hi hr ha hs hd rfl htgt hcount hk hburst hmax hlo hhi hwait hc hv - hlast hturns
  have hm := h.mastering ha hu
  obtain ⟨q, hq, hrun⟩ := run_addressPhase 4 ⟨hm, hlast, hturns⟩ hi hs hc hv
  have hclass : classify s.par.intack 0b001 = (.write, false) := by rw [hi]; rfl
  have hctrl : (if s.dma.dir = .rd then 0b010 else 0b001 : Bits3) = 0b001 := if_neg (by rw [hd]; nofun)
  obtain ⟨hfirst, hsecond⟩ := hq.writes hclass (lowByte v) (hostWrite q.mem s.dma.addr (lowByte v))
  have hk0 : s.dma.k ≠ s.dma.count := by omega
  have hk1 : s.dma.k + 1 ≠ s.dma.count := by omega
  have hk2 : s.dma.k + 1 + 1 = s.dma.count := by omega
  have hroom : s.dma.burstK + 1 ≠ s.par.burstMax := by omega
  have hload : s.dma.k + 1 = 1 := by omega
  have hend := Eq.trans hrun <|
    Eq.trans (run_step (MasterTurn.fall_writeStrobe ⟨hm, rfl, rfl⟩ rfl hd rfl hk0 hctrl rfl
      (Eq.trans (dmaLoad_scratch_first htgt hk) hlo))) <|
    Eq.trans (run_step (MasterTurn.rise_nextWrite ⟨hm, rfl, rfl⟩ hfirst rfl rfl rfl hd hk1 hroom)) <|
    Eq.trans (run_step (MasterTurn.fall_writeStrobe ⟨hm, rfl, rfl⟩ rfl hd rfl hk1 hctrl rfl
      (Eq.trans (dmaLoad_scratch_second htgt hload) hhi))) <|
    run_step (MasterTurn.rise_lastWrite ⟨hm, rfl, rfl⟩ hsecond rfl rfl rfl hd hk2 hr)
  refine ⟨_, hend, congrArg some (dmaResult_writeWord hwait), rfl, rfl, rfl, rfl, rfl, rfl, hu, ?_⟩
  rw [← hq.mem]
  exact hostRead_write_write q.mem s.dma.addr (followingAddress s.par s.dma.addr) (lowByte v) (highByte v)

end Sys2Proof.Machine
end

section
/-! The two decoders read back what the encoders write (R51 to R53, R58, R60, R63), and a reserved command (R60). -/

namespace Sys2Proof

/-! Foreground commands. -/

theorem takeOne_cons {b n : Nat} (h : n < b) (f : Nat → Instr) (r : List Nat) :
    takeOne b f (n :: r) = .ok (f n, r) := by
  simp only [takeOne, takeBelow, if_pos h]

theorem takeBelowNat_cons {b n : Nat} (h : n < b) (f : Nat → Nat → Instr) (m : Nat) (r : List Nat) :
    takeBelowNat b f (n :: m :: r) = .ok (f n m, r) := by
  simp only [takeBelowNat, takeBelow, if_pos h, takeNat_cons]

theorem takeTwo_cons {b c n m : Nat} (h : n < b) (k : m < c) (f : Nat → Nat → Instr) (r : List Nat) :
    takeTwo b c f (n :: m :: r) = .ok (f n m, r) := by
  simp only [takeTwo, takeBelow, if_pos h, if_pos k]

/-- An opcode that R58 does not list is read as a reserved command without operands (R60). -/
theorem decodeOperands_unlisted {op : Nat} (h : op ∉ listedOps) (r : List Nat) :
    decodeOperands op r = .ok (.reserved (BitVec.ofNat 8 op), r) := by
  unfold decodeOperands
  split
  case h_18 => rfl
  all_goals exact absurd (by decide) h

theorem decodeCmd_unlisted {op : Byte} (h : op.toNat ∉ listedOps) (rest : List Nat) :
    decodeCmd (op.toNat :: rest) = .ok (.reserved op, rest) := by
  have hbyte : decodeCmd (op.toNat :: rest) = decodeOperands op.toNat rest := if_pos op.isLt
  rw [hbyte, decodeOperands_unlisted h, BitVec.ofNat_toNat, BitVec.setWidth_eq]

/-- Settles O1: each command's operands are within the bounds its reader checks. -/
theorem commandDecodesToItself : Obligations.CommandDecodesToItself := by
  intro k i rest hi hwf
  cases i with
  | regRead lo h | regWrite lo h => simp [encodeCmd, decodeCmd, decodeOperands, takeBelowNat_cons lo.isLt]
  | unregister v | intSetVector v => simp [encodeCmd, decodeCmd, decodeOperands, takeOne_cons v.isLt]
  | intEnable b | intRequest b | intWant b => simp [encodeCmd, decodeCmd, decodeOperands, takeOne_cons b.toNat_lt]
  | claimSet | arm | traceStart | traceStop | dmaReadBlock | dmaWriteBlock =>
    simp [encodeCmd, decodeCmd, decodeOperands]
  | dmaReadByte a | dmaReadWord a => simp [encodeCmd, decodeCmd, decodeOperands, takeOne_cons a.isLt]
  | dmaWriteByte a v | dmaWriteWord a v =>
    simp [encodeCmd, decodeCmd, decodeOperands, takeTwo_cons a.isLt v.isLt]
  | reserved op => exact decodeCmd_unlisted (by simpa [Instr.wf] using hwf) rest
  | idle | addrLoad | read | readAl | write | writeAl | dmaAck | intAck => exact absurd hi nofun

/-- Settles O5: no opcode in these ranges is listed. -/
theorem reservedOpcodesAreRefused : Obligations.ReservedOpcodesAreRefused := by
  intro op rest s h
  have hunlisted : op.toNat ∉ listedOps := by
    simp only [listedOps, List.cons_append, List.nil_append, List.mem_cons, List.not_mem_nil, or_false]
    bv_omega
  exact ⟨decodeCmd_unlisted hunlisted rest, Machine.refuse .reservedCommand s, rfl,
    Machine.refuse_refused _ s, rfl, nofun⟩

/-! Bus-cycle classes. -/

/-- INT_ACK's pattern is taken first, whatever its bits (R52). -/
theorem decodeCycle_intackBits (k : IntAckPattern) (e : Drive) (pri : Bool) :
    decodeCycle k (intackBits k) e pri = .intAck e pri := by
  simp [decodeCycle, classify]

theorem decodeCycle_addrLoad {k : IntAckPattern} (h : k ≠ .p100) (e : Drive) (pri : Bool) :
    decodeCycle k 0b100 e pri = .addrLoad e pri := by
  cases k with
  | p100 => exact absurd rfl h
  | p111 | p110 | p101 => rfl

theorem decodeCycle_writeAl {k : IntAckPattern} (h : k ≠ .p101) (e : Drive) (pri : Bool) :
    decodeCycle k 0b101 e pri = .writeAl e pri := by
  cases k with
  | p101 => exact absurd rfl h
  | p111 | p110 | p100 => rfl

/-- Either pattern of a well-formed READ_AL is a Read with an address load (R52). -/
theorem classify_readAl {k : IntAckPattern} {wr : Bool} {e : Drive} {pri : Bool}
    (h : (Instr.readAl wr e pri).wf k = true) : classify k (if wr then 0b111 else 0b110) = (.read, true) := by
  cases wr with
  | false =>
    cases k with
    | p110 => exact absurd h nofun
    | p111 | p101 | p100 => rfl
  | true =>
    cases k with
    | p111 => exact absurd h nofun
    | p110 | p101 | p100 => rfl

/-- The low bit of the pattern tells the two apart. -/
theorem decodeCycle_readAl {k : IntAckPattern} {wr : Bool} {e : Drive} {pri : Bool}
    (h : (Instr.readAl wr e pri).wf k = true) :
    decodeCycle k (if wr then 0b111 else 0b110) e pri = .readAl wr e pri := by
  simp only [decodeCycle, classify_readAl h]
  cases wr <;> rfl

/-- Settles O2, class by class: INT_ACK's pattern decides before the bits do, so where it could be another class's own
pattern that class is not well formed. -/
theorem cycleDecodesToItself : Obligations.CycleDecodesToItself := by
  intro k i p e pri hwf h
  cases i with
  | idle | read | write | dmaAck => cases h; cases k <;> rfl
  | intAck => cases h; exact decodeCycle_intackBits k e pri
  | addrLoad => cases h; exact decodeCycle_addrLoad (by simpa [Instr.wf] using hwf) e pri
  | writeAl => cases h; exact decodeCycle_writeAl (by simpa [Instr.wf] using hwf) e pri
  | readAl => cases h; exact decodeCycle_readAl hwf
  | regRead | regWrite | unregister | claimSet | arm | traceStart | traceStop | intSetVector | intEnable | intRequest
  | intWant | dmaReadBlock | dmaWriteBlock | dmaReadByte | dmaWriteByte | dmaReadWord | dmaWriteWord | reserved =>
    cases h

/-- Every pattern is that of a well-formed class (R53, R86): INT_ACK where it is INT_ACK's own, else the class of its
bits. -/
theorem exists_class_of_pattern (k : IntAckPattern) (p : Bits3) (e : Drive) (pri : Bool) :
    ∃ i : Instr, i.isCommand = false ∧ i.wf k = true ∧ encodeCycle k i = some (p, e, pri) := by
  by_cases hp : p = intackBits k
  · exact ⟨.intAck e pri, rfl, rfl, by rw [hp]; rfl⟩
  · have hcases : ∀ q : Bits3, q = 0b000 ∨ q = 0b001 ∨ q = 0b010 ∨ q = 0b011 ∨ q = 0b100 ∨ q = 0b101 ∨
        q = 0b110 ∨ q = 0b111 := by decide
    rcases hcases p with rfl | rfl | rfl | rfl | rfl | rfl | rfl | rfl
    · exact ⟨.idle e pri, rfl, rfl, rfl⟩
    · exact ⟨.write e pri, rfl, rfl, rfl⟩
    · exact ⟨.read e pri, rfl, rfl, rfl⟩
    · exact ⟨.dmaAck e pri, rfl, rfl, rfl⟩
    · exact ⟨.addrLoad e pri, rfl, bne_iff_ne.mpr fun h => hp (h ▸ rfl), rfl⟩
    · exact ⟨.writeAl e pri, rfl, bne_iff_ne.mpr fun h => hp (h ▸ rfl), rfl⟩
    · exact ⟨.readAl false e pri, rfl, bne_iff_ne.mpr fun h => hp (h ▸ rfl), rfl⟩
    · exact ⟨.readAl true e pri, rfl, bne_iff_ne.mpr fun h => hp (h ▸ rfl), rfl⟩

/-- Settles O3: the class that has the pattern is the one it decodes to. -/
theorem everyPatternIsOneClass : Obligations.EveryPatternIsOneClass := by
  intro k p e pri
  obtain ⟨i, hi, hwf, henc⟩ := exists_class_of_pattern k p e pri
  rw [cycleDecodesToItself k i p e pri hwf henc]
  exact ⟨hi, hwf, henc⟩

/-- Settles O4: each word is the encoding of what it decodes to. -/
theorem writtenOutWordsDecode : Obligations.WrittenOutWordsDecode := by
  have cycle := cycleDecodesToItself .p111
  have command := fun i => commandDecodesToItself .p111 i []
  refine ⟨fun e pri => ⟨cycle (.idle e pri) _ _ _ rfl rfl, cycle (.addrLoad e pri) _ _ _ rfl rfl,
    cycle (.read e pri) _ _ _ rfl rfl, cycle (.readAl false e pri) _ _ _ rfl rfl, cycle (.write e pri) _ _ _ rfl rfl,
    cycle (.writeAl e pri) _ _ _ rfl rfl, cycle (.dmaAck e pri) _ _ _ rfl rfl, cycle (.intAck e pri) _ _ _ rfl rfl⟩,
    rfl, rfl, rfl, rfl, rfl, rfl, rfl, rfl,
    command (.regWrite 0x40 7) rfl rfl, command .arm rfl rfl, command (.intSetVector 0x10) rfl rfl,
    command (.dmaWriteByte 0x3000 0x5A) rfl rfl, command (.dmaWriteWord 0x2000 0xBEEF) rfl rfl⟩

end Sys2Proof
end

section
/-! CLAIM_SET and what it shares with the other commands that refuse: the refusal record, and the write of one slot (R32,
R93). -/

namespace Sys2Proof.Machine
open Sys2Proof

/-- A refusal where none is recorded (R32). -/
theorem refuse_eq {s : State} (r : RefuseReason) (h : s.marks.refused = none) :
    refuse r s = { s with marks := { s.marks with refused := some r } } := by
  simp [refuse, h]

@[simp] theorem sparseGet_put_same {α : Type} (k : Nat) (v : Option α) (m : Sparse α) :
    sparseGet k (sparsePut k v m) = v := by
  cases v with
  | none => exact sparseGet_erase_same k m
  | some x => exact sparseGet_set_same k x m

theorem sparseGet_put_other {α : Type} {k j : Nat} (h : j ≠ k) (v : Option α) (m : Sparse α) :
    sparseGet j (sparsePut k v m) = sparseGet j m := by
  cases v with
  | none => exact sparseGet_erase_other h m
  | some x => exact sparseGet_set_other h x m

/-- CLAIM_SET of a slot there is, before the first ARM (R93, R94). -/
theorem claimSet_early {s : State} {i : Nat} (c : Option Nat) (hi : i < s.par.maxClaims) (ho : s.en.armedOnce = false) :
    claimSet i c s = setResult .done { s with tabs := { s.tabs with claims := sparsePut i c s.tabs.claims } } := by
  simp [claimSet, registerStep, Nat.not_le.mpr hi, ho]

/-- The range check comes before the check of lateness (R93). -/
theorem claimSet_outOfRange {s : State} {i : Nat} (c : Option Nat) (hi : s.par.maxClaims ≤ i) :
    claimSet i c s = refuse .argumentOutOfRange s := if_pos hi

/-- Settles O16: the one slot is written through the table's `sparsePut`. -/
theorem claimSetWritesOneSlot : Obligations.ClaimSetWritesOneSlot := by
  refine fun s i c => ⟨fun hi ho => ?_, fun hi hr => ?_⟩
  · exact ⟨_, congrArg Host.Outcome.next (claimSet_early c hi ho), sparseGet_put_same i c _,
      fun j hj => sparseGet_put_other hj c _, rfl⟩
  · exact congrArg Host.Outcome.next ((claimSet_outOfRange c hi).trans (refuse_eq _ hr))

end Sys2Proof.Machine
end

section
/-! The DMA commands, by what `DmaCommand` checks (R110 to R112, R126 to R129). -/

namespace Sys2Proof.Machine
open Sys2Proof

section
variable {misuse : State → State} {dir : DmaDir} {addr : Bits16} {tgt : Option DmaTarget} {n : Nat} {c : Cmd}
  {s : State}

theorem dmaCommand_countRefused (h : s.par.dmaCountMax < n) :
    dmaCommand misuse dir addr tgt n c s = refuse .argumentOutOfRange s := if_pos h

theorem dmaCommand_bufferRefused {b : Nat} (hn : n ≤ s.par.dmaCountMax) (h0 : 0 < n) (hb : s.par.bufSize < b + n) :
    dmaCommand misuse dir addr (some (.buf b)) n c s = refuse .bufferOutOfRange s := by
  simp [dmaCommand, bufOverrun, Nat.not_lt.mpr hn, h0, hb]

/-- A transfer to or from the scratch runs past no buffer (R112). -/
theorem dmaCommand_scratch (hn : n ≤ s.par.dmaCountMax) (h0 : 0 < n) (hi : s.dma.state = .dIdle) :
    dmaCommand misuse dir addr (some .scratch) n c s = dmaAccept dir addr .scratch n c s := by
  simp [dmaCommand, bufOverrun, Nat.not_lt.mpr hn, Nat.ne_of_gt h0, hi]

end

/-- Settles O40: both block commands are `DmaCommand`, which checks the count and then the buffer. -/
theorem dmaArgumentsOutOfRangeAreRefused : Obligations.DmaArgumentsOutOfRangeAreRefused := by
  refine fun s addr buf b n hr => ⟨fun hn => ?_, fun hn h0 hb => ?_⟩
  · rw [← refuse_eq _ hr]
    exact ⟨congrArg Host.Outcome.next (dmaCommand_countRefused hn),
      congrArg Host.Outcome.next (dmaCommand_countRefused hn)⟩
  · rw [← refuse_eq _ hr]
    exact ⟨congrArg Host.Outcome.next (dmaCommand_bufferRefused hn h0 hb),
      congrArg Host.Outcome.next (dmaCommand_bufferRefused hn h0 hb)⟩

/-- Settles O41: each wrapper is an accepted `DmaCommand` to the scratch, after a write has put its operand there. -/
theorem wrappersUseTheScratch : Obligations.WrappersUseTheScratch := by
  intro s addr v x hmax hi
  have hbytes : v.toNat = (highByte v).toNat * 256 + (lowByte v).toNat := by rw [← assemble_toNat, assemble_fields]
  have h1 : 1 ≤ s.par.dmaCountMax := Nat.le_of_succ_le hmax
  exact ⟨congrArg Host.Outcome.next (dmaCommand_scratch h1 Nat.one_pos hi),
    congrArg Host.Outcome.next (dmaCommand_scratch h1 Nat.one_pos hi),
    congrArg Host.Outcome.next (dmaCommand_scratch hmax Nat.two_pos hi),
    lowByte v, highByte v, hbytes, congrArg Host.Outcome.next (dmaCommand_scratch hmax Nat.two_pos hi)⟩

end Sys2Proof.Machine
end

section
/-! One record of the trace (R61, R136). -/

namespace Sys2Proof.Machine
open Sys2Proof

/-- The pushed record stands at the index of the push (R136). -/
theorem traceAt_push_same (d : Byte) (s : State) :
    traceAt (tracePush d s).trace s.trace.idx = traceRecord s d (auxByte d s).1 := by
  simp [traceAt, tracePush]

/-- A push leaves what the other slots hold, listed or drawn at the reset (R136). -/
theorem traceAt_push_other (d : Byte) (s : State) {j : Nat} (h : j ≠ s.trace.idx) :
    traceAt (tracePush d s).trace j = traceAt s.trace j := by
  obtain ⟨n, hn⟩ := auxByte_state d s
  simp only [traceAt, tracePush, hn, sparseGet_set_other h]

/-- `AUX` is the pinned value where the launch gives one (R136). -/
theorem auxByte_pinned {d b : Byte} {s : State}
    (h : s.par.logic.aux.lookup (s.disp.lastCtrl, s.disp.a, d, s.dev) = some b) : auxByte d s = (b, s) := by
  simp only [auxByte, h]

/-- A push moves the ring, its index and the draw count. -/
theorem tracePush_state (d : Byte) (s : State) : tracePush d s = { s with
    trace := { s.trace with buf := (tracePush d s).trace.buf, idx := (tracePush d s).trace.idx },
    draws := (tracePush d s).draws } := by
  obtain ⟨n, hn⟩ := auxByte_state d s
  simp only [tracePush, hn]

/-- Settles O23, from the record at the index and the frame of a push. -/
theorem tracePushWritesOneRecord : Obligations.TracePushWritesOneRecord := by
  intro s d t r
  have hr : r = traceRecord s d (auxByte d s).1 := traceAt_push_same d s
  rw [hr]
  exact ⟨rfl, rfl, rfl, rfl, fun b hb => congrArg Prod.fst (auxByte_pinned hb), fun j => traceAt_push_other d s, rfl,
    tracePush_state d s⟩

end Sys2Proof.Machine
end

section
/-! A falling edge and the class it samples: which class runs (R65), and the Reads, with or without an address load (R77,
R78). -/

namespace Sys2Proof.Machine
open Sys2Proof

/-- Settles O6: the turn is a falling edge that alternates, and the pattern is that of who drives the control lines. -/
theorem stepRunsTheSampledClass : Obligations.StepRunsTheSampledClass := by
  intro s e p pri ts ht hu hlast
  have halt : alternates { s with turns := ts } .p1f = true := bne_iff_ne.mpr hlast
  have hstep : step s = exec (decodeCycle s.par.intack (sampledPattern s p) e pri) { s with turns := ts } :=
    (step_unmarked ht hu).trans (if_pos halt)
  exact ⟨fun hmode => by rw [hstep, sampledPattern, hmode], fun hmode => by rw [hstep, sampledPattern, hmode]⟩

/-- A Read schedules no write, and is answered at the address as it stands after the falling edge (R71, R73). -/
theorem evP1F_read {s : State} (h : Coherent s) (he : dispatcherEnabled s = true) (d : Drive) {p : Bits3} (pri : Bool)
    (hp : (classify s.par.intack p).1 = .read) :
    (evP1F d p pri s).disp.schedWrite = none ∧ ReadAnswered s (evP1F d p pri s) (evP1F d p pri s).disp.a := by
  have hu : FallenFrom (onP1F (others s d) (peersP1F (others s d) p s)) s := fallenFrom h.ready_drives _ p
  rw [evP1F_serving d p pri he (h.serving he).2.1, markEvent_disp, (onSP2_disp p pri _).1]
  refine ⟨?_, onSP2_read pri hu hp⟩
  rw [onSP2_schedWrite, hu.par, hp]
  exact if_neg nofun

/-- Settles O31: what every class does, with what a Read adds. -/
theorem readAlCycleCompletes : Obligations.ReadAlCycleCompletes := by
  intro s wr d pri h he hwf
  have hclass := classify_readAl hwf
  have hdone := cycleDone d (if wr then 0b111 else 0b110) pri h he
  rw [hclass] at hdone
  exact ⟨_, _, rfl, hdone, evP1F_read h he d pri (congrArg Prod.fst hclass)⟩

end Sys2Proof.Machine
end

section
/-! The clock events alternate (R65, R154). -/

namespace Sys2Proof.Machine
open Sys2Proof

/-- An event of the last event's kind breaks the host's duty (R154). -/
theorem alternates_iff (s : State) (k : EventKind) : alternates s k = true ↔ s.en.lastEvent ≠ some k := bne_iff_ne

/-- Settles O10: the turn is the event where the host kept its duty, and a refusal where it did not. -/
theorem clockEventsAlternate : Obligations.ClockEventsAlternate := by
  intro s e p pri ts hu
  have hkept {k : EventKind} : alternates { s with turns := ts } k = true ↔ s.en.lastEvent ≠ some k :=
    alternates_iff _ k
  refine ⟨fun ht hlast => ?_, fun ht hlast => ?_, fun ht hlast => ?_⟩ <;> rw [step_unmarked ht hu]
  · exact if_pos (hkept.mpr hlast)
  · exact if_neg fun h => hkept.mp h hlast
  · exact if_neg fun h => hkept.mp h hlast

end Sys2Proof.Machine
end

section
/-! The bus-cycle classes of a running dispatcher: those met with silence, READ, and the two acknowledges (R72, R75 to
R77, R79 to R82). -/

namespace Sys2Proof.Machine
open Sys2Proof

/-! The patterns of the classes (R52). One that INT_ACK may take stands for its own class where that is well formed. -/

theorem classify_idle (k : IntAckPattern) : classify k 0b000 = (.idle, false) := by cases k <;> rfl
theorem classify_read (k : IntAckPattern) : classify k 0b010 = (.read, false) := by cases k <;> rfl
theorem classify_write (k : IntAckPattern) : classify k 0b001 = (.write, false) := by cases k <;> rfl
theorem classify_dmaAck (k : IntAckPattern) : classify k 0b011 = (.dmaAck, false) := by cases k <;> rfl
theorem classify_intackBits (k : IntAckPattern) : classify k (intackBits k) = (.interruptAck, false) := if_pos rfl

theorem classify_addrLoad {k : IntAckPattern} {d : Drive} {pri : Bool} (h : (Instr.addrLoad d pri).wf k = true) :
    classify k 0b100 = (.idle, true) := by
  cases k with
  | p100 => exact absurd h nofun
  | p111 | p110 | p101 => rfl

theorem classify_writeAl {k : IntAckPattern} {d : Drive} {pri : Bool} (h : (Instr.writeAl d pri).wf k = true) :
    classify k 0b101 = (.write, true) := by
  cases k with
  | p101 => exact absurd h nofun
  | p111 | p110 | p100 => rfl

section
variable {s : State} {p : Bits3} {cyc : BusState} {al : Bool}

/-- What every class does, for a pattern whose class is known. -/
theorem exists_cycleDone (d : Drive) (pri : Bool) (h : Coherent s) (he : dispatcherEnabled s = true)
    (hp : classify s.par.intack p = (cyc, al)) : ∃ v, CycleDone s (evP1F d p pri s) d p cyc al v := by
  have hdone := cycleDone d p pri h he
  rw [hp] at hdone
  exact ⟨_, hdone⟩

/-- The event of a running dispatcher is its `SP2`, from a state that the falling edge has left silent. -/
theorem exists_evP1F_eq (d : Drive) (p : Bits3) (pri : Bool) (h : Coherent s) (he : dispatcherEnabled s = true) :
    ∃ u, FallenFrom u s ∧ evP1F d p pri s = markEvent .p1f (onSP2 p pri u) :=
  ⟨_, fallenFrom h.ready_drives _ p, evP1F_serving d p pri he (h.serving he).2.1⟩

/-- A write is scheduled for a WRITE alone, whatever else the class does (R72, R73). -/
theorem evP1F_schedWrite (d : Drive) (pri : Bool) (h : Coherent s) (he : dispatcherEnabled s = true)
    (hp : classify s.par.intack p = (cyc, al)) :
    (evP1F d p pri s).disp.schedWrite =
      if cyc = .write ∧ al = false then resolveWrite s (evP1F d p pri s).disp.a else none := by
  obtain ⟨u, hu, e⟩ := exists_evP1F_eq d p pri h he
  rw [e, markEvent_disp, onSP2_schedWrite, (onSP2_disp p pri u).1, resolveWrite_congr hu.par hu.dev hu.tabs, hu.par, hp]

/-- A class that is no Read and acknowledges nothing is met with silence, and only a WRITE has a target. -/
theorem evP1F_silent (d : Drive) (pri : Bool) (h : Coherent s) (he : dispatcherEnabled s = true)
    (hp : classify s.par.intack p = (cyc, al)) (hread : cyc ≠ .read) (hint : cyc ≠ .interruptAck)
    (hdma : cyc = .dmaAck → requestOutstanding s = false) :
    ∃ v, CycleDone s (evP1F d p pri s) d p cyc al v ∧
      (evP1F d p pri s).disp.schedWrite =
        (if cyc = .write ∧ al = false then resolveWrite s (evP1F d p pri s).disp.a else none) ∧
      Silent (evP1F d p pri s) ∧ NoHandlerFrame s (evP1F d p pri s) ∧ ArbiterOutsideAck s (evP1F d p pri s) := by
  obtain ⟨v, hdone⟩ := exists_cycleDone d pri h he hp
  obtain ⟨u, hu, e⟩ := exists_evP1F_eq d p pri h he
  have hquiet := onSP2_silent (p := p) pri hu
  rw [hp, ← e] at hquiet
  obtain ⟨hsilent, hframe, harb, hsched⟩ := hquiet hread hint hdma
  exact ⟨v, hdone, hsched, hsilent, hframe, harb⟩

end

/-- Settles O29: none of the three classes is answered, is an acknowledge, or schedules a write. -/
theorem idleAndAddressLoadCyclesComplete : Obligations.IdleAndAddressLoadCyclesComplete := by
  intro s d pri h he
  refine ⟨?_, fun hwf => ?_, fun hwf => ?_⟩
  · obtain ⟨v, hv⟩ := evP1F_silent d pri h he (classify_idle _) nofun nofun nofun
    exact ⟨_, v, rfl, hv⟩
  · obtain ⟨v, hv⟩ := evP1F_silent d pri h he (classify_addrLoad hwf) nofun nofun nofun
    exact ⟨_, v, rfl, hv⟩
  · obtain ⟨v, hv⟩ := evP1F_silent d pri h he (classify_writeAl hwf) nofun nofun nofun
    exact ⟨_, v, rfl, hv⟩

/-- Settles O30: what every class does, with what a Read adds. -/
theorem readCycleCompletes : Obligations.ReadCycleCompletes := by
  intro s d pri h he
  obtain ⟨v, hdone⟩ := exists_cycleDone d pri h he (classify_read s.par.intack)
  exact ⟨_, v, rfl, hdone, evP1F_read h he d pri (congrArg Prod.fst (classify_read _))⟩

/-- Settles O32: a silent class, which schedules what the write search answers at the address after the falling edge. -/
theorem writeCycleCompletes : Obligations.WriteCycleCompletes := by
  intro s d pri h he
  obtain ⟨v, hdone, hsched, hrest⟩ := evP1F_silent d pri h he (classify_write s.par.intack) nofun nofun nofun
  refine ⟨_, v, rfl, hdone, hsched.trans ((if_pos ⟨rfl, rfl⟩).trans ?_), hrest⟩
  generalize (evP1F d 0b001 pri s).disp.a = a
  cases hclaim : firstClaim s a s.tabs.claims with
  | some x => exact resolveWrite_claimed hclaim
  | none =>
    rw [resolveWrite_unclaimed hclaim, ite_and]
    cases sparseGet (lowByte a).toNat s.tabs.wrTab <;> simp

/-! The two acknowledges (R81, R82). -/

/-- The classification moves nothing that the falling edge left of the state before (R70). -/
theorem FallenFrom.classified {s u : State} (hu : FallenFrom u s) (p : Bits3) : FallenFrom (setClassification p u) s :=
  ⟨hu.par, hu.int, hu.dma, hu.dev, hu.en, hu.fg, hu.trace, hu.refused, hu.tabs, hu.lines⟩

/-- After the falling edge, with no acknowledge: silence, and only the arbiter and the schedule move. -/
theorem FallenFrom.classFrame {s v : State} {cyc : BusState} (hv : FallenFrom v s) (hc : cyc ≠ .interruptAck)
    (pri : Bool) :
    let t := markEvent .p1f (scheduleNext (driveHalt (arbStep cyc pri v)))
    Silent t ∧ NoHandlerFrame s t ∧ ArbiterOutsideAck s t := by
  obtain ⟨hdrv, hrdy, hframe, harb⟩ := Machine.classFrame hc pri hv.dev hv.dma hv.en hv.fg hv.trace hv.refused hv.int
    (by rw [hv.lines]) (by rw [hv.lines])
  exact ⟨⟨hdrv.trans (by rw [hv.lines]), hrdy.trans (by rw [hv.lines])⟩, hframe, harb⟩

/-- With no Read, `SP2` has only the arbiter, the request line, the acknowledge and the schedule to do (R70). -/
theorem evP1F_unread {s : State} {p : Bits3} {cyc : BusState} {al : Bool} (d : Drive) (pri : Bool) (h : Coherent s)
    (he : dispatcherEnabled s = true) (hp : classify s.par.intack p = (cyc, al)) (hread : cyc ≠ .read) :
    ∃ v, FallenFrom v s ∧ v.disp.cyc = cyc ∧
      evP1F d p pri s = markEvent .p1f (scheduleNext (acknowledgeDma (driveHalt (arbStep cyc pri v)))) := by
  obtain ⟨u, hu, e⟩ := exists_evP1F_eq d p pri h he
  have hcyc : (classify u.par.intack p).1 = cyc := by rw [hu.par, hp]
  rw [onSP2_eq, beforeArbiter_unread (by rwa [hcyc]), hcyc] at e
  exact ⟨_, hu.classified p, hcyc, e⟩

/-- The acknowledge of an outstanding request disarms the dispatcher and moves the handshake, and nothing else (R81). -/
theorem acknowledgeDma_outstanding {s : State} (hc : s.disp.cyc = .dmaAck) (hq : requestOutstanding s = true) :
    acknowledgeDma s = { s with
      en := { s.en with armed := false }, dma := { s.dma with ack := true, request := false } } := if_pos ⟨hc, hq⟩

/-- The arbiter and the request line come before the acknowledge and leave what it looks at (R70). -/
theorem beforeAcknowledge_looks (cyc : BusState) (pri : Bool) (s : State) :
    (driveHalt (arbStep cyc pri s)).disp = s.disp ∧ (driveHalt (arbStep cyc pri s)).dma = s.dma := by
  rw [driveHalt_state, arbStep_state]
  exact ⟨rfl, rfl⟩

/-- The DMA acknowledge of this device's request: the arbiter runs as in any silent class, and the request is taken. -/
theorem evP1F_dmaAck {s : State} {p : Bits3} {al : Bool} (d : Drive) (pri : Bool) (h : Coherent s)
    (he : dispatcherEnabled s = true) (hp : classify s.par.intack p = (.dmaAck, al))
    (hq : requestOutstanding s = true) :
    let t := evP1F d p pri s
    Silent t ∧ ArbiterOutsideAck s t ∧ t.dma = { s.dma with ack := true, request := false } ∧
      t.en = { s.en with armed := false, lastEvent := some .p1f } ∧ t.dev = s.dev ∧ t.fg = s.fg ∧
      t.trace = s.trace ∧ t.marks.refused = s.marks.refused := by
  obtain ⟨v, hv, hcyc, e⟩ := evP1F_unread d pri h he hp nofun
  obtain ⟨hclass, hengine⟩ := beforeAcknowledge_looks .dmaAck pri v
  have hout : requestOutstanding (driveHalt (arbStep .dmaAck pri v)) = true := by
    unfold requestOutstanding
    rwa [hengine, hv.dma]
  rw [acknowledgeDma_outstanding (by rw [hclass, hcyc]) hout] at e
  obtain ⟨hsilent, ⟨hdev, hdma, hen, hfg, htrace, hrefused⟩, harb⟩ := hv.classFrame (cyc := .dmaAck) nofun pri
  rw [e]
  exact ⟨hsilent, harb, congrArg (fun m : Dma => { m with ack := true, request := false }) hdma,
    congrArg (fun m : Enables => { m with armed := false }) hen, hdev, hfg, htrace, hrefused⟩

/-- Settles O33: without an outstanding request the class is a silent one; with one, the acknowledge comes on top. -/
theorem dmaAckCycleCompletes : Obligations.DmaAckCycleCompletes := by
  intro s d pri h he
  have hp := classify_dmaAck s.par.intack
  have hout : requestOutstanding s = s.dma.request := by simp [requestOutstanding, (h.serving he).1]
  cases hq : s.dma.request with
  | true =>
    obtain ⟨v, hdone⟩ := exists_cycleDone d pri h he hp
    obtain ⟨hsilent, harb, htaken⟩ := evP1F_dmaAck d pri h he hp (hout.trans hq)
    exact ⟨_, v, rfl, hdone, evP1F_schedWrite d pri h he hp, hsilent, harb, fun _ => htaken, nofun⟩
  | false =>
    obtain ⟨v, hdone, hsched, hsilent, hframe, harb⟩ := evP1F_silent d pri h he hp nofun nofun fun _ => hout.trans hq
    exact ⟨_, v, rfl, hdone, hsched, hsilent, harb, nofun, fun _ => hframe⟩

/-- An Idle arbiter that is not outranked takes an interrupt acknowledge as it takes an idle cycle (R100). -/
theorem arbStep_ack_idle {s : State} (h : s.int.arb = .idle) :
    arbStep .interruptAck false s = arbStep .idle false s := by
  simp [arbStep, h]

/-- An Idle arbiter that is outranked loses its enable (R99). -/
theorem arbStep_ack_outranked {s : State} (h : s.int.arb = .idle) :
    arbStep .interruptAck true s = { s with int.enable := false } := by
  simp [arbStep, h]

/-- A pending arbiter answers with its vector where it has the priority (R101). -/
theorem arbStep_ack_served {s : State} (h : s.int.arb = .requestPending) :
    arbStep .interruptAck false s = supplyVector (releaseRequest s) := by
  simp [arbStep, h]

/-- A pending arbiter that is outranked loses the round (R102). -/
theorem arbStep_ack_lost {s : State} (h : s.int.arb = .requestPending) :
    arbStep .interruptAck true s = releaseRequest s := by
  simp [arbStep, h]

/-- The interrupt acknowledge is the arbiter's step, after which only the request line and the schedule move. -/
theorem evP1F_intAck {s : State} (d : Drive) (pri : Bool) (h : Coherent s) (he : dispatcherEnabled s = true) :
    ∃ v, FallenFrom v s ∧ evP1F d (intackBits s.par.intack) pri s =
      markEvent .p1f (scheduleNext (driveHalt (arbStep .interruptAck pri v))) := by
  obtain ⟨v, hv, hcyc, e⟩ := evP1F_unread d pri h he (classify_intackBits _) nofun
  rw [acknowledgeDma_none (by rw [(beforeAcknowledge_looks _ pri v).1, hcyc]; nofun)] at e
  exact ⟨v, hv, e⟩

/-- Settles O34: the four cases of the arbiter's step; nothing else of the class depends on them. -/
theorem intAckCycleCompletes : Obligations.IntAckCycleCompletes := by
  intro s d pri h he
  have hp := classify_intackBits s.par.intack
  obtain ⟨w, hdone⟩ := exists_cycleDone d pri h he hp
  obtain ⟨v, hv, e⟩ := evP1F_intAck d pri h he
  have harb : v.int.arb = s.int.arb := congrArg Arbiter.arb hv.int
  refine ⟨_, w, rfl, hdone, evP1F_schedWrite d pri h he hp, ?_, ?_, ?_, ?_, ?_⟩
  · rw [e, driveHalt_state, arbStep_state]
    exact ⟨hv.dev, hv.dma, congrArg (fun m : Enables => { m with lastEvent := some .p1f }) hv.en, hv.fg, hv.trace,
      hv.refused⟩
  · rintro hs rfl
    rw [e, arbStep_ack_served (harb.trans hs), driveHalt_state]
    simp [Answers, supplyVector, releaseRequest, hv.int]
  · rintro hs rfl
    rw [e, arbStep_ack_lost (harb.trans hs), driveHalt_state]
    simp [Silent, releaseRequest, hv.int, hv.lines]
  · rintro hs rfl
    rw [e, arbStep_ack_outranked (harb.trans hs), driveHalt_state]
    simp [Silent, hv.int, hv.lines]
  · rintro hs rfl
    rw [e, arbStep_ack_idle (harb.trans hs)]
    obtain ⟨hsilent, -, hidle⟩ := hv.classFrame (cyc := .idle) nofun false
    exact ⟨hsilent, hidle⟩

end Sys2Proof.Machine
end

section
/-! The rising edge of a running dispatcher: the scheduled write and the trace (R66, R67, R79, R136). -/

namespace Sys2Proof.Machine
open Sys2Proof

/-! The scheduled write, by its target (R67). -/

theorem performWrite_none {s : State} (v : Byte) (h : s.disp.schedWrite = none) : performWrite v s = s := by
  simp only [performWrite, h]

theorem performWrite_claim {s : State} {i c : Nat} (v : Byte) (h : s.disp.schedWrite = some (.claimT i))
    (hc : sparseGet i s.tabs.claims = some c) : performWrite v s = { s with dev := claimW s c s.disp.a v } := by
  simp only [performWrite, h, hc]

theorem performWrite_io {s : State} {lo : Byte} {hd : Nat} (v : Byte) (h : s.disp.schedWrite = some (.ioT lo))
    (hh : sparseGet lo.toNat s.tabs.wrTab = some hd) :
    performWrite v s = applyCmds (writeH s hd v).cmds { s with dev := (writeH s hd v).dev } := by
  simp only [performWrite, h, hh, callWriteHandler]

/-- With one driver the dispatcher captures its byte, performs the write with it, and clears the schedule (R67). -/
theorem onP1R_edgeCompleted {s : State} {d : Drive} {v : Byte} (hv : OneDriver s d v) {t : State}
    (hl : t.lines = s.lines) : EdgeCompleted v (performWrite v t) (markEvent .p1r (onP1R (others s d) t)) := by
  unfold onP1R
  rw [busValue_oneDriver hv t hl]
  exact ⟨fun ha => congrArg _ (if_pos ha), fun ha => congrArg _ (if_neg (ne_true_of_eq_false ha))⟩

/-- With one driver the peers' capture draws nothing, so the edge is their part and then the dispatcher's. -/
theorem evP1R_edgeCompleted {s u : State} {d : Drive} {v : Byte} (h : Coherent s) (he : dispatcherEnabled s = true)
    (hv : OneDriver s d v) (hu : performWrite v { s with peers := (evP1R d s).peers } = u) :
    EdgeCompleted v u (evP1R d s) := by
  obtain ⟨hack, hactive, -⟩ := h.serving he
  have hpeers : { s with peers := (evP1R d s).peers } = peersP1R (others s d) s := by
    rw [evP1R_peers, ← peersP1R_oneDriver hv]
  rw [← hu, hpeers, evP1R_serving d he hack hactive]
  exact onP1R_edgeCompleted hv (peersP1R_lines _ _)

/-- Settles O36: the edge after the scheduled write, whose target decides what was written. -/
theorem scheduledWriteIsPerformedOnce : Obligations.ScheduledWriteIsPerformedOnce := by
  intro s d v h he hv
  obtain ⟨hack, hactive, -⟩ := h.serving he
  have e := evP1R_serving d he hack hactive
  refine ⟨?_, ?_, ?_, fun k => ?_, fun hs => ?_, fun i c hs hc => ?_, fun lo hd hs hh => ?_⟩
  · rw [e, markEvent_disp, onP1R_disp, peersP1R_disp]
  · rw [e, markEvent_lines, onP1R_lines, peersP1R_lines]
  · rw [e, markEvent_dma, onP1R_dma, peersP1R_dma]
  · rw [e, markEvent_buf, onP1R_buf, peersP1R_buf]
  · exact evP1R_edgeCompleted h he hv (performWrite_none v hs)
  · exact evP1R_edgeCompleted h he hv (performWrite_claim v hs hc)
  · exact evP1R_edgeCompleted h he hv (performWrite_io v hs hh)

end Sys2Proof.Machine
end

section
/-! The address register over whole cycles: what one falling edge schedules the next carries out (R66, R69, R83). -/

namespace Sys2Proof.Machine
open Sys2Proof

/-- The registers of the address law: `A`, `PLB`, and what is due at the next falling edge. -/
def addressFields (s : State) : Bits16 × Byte × Bool × Bool :=
  (s.disp.a, s.disp.plb, s.disp.schedLoad, s.disp.schedInc)

/-- A rising edge moves none of them, whoever it belongs to (R67, R69). -/
theorem evP1R_addressFields (d : Drive) (s : State) : addressFields (evP1R d s) = addressFields s := by
  apply evP1R_induct (P := fun u => addressFields u = addressFields s) d rfl
  · intro e u hu
    rwa [addressFields, peersP1R_disp]
  · intro u hu
    rw [← hu]
    unfold handoffStep
    split <;> rfl
  · intro e u hu
    rwa [addressFields, onP1R_disp]
  · intro e u hu
    rwa [addressFields, (engP1R_step e u).frame.disp]
  · exact fun _ hu => hu

/-- The dispatcher runs on over a rising edge: no command of a write handler disarms it (R67, R133). -/
theorem evP1R_enabled {s : State} (d : Drive) (h : Coherent s) (he : dispatcherEnabled s = true) :
    dispatcherEnabled (evP1R d s) = true := by
  obtain ⟨hack, hactive, -, harmed, hsysint⟩ := h.serving he
  rw [evP1R_serving d he hack hactive]
  have hrun : (onP1R (others s d) (peersP1R (others s d) s)).en.armed = true ∧
      (onP1R (others s d) (peersP1R (others s d) s)).en.sysint = true := by
    apply onP1R_induct (P := fun u => u.en.armed = true ∧ u.en.sysint = true)
    · intro n x
      simpa using ⟨harmed, hsysint⟩
    · exact fun _ _ hu => hu
    · exact fun u c hu => applyCmd_enabled u c hu
    · exact fun _ hu => hu
    · intro u b hu
      rwa [tracePush_en]
  simp [dispatcherEnabled, hrun]

/-- It runs on over a falling edge whose class acknowledges no request of this device (R70, R81). -/
theorem evP1F_enabled {s : State} {p : Bits3} (d : Drive) (pri : Bool) (h : Coherent s)
    (he : dispatcherEnabled s = true) (hp : (classify s.par.intack p).1 ≠ .dmaAck) :
    dispatcherEnabled (evP1F d p pri s) = true := by
  obtain ⟨u, hu, e⟩ := exists_evP1F_eq d p pri h he
  obtain ⟨-, -, -, harmed, hsysint⟩ := h.serving he
  have hrun : (beforeArbiter p u).en.armed = true ∧ (beforeArbiter p u).en.sysint = true := by
    have hclass : (setClassification p u).en.armed = true ∧ (setClassification p u).en.sysint = true := by
      simpa [hu.en] using ⟨harmed, hsysint⟩
    exact iteInduction (motive := fun w : State => w.en.armed = true ∧ w.en.sysint = true)
      (fun _ => respondRead_induct _ hclass (fun _ _ hw => hw) applyCmd_enabled fun _ _ hw => hw) fun _ => hclass
  rw [e, onSP2_unacknowledged p pri u (by rw [hu.par]; exact fun k => absurd k hp), driveHalt_state, afterArbiter_eq]
  simp [dispatcherEnabled, hrun]

/-- What a cycle of pattern `p` leaves for the next falling edge: `m` is the state after its own falling edge, `n` that
after the rising edge which follows. -/
structure CyclePending (s m n : State) (d : Drive) (p : Bits3) : Prop where
  coherent : Coherent n
  enabled : (classify s.par.intack p).1 ≠ .dmaAck → dispatcherEnabled n = true
  par : n.par = s.par
  address : n.disp.a = m.disp.a
  low_byte : ∀ w, OneDriver s d w → n.disp.plb = w
  load : n.disp.schedLoad = (classify s.par.intack p).2
  inc : n.disp.schedInc = true ↔
    ((classify s.par.intack p).1 = .read ∨ (classify s.par.intack p).1 = .write) ∧
      (classify s.par.intack p).2 = false ∧ highByte m.disp.a ≠ s.par.ioPage

theorem cyclePending {s : State} (d e : Drive) (p : Bits3) (pri : Bool) (h : Coherent s)
    (he : dispatcherEnabled s = true) :
    CyclePending s (evP1F d p pri s) (evP1R e (evP1F d p pri s)) d p := by
  have hdone := cycleDone d p pri h he
  have hm := evP1F_coherent d p pri h
  have hfields := evP1R_addressFields e (evP1F d p pri s)
  simp only [addressFields, Prod.mk.injEq] at hfields
  obtain ⟨ha, hplb, hload, hinc⟩ := hfields
  exact {
    coherent := evP1R_coherent e hm
    enabled := fun hack => evP1R_enabled e hm (evP1F_enabled d pri h he hack)
    par := by simp
    address := ha
    low_byte := fun w hw => hplb.trans (hdone.low_byte.trans (hdone.captured w hw))
    load := hload.trans hdone.load_scheduled
    inc := by rw [hinc]; exact hdone.inc_scheduled }

/-- A pattern with an address load is no DMA acknowledge (R52). -/
theorem classify_load_unacknowledged (k : IntAckPattern) :
    ∀ p, (classify k p).2 = true → (classify k p).1 ≠ .dmaAck := by
  cases k <;> decide

/-- With nothing due, a falling edge leaves the address register, whoever it belongs to. -/
theorem evP1F_address_stays {s : State} (d : Drive) (p : Bits3) (pri : Bool) (h : Coherent s)
    (hload : s.disp.schedLoad = false) (hinc : s.disp.schedInc = false) : (evP1F d p pri s).disp.a = s.disp.a := by
  rcases evP1F_cases h d p pri with ⟨he, -⟩ | ⟨-, e⟩ | e
  · rw [(cycleDone d p pri h he).address, hload, hinc]
    rfl
  · rw [e, markEvent_disp, (engP1F_step _).frame.disp, peersP1F_disp]
  · rw [e, markEvent_disp, peersP1F_disp]

/-- (a) of R83: the second of two address loads keeps the first one's byte as the low one. -/
theorem address_after_two_loads {s : State} {p1 p2 : Bits3} {dl dh : Drive} {l h : Byte} (d0 e1 e2 : Drive) (q : Bits3)
    (b0 b1 b2 : Bool) (hs : Coherent s) (he : dispatcherEnabled s = true) (hp1 : (classify s.par.intack p1).2 = true)
    (hp2 : (classify s.par.intack p2).2 = true) (hl : OneDriver (evP1R e1 (evP1F d0 p1 b0 s)) dl l)
    (hh : OneDriver (evP1R e2 (evP1F dl p2 b1 (evP1R e1 (evP1F d0 p1 b0 s)))) dh h) :
    (evP1F dh q b2 (evP1R e2 (evP1F dl p2 b1 (evP1R e1 (evP1F d0 p1 b0 s))))).disp.a = assemble h l := by
  have h1 := cyclePending d0 e1 p1 b0 hs he
  have h2 := cyclePending dl e2 p2 b1 h1.coherent (h1.enabled (classify_load_unacknowledged _ _ hp1))
  rw [← h1.par] at hp2
  have hdone := cycleDone dh q b2 h2.coherent (h2.enabled (classify_load_unacknowledged _ _ hp2))
  rw [hdone.address, h2.load, hp2, if_pos rfl, hdone.captured h hh, h2.low_byte l hl]

/-- (b) of R83: outside I/O space, a Read or Write without an address load has the address advanced by the next falling
edge. -/
theorem address_advances {s : State} {p : Bits3} (d e f : Drive) (q : Bits3) (pri qri : Bool) (h : Coherent s)
    (he : dispatcherEnabled s = true)
    (hp : (classify s.par.intack p).1 = .read ∨ (classify s.par.intack p).1 = .write)
    (hal : (classify s.par.intack p).2 = false) :
    (evP1F f q qri (evP1R e (evP1F d p pri s))).disp.a =
      if highByte (evP1F d p pri s).disp.a = s.par.ioPage then (evP1F d p pri s).disp.a
      else incr16 (evP1F d p pri s).disp.a := by
  have hn := cyclePending d e p pri h he
  have hack : (classify s.par.intack p).1 ≠ .dmaAck := by
    rcases hp with hp | hp <;> rw [hp] <;> nofun
  have hdue := hn.inc.trans ((and_iff_right hp).trans (and_iff_right hal))
  rw [(cycleDone f q qri hn.coherent (hn.enabled hack)).address, hn.load, hal, if_neg Bool.false_ne_true, hn.address]
  by_cases hio : highByte (evP1F d p pri s).disp.a = s.par.ioPage
  · rw [if_pos hio, if_neg fun k => hdue.mp k hio]
  · rw [if_neg hio, if_pos (hdue.mpr hio)]
    rfl

/-- (c) of R83: after a class that transfers nothing the address is what it was, even where a DMA acknowledge hands the
next edges to the engine. -/
theorem address_stays {s : State} {p : Bits3} (d e f : Drive) (q : Bits3) (pri qri : Bool) (h : Coherent s)
    (he : dispatcherEnabled s = true)
    (hp : ¬ ((classify s.par.intack p).1 = .read ∨ (classify s.par.intack p).1 = .write))
    (hal : (classify s.par.intack p).2 = false) :
    (evP1F f q qri (evP1R e (evP1F d p pri s))).disp.a = (evP1F d p pri s).disp.a := by
  have hn := cyclePending d e p pri h he
  have hstay := Bool.eq_false_iff.mpr fun k => hp (hn.inc.mp k).1
  exact (evP1F_address_stays f q qri hn.coherent (hn.load.trans hal) hstay).trans hn.address

/-- Settles O37: the three clauses of R83. -/
theorem addressRegisterLaw : Obligations.AddressRegisterLaw := by
  refine ⟨?_, fun s d e f p q pri qri h he => ⟨fun hp => ?_, fun hp => ?_⟩⟩
  · intro s d0 dl dh e1 e2 p1 p2 q b0 b1 b2 l h hs he hp1 hp2 hl hh
    rw [address_after_two_loads d0 e1 e2 q b0 b1 b2 hs he hp1 hp2 hl hh, assemble_toNat]
  · rw [address_advances d e f q pri qri h he (by rcases hp with hp | hp <;> simp [hp])
      (by rcases hp with hp | hp <;> rw [hp])]
    split
    · rfl
    · exact incr16_toNat _
  · exact address_stays d e f q pri qri h he (by rcases hp with hp | hp | hp <;> simp [hp])
      (by rcases hp with hp | hp | hp <;> rw [hp])

end Sys2Proof.Machine
end

section
/-! The two ends of a transfer: the handoff that makes this device bus master, and the release after the last byte (R68,
R115, R116, R123, R125). -/

namespace Sys2Proof.Machine
open Sys2Proof

/-! The handoff. -/

theorem handoffStep_pending {s : State} (h : handoffPending s = true) :
    handoffStep s = { s with
      lines := { s.lines with ctrlMode := .device, ctrlOut := 0b000 }, dma := { s.dma with active := true } } :=
  if_pos h

/-- The first step as bus master masks the interrupts and begins the address phase (R115, R116). -/
theorem engP1R_waitAck {s : State} (e : Option Byte) (h : s.dma.state = .dWaitAck) :
    engP1R e s = { s with
      en := { s.en with sysint := false }, lines := { s.lines with ctrlOut := 0b100 },
      dma := { s.dma with state := .dAddrLo } } := by
  simp only [engP1R, h]

/-- Settles O42: the handoff and the engine's first step, in one event. -/
theorem handoffTakesTheBus : Obligations.HandoffTakesTheBus := by
  intro s d hack hactive hstate hdisarmed t
  have hpending : handoffPending (peersP1R (others s d) s) = true := by simp [handoffPending, hack, hactive]
  have e : t = _ := evP1R_handoff d hdisarmed hack hactive
  rw [handoffStep_pending hpending, engP1R_waitAck _ (by simpa using hstate)] at e
  rw [e]
  simp

/-! The release. -/

/-- The results of the commands that return how much they moved (R125). -/
theorem dmaResult_count {s : State} :
    (∀ a b n, s.fg.wait = some ⟨.dmaReadBlock a b n, rfl⟩ → dmaResult s = .count s.dma.count) ∧
    (∀ a b n, s.fg.wait = some ⟨.dmaWriteBlock a b n, rfl⟩ → dmaResult s = .count s.dma.count) ∧
    (∀ a v, s.fg.wait = some ⟨.dmaWriteByte a v, rfl⟩ → dmaResult s = .count 1) ∧
    (∀ a v, s.fg.wait = some ⟨.dmaWriteWord a v, rfl⟩ → dmaResult s = .count 2) := by
  refine ⟨fun a b n h => ?_, fun a b n h => ?_, fun a v h => ?_, fun a v h => dmaResult_writeWord h⟩ <;>
    simp only [dmaResult, h]

/-- The last data edge transfers its byte and releases the bus, where RESUME_POINT is at its default (R120, R123). -/
theorem evP1R_lastByte {s : State} (d : Drive) (hactive : s.dma.active = true) (hdisarmed : s.en.armed = false)
    (hstate : s.dma.state = .dXfer) (hpending : s.dma.xferPending = true) (hlast : s.dma.k + 1 = s.dma.count)
    (hresume : s.par.resume = .sameCycleP1F) :
    ∃ u, evP1R d s = markEvent .p1r (dmaReleaseAtEdge u) ∧ u.par = s.par ∧
      u.lines = { s.lines with ctrlOut := 0b000 } ∧ u.en = s.en ∧ u.fg = s.fg ∧ u.disp = s.disp ∧
      u.dma.count = s.dma.count := by
  obtain ⟨n, x, b, w0, w1, hbyte⟩ := dmaDataEdge_state (others s d) (peersP1R (others s d) s)
  have e := evP1R_dataEdge d hactive hdisarmed hstate hpending
  rw [hbyte, dmaNextCycle_release (by simpa using hlast) (by simpa using hresume)] at e
  exact ⟨_, e, by simp⟩

/-- A class that is neither a Read nor an interrupt acknowledge leaves the data bus as the falling edge left it. -/
theorem onSP2_drvD {s : State} {p : Bits3} (pri : Bool) (hread : (classify s.par.intack p).1 ≠ .read)
    (hint : (classify s.par.intack p).1 ≠ .interruptAck) : (onSP2 p pri s).lines.drvD = s.lines.drvD := by
  rw [onSP2_eq, scheduleNext_lines, acknowledgeDma_lines, driveHalt_state, beforeArbiter_unread hread,
    arbStep_outside hint]
  split <;> rfl

/-- A falling edge of a running dispatcher captures what one driver drives, and after a class with no answer this device
drives nothing (R69). -/
theorem evP1F_capture {s : State} (d : Drive) (p : Bits3) (pri : Bool) (he : dispatcherEnabled s = true)
    (hactive : s.dma.active = false) :
    (∀ w, OneDriver s d w → (evP1F d p pri s).disp.plb = w) ∧
      ((classify s.par.intack p).1 ≠ .read → (classify s.par.intack p).1 ≠ .interruptAck →
        (evP1F d p pri s).lines.drvD = none) := by
  rw [evP1F_serving d p pri he hactive]
  constructor
  · intro w hw
    rw [markEvent_disp, (onSP2_disp p pri _).2.1, onP1F_disp, busValue_oneDriver hw _ (peersP1F_lines _ _ _)]
  · intro hread hint
    rw [markEvent_lines, onSP2_drvD pri (by simpa using hread) (by simpa using hint), onP1F_lines]

/-- Settles O47: the release as the last edge leaves it, and the falling edge of the dispatcher it enables. -/
theorem lastByteReleasesTheBus : Obligations.LastByteReleasesTheBus := by
  intro s d hactive hdisarmed hstate hpending hlast hresume t
  obtain ⟨u, (e : t = _), hpar, hlines, hen, hfg, hdisp, hcount⟩ :=
    evP1R_lastByte d hactive hdisarmed hstate hpending hlast hresume
  have hcapture := fun f p pri => evP1F_capture (s := t) f p pri (by rw [e]; rfl) (by rw [e]; rfl)
  rw [evP1R_par] at hcapture
  have hresults := dmaResult_count (s := u)
  rw [hfg, hcount] at hresults
  obtain ⟨hreadBlock, hwriteBlock, hwriteByte, hwriteWord⟩ := hresults
  have hlines' : t.lines = { s.lines with halt := false, ctrlMode := .host, ctrlOut := 0b000 } := by
    simp [e, dmaReleaseAtEdge, dmaRelease, hlines]
  have hen' : t.en = { s.en with armed := true, sysint := true, lastEvent := some .p1r } := by
    simp [e, dmaRelease, hen]
  have hcleared : t.dma = (dmaRelease u).dma := by rw [e]; rfl
  have hresumed : t.fg = (dmaRelease u).fg := by rw [e]; rfl
  rw [hcleared, hresumed]
  exact ⟨hlines', hcapture, rfl, rfl, rfl, rfl, rfl, rfl, rfl, rfl, hen', rfl, by simp [e, hdisp],
    fun a b n h => congrArg some (hreadBlock a b n h), fun a b n h => congrArg some (hwriteBlock a b n h),
    fun a v h => congrArg some (hwriteByte a v h), fun a v h => congrArg some (hwriteWord a v h)⟩

end Sys2Proof.Machine
end

section
/-! The registration commands before and after the first ARM, from the foreground and from a handler (R89 to R94,
R139). -/

namespace Sys2Proof.Machine
open Sys2Proof

theorem registerStep_early {s : State} (g : Tables → Tables) (h : s.en.armedOnce = false) :
    registerStep g s = setResult .done { s with tabs := g s.tabs } := by
  simp [registerStep, h]

theorem registerStep_late {s : State} (g : Tables → Tables) (h : s.en.armedOnce = true) :
    registerStep g s = refuse .lateRegistration s := if_pos h

/-- The index is checked first; in range, a late CLAIM_SET is refused as the other registrations are (R93, R94). -/
theorem claimSet_late {s : State} {i : Nat} (c : Option Nat) (hi : i < s.par.maxClaims) (ho : s.en.armedOnce = true) :
    claimSet i c s = refuse .lateRegistration s :=
  (if_neg (Nat.not_le.mpr hi)).trans (registerStep_late _ ho)

/-- Settles O15: each command is a `registerStep`, and writes its tables through `sparseSet` or `sparseErase`. -/
theorem handlersAreRegisteredAndRemoved : Obligations.HandlersAreRegisteredAndRemoved := by
  intro s lo h ho
  have done (g : Tables → Tables) :
      (.next (registerStep g s) : Host.Outcome State Fault Refusal) = .next (setResult .done { s with tabs := g s.tabs }) :=
    congrArg _ (registerStep_early g ho)
  exact ⟨⟨_, done _, sparseGet_set_same _ _ _, fun j hj => sparseGet_set_other hj _ _, rfl⟩,
    ⟨_, done _, sparseGet_set_same _ _ _, fun j hj => sparseGet_set_other hj _ _, rfl⟩,
    ⟨_, done _, sparseGet_erase_same _ _, sparseGet_erase_same _ _,
      fun j hj => ⟨sparseGet_erase_other hj _, sparseGet_erase_other hj _⟩, rfl⟩⟩

/-- A handler's command that does not block is performed as the foreground's (R89). -/
theorem exec_nonblocking (c : Cmd) (s : State) (h : c.1.isBlocking = false) : exec c.1 s = .next (applyCmd s c) := by
  obtain ⟨i, hi⟩ := c
  cases i with
  | idle | addrLoad | read | readAl | write | writeAl | dmaAck | intAck => exact absurd hi nofun
  | dmaReadBlock | dmaWriteBlock | dmaReadByte | dmaWriteByte | dmaReadWord | dmaWriteWord => exact absurd h nofun
  | regRead | regWrite | unregister | claimSet | arm | traceStart | traceStop | intSetVector | intEnable | intRequest
  | intWant | reserved => rfl

/-- A handler's command that blocks is refused (R139). -/
theorem applyCmd_blocking (c : Cmd) (s : State) (h : c.1.isBlocking = true) :
    applyCmd s c = refuse .blockingFromHandler s := by
  obtain ⟨i, hi⟩ := c
  cases i with
  | idle | addrLoad | read | readAl | write | writeAl | dmaAck | intAck => exact absurd hi nofun
  | dmaReadBlock | dmaWriteBlock | dmaReadByte | dmaWriteByte | dmaReadWord | dmaWriteWord => rfl
  | regRead | regWrite | unregister | claimSet | arm | traceStart | traceStop | intSetVector | intEnable | intRequest
  | intWant | reserved => exact absurd h nofun

/-- Settles O21, by whether the command blocks. -/
theorem handlerCommandsAreAppliedInOrder : Obligations.HandlerCommandsAreAppliedInOrder := fun s c _ =>
  ⟨rfl, rfl, exec_nonblocking c s, fun hb hr => (applyCmd_blocking c s hb).trans (refuse_eq _ hr)⟩

/-- Settles O17: no registration blocks, so a handler's is the foreground's; each is a late `registerStep`. -/
theorem lateRegistrationIsRefused : Obligations.LateRegistrationIsRefused := by
  intro s ⟨i, hi⟩ lo h n c ho hr hn hreg
  rw [← refuse_eq _ hr]
  have hb : i.isBlocking = false := by rcases hreg with rfl | rfl | rfl | rfl <;> rfl
  have hlate : applyCmd s ⟨i, hi⟩ = refuse .lateRegistration s := by
    rcases hreg with rfl | rfl | rfl | rfl
    · exact (registerStep_late _ ho : regRead lo h s = _)
    · exact (registerStep_late _ ho : regWrite lo h s = _)
    · exact (registerStep_late _ ho : unregister lo s = _)
    · exact claimSet_late c hn ho
  exact ⟨(exec_nonblocking ⟨i, hi⟩ s hb).trans (congrArg _ hlate), hlate⟩

end Sys2Proof.Machine
end

section
/-! The claim search over a list in canonical form (R95), and the searches where a slot is empty (R92, R96). -/

namespace Sys2Proof.Machine
open Sys2Proof

/-- In canonical form a table lists at a key exactly what its entry holds. -/
theorem sparseGet_eq_some_iff_mem {α : Type} {k : Nat} {v : α} {m : Sparse α} (h : Sparse.rising m) :
    sparseGet k m = some v ↔ (k, v) ∈ m := by
  induction m with
  | nil => simp [sparseGet]
  | cons d r ih =>
    obtain ⟨j, w⟩ := d
    obtain ⟨hhead, hrest⟩ := (rising_cons _ r).mp h
    by_cases hk : j = k
    · subst hk
      have hnot : (j, v) ∉ r := fun hv => (hhead _ hv).false
      simp [sparseGet, hnot, eq_comm]
    · simp [sparseGet, hk, Ne.symm hk, ih hrest]

/-- No claim of a slot lower than the one found covers the address. -/
theorem firstClaim_lowest {s : State} {a : Bits16} {m : Sparse Nat} {i c : Nat} (h : Sparse.rising m)
    (hfound : firstClaim s a m = some (i, c)) : ∀ d ∈ m, d.1 < i → claimP s d.2 a = false := by
  induction m with
  | nil => simp
  | cons e r ih =>
    obtain ⟨j, w⟩ := e
    obtain ⟨hhead, hrest⟩ := (rising_cons _ r).mp h
    by_cases hp : claimP s w a = true
    · obtain ⟨rfl, -⟩ : j = i ∧ w = c := by simpa [firstClaim, hp] using hfound
      have hmin : ∀ d ∈ (j, w) :: r, j ≤ d.1 := List.forall_mem_cons.mpr ⟨le_rfl, fun d hd => (hhead d hd).le⟩
      exact fun d hd hlt => absurd hlt (Nat.not_lt.mpr (hmin d hd))
    · have hfound' : firstClaim s a r = some (i, c) := by simpa [firstClaim, hp] using hfound
      exact List.forall_mem_cons.mpr ⟨fun _ => Bool.eq_false_iff.mpr hp, ih hrest hfound'⟩

/-- Settles O18: of the slot found and a lowest covering slot neither can be below the other. -/
theorem lowestCoveringClaimServes : Obligations.LowestCoveringClaimServes := by
  intro s a i c hrising
  constructor
  · intro h
    obtain ⟨hmem, hcovers⟩ := firstClaim_some h
    exact ⟨(sparseGet_eq_some_iff_mem hrising).mpr hmem, hcovers,
      fun j d hj hd => firstClaim_lowest hrising h _ ((sparseGet_eq_some_iff_mem hrising).mp hd) hj⟩
  · rintro ⟨hi, hcovers, hlow⟩
    have hmem := (sparseGet_eq_some_iff_mem hrising).mp hi
    cases h : firstClaim s a s.tabs.claims with
    | none => simp [firstClaim_none.mp h _ hmem] at hcovers
    | some x =>
      obtain ⟨j, d⟩ := x
      obtain ⟨hmem', hcovers'⟩ := firstClaim_some h
      have hj := (sparseGet_eq_some_iff_mem hrising).mpr hmem'
      rcases lt_trichotomy i j with hlt | rfl | hlt
      · simp [firstClaim_lowest hrising h _ hmem hlt] at hcovers
      · rw [Option.some.inj (hi.symm.trans hj)]
      · simp [hlow j d hlt hj] at hcovers'

/-- With equal parameters, claims and `dev`, two states in which the address's slot is empty in both directions resolve it
alike, and the read search calls no handler. -/
theorem resolve_emptySlot {s t : State} {a : Bits16} (hpar : s.par = t.par) (hclaims : s.tabs.claims = t.tabs.claims)
    (hdev : s.dev = t.dev) (hrs : sparseGet (lowByte a).toNat s.tabs.rdTab = none)
    (hws : sparseGet (lowByte a).toNat s.tabs.wrTab = none) (hrt : sparseGet (lowByte a).toNat t.tabs.rdTab = none)
    (hwt : sparseGet (lowByte a).toNat t.tabs.wrTab = none) :
    (resolveRead a s).1 = (resolveRead a t).1 ∧ (resolveRead a s).2 = s ∧ resolveWrite s a = resolveWrite t a := by
  have hsearch : firstClaim s a s.tabs.claims = firstClaim t a t.tabs.claims := by
    rw [hclaims, firstClaim_congr hpar hdev]
  cases ht : firstClaim t a t.tabs.claims with
  | none =>
    have hs := hsearch.trans ht
    rw [resolveRead_unclaimed hs fun _ => hrs, resolveRead_unclaimed ht fun _ => hrt, resolveWrite_unclaimed hs,
      resolveWrite_unclaimed ht, hws, hwt, hpar]
    exact ⟨rfl, rfl, rfl⟩
  | some x =>
    obtain ⟨i, c⟩ := x
    have hs := hsearch.trans ht
    have hvalue : claimR s c a = claimR t c a := by unfold claimR; rw [hpar, hdev]
    rw [resolveRead_claimed hs, resolveRead_claimed ht, resolveWrite_claimed hs, resolveWrite_claimed ht, hvalue]
    exact ⟨rfl, rfl, rfl⟩

/-- Settles O19: UNREGISTER leaves both slots of its low byte empty, and the parameters, claims and `dev` as they were. -/
theorem unregisterReverts : Obligations.UnregisterReverts := by
  rintro s t s0 lo a ho hexec hpar hclaims hdev hread hwrite rfl
  obtain rfl : setResult .done _ = t := Host.Outcome.next.inj ((congrArg _ (registerStep_early _ ho)).symm.trans hexec)
  exact resolve_emptySlot hpar.symm hclaims.symm hdev.symm (sparseGet_erase_same _ _) (sparseGet_erase_same _ _)
    hread hwrite

end Sys2Proof.Machine
end

section
/-! Interrupt arbitration: the step from each of the arbiter's two states, two devices on one chain, and the commands
(R99 to R108). -/

namespace Sys2Proof.Machine
open Sys2Proof

/-- An Idle arbiter that is not outranked at an acknowledge requests exactly when it may, whatever the class (R100). -/
theorem arbStep_idle_requests {s : State} {cyc : BusState} {pri : Bool} (h : s.int.arb = .idle)
    (hrank : ¬ (cyc = .interruptAck ∧ pri = true)) :
    arbStep cyc pri s = if interruptReady s = true then assertRequest s else s := by
  by_cases hc : cyc = .interruptAck
  · obtain rfl : pri = false := Bool.eq_false_iff.mpr fun hp => hrank ⟨hc, hp⟩
    rw [hc, arbStep_ack_idle h, arbStep_outside (cyc := .idle) nofun]
    simp [h]
  · rw [arbStep_outside hc]
    simp [h]

/-- A pending arbiter waits through every class but an acknowledge (R103). -/
theorem arbStep_pending_waits {s : State} {cyc : BusState} (pri : Bool) (h : s.int.arb = .requestPending)
    (hc : cyc ≠ .interruptAck) : arbStep cyc pri s = s := by
  rw [arbStep_outside hc, if_neg (by simp [h])]

/-- Settles O26, by whether the arbiter is outranked at an acknowledge. -/
theorem idleArbiterLosesItsEnableOrRequests : Obligations.IdleArbiterLosesItsEnableOrRequests := by
  refine fun s cyc pri h => ⟨?_, fun hrank => ?_⟩
  · rintro ⟨rfl, rfl⟩
    exact arbStep_ack_outranked h
  · rw [arbStep_idle_requests h hrank]
    simp only [interruptReady_iff, assertRequest]

/-- Settles O27: served (R101), out-prioritized (R102), or waiting (R103). -/
theorem pendingArbiterIsServedLosesOrWaits : Obligations.PendingArbiterIsServedLosesOrWaits := fun _ h =>
  ⟨arbStep_ack_served h, arbStep_ack_lost h, fun _ pri hc => arbStep_pending_waits pri h hc⟩

/-- An outranked device drives nothing at an acknowledge and keeps its request flag; it loses its enable or round. -/
theorem arbStep_ack_outranked_keeps (s : State) :
    let t := arbStep .interruptAck true s
    t.lines.drvD = s.lines.drvD ∧ t.lines.rdy = s.lines.rdy ∧ t.int.pending = s.int.pending ∧
      (t.int.enable = false ∨ (s.int.arb = .requestPending ∧ t.int.arb = .idle)) := by
  cases h : s.int.arb with
  | idle =>
    rw [arbStep_ack_outranked h]
    exact ⟨rfl, rfl, rfl, .inl rfl⟩
  | requestPending =>
    rw [arbStep_ack_lost h]
    exact ⟨rfl, rfl, rfl, .inr ⟨rfl, rfl⟩⟩

/-- A pending device that has the priority answers an acknowledge with its vector, and its request is serviced. -/
theorem arbStep_ack_answers {s : State} (h : s.int.arb = .requestPending) :
    Answers (arbStep .interruptAck false s) s.int.vector ∧ (arbStep .interruptAck false s).int.pending = false := by
  rw [arbStep_ack_served h]
  exact ⟨⟨rfl, rfl⟩, rfl⟩

/-- An Idle device that has the priority drives nothing at an acknowledge: a request made there waits for the next one
(R100). -/
theorem arbStep_ack_idle_drvD {s : State} (h : s.int.arb = .idle) :
    (arbStep .interruptAck false s).lines.drvD = s.lines.drvD := by
  rw [arbStep_idle_requests h (by simp)]
  split <;> rfl

/-- Settles O28: `x`'s priority line outranks `y` exactly while `x` requests. -/
theorem higherPriorityIsServedFirst : Obligations.HigherPriorityIsServedFirst := by
  refine fun x y hline => ⟨fun hx => ?_, fun hx hy => ?_⟩
  · rw [hline.mpr hx]
    obtain ⟨hanswer, hserviced⟩ := arbStep_ack_answers hx
    exact ⟨hanswer, hserviced, arbStep_ack_outranked_keeps y⟩
  · have hpri : x.lines.priOut = false := Bool.eq_false_iff.mpr fun hp => nomatch hx.symm.trans (hline.mp hp)
    rw [hpri]
    obtain ⟨hanswer, hserviced⟩ := arbStep_ack_answers hy
    exact ⟨hanswer, hserviced, arbStep_ack_idle_drvD hx⟩

/-- Settles O25: each command is one update of the arbiter and the result (R104 to R107). -/
theorem interruptCommandsWriteOneField : Obligations.InterruptCommandsWriteOneField :=
  fun _ _ _ => ⟨rfl, rfl, rfl, rfl⟩

end Sys2Proof.Machine
end

section
/-! The patterns this device puts out as bus master: address load, strobe and idle (R116, R119, R122, R124). -/

namespace Sys2Proof.Machine
open Sys2Proof

/-- The patterns the engine puts out (R124): an address load, a read or a write strobe, and idle. -/
abbrev enginePatterns : List Bits3 := [0b100, 0b010, 0b001, 0b000]

/-- While this device drives the control lines, its pattern is one of the engine's. -/
def DrivesEnginePattern (s : State) : Prop := s.lines.ctrlMode = .device → s.lines.ctrlOut ∈ enginePatterns

/-- The drivers of the control lines, which is all that `DrivesEnginePattern` speaks of. -/
def controlFields (s : State) : CtrlMode × Bits3 := (s.lines.ctrlMode, s.lines.ctrlOut)

theorem DrivesEnginePattern.of_controlFields {s t : State} (h : DrivesEnginePattern s)
    (e : controlFields t = controlFields s) : DrivesEnginePattern t := by
  simp only [controlFields, Prod.mk.injEq] at e
  obtain ⟨hmode, hout⟩ := e
  unfold DrivesEnginePattern
  rwa [hmode, hout]

/-! What the dispatcher and the foreground leave of the control lines. -/

theorem applyCmd_controlFields (s : State) (c : Cmd) : controlFields (applyCmd s c) = controlFields s :=
  applyCmd_keeps controlFields s c (fun _ _ => rfl) (fun _ _ => rfl) (fun _ _ => rfl) (fun _ => rfl)
    (fun _ _ _ => rfl) fun _ _ => rfl

theorem exec_command_controlFields {s t : State} {c : Cmd} (e : exec c.1 s = .next t) :
    controlFields t = controlFields s :=
  exec_command_keeps controlFields (fun _ _ => rfl) (fun _ _ => rfl) (fun _ _ _ => rfl) (fun _ _ => rfl)
    (applyCmd_controlFields s c) e

theorem onSP2_controlFields (p : Bits3) (pri : Bool) (s : State) : controlFields (onSP2 p pri s) = controlFields s := by
  obtain ⟨-, hmode, hout⟩ := onSP2_lines p pri s
  simp only [controlFields, hmode, hout]

/-! What the engine puts out. -/

theorem idle_mem_enginePatterns : (0b000 : Bits3) ∈ enginePatterns := by decide

theorem dmaIssue_pattern (s : State) : (dmaIssue s).lines.ctrlOut ∈ enginePatterns := by
  show (if s.dma.dir = .rd then 0b010 else 0b001 : Bits3) ∈ enginePatterns
  split <;> decide

/-- `NextCycle` puts out idle at the release and through a yield, and else a strobe (R121 to R123). -/
theorem dmaNextCycle_pattern (s : State) : (dmaNextCycle s).lines.ctrlOut ∈ enginePatterns := by
  rcases dmaNextCycle_cases s with ⟨-, -, e⟩ | ⟨-, -, e⟩ | ⟨-, -, -, -, e⟩ | ⟨-, -, -, -, e⟩ | ⟨-, -, -, e⟩ |
    ⟨-, -, -, e⟩ <;> rw [e]
  · exact idle_mem_enginePatterns
  · exact idle_mem_enginePatterns
  · exact idle_mem_enginePatterns
  · exact dmaIssue_pattern _
  · exact idle_mem_enginePatterns
  · exact dmaIssue_pattern s

/-- At a rising edge the engine puts out a pattern of its own, or has nothing to do (R115 to R122). -/
theorem engP1R_pattern {s : State} (e : Option Byte) (h : DrivesEnginePattern s) : DrivesEnginePattern (engP1R e s) := by
  have hload : (0b100 : Bits3) ∈ enginePatterns := by decide
  unfold engP1R
  cases s.dma.state with
  | dWaitAck | dAddrLo => exact fun _ => hload
  | dAddrHi => exact fun _ => dmaIssue_pattern s
  | dXfer | dYield => exact fun _ => dmaNextCycle_pattern _
  | dIdle | dSettle => exact h

/-- At a falling edge the engine moves the data bus alone, or gives the control lines back (R116 to R119, R123). -/
theorem engP1F_pattern {s : State} (h : DrivesEnginePattern s) : DrivesEnginePattern (engP1F s) := by
  have hend : DrivesEnginePattern (dmaEndDrive s) := h.of_controlFields rfl
  unfold engP1F
  cases s.dma.state with
  | dAddrLo | dAddrHi => exact hend.of_controlFields rfl
  | dXfer =>
    have hdata : DrivesEnginePattern (dmaDriveData (dmaEndDrive s)) :=
      iteInduction (motive := DrivesEnginePattern) (fun _ => hend.of_controlFields rfl) fun _ => hend
    exact iteInduction (motive := DrivesEnginePattern) (fun _ => nofun) fun _ => hdata
  | dYield | dWaitAck | dIdle | dSettle => exact hend

/-- The handoff starts with the idle pattern (R68). -/
theorem handoffStep_pattern {s : State} (h : DrivesEnginePattern s) : DrivesEnginePattern (handoffStep s) :=
  iteInduction (motive := DrivesEnginePattern) (fun _ _ => idle_mem_enginePatterns) fun _ => h

/-! The events. -/

theorem evP1R_pattern {s : State} (d : Drive) (h : DrivesEnginePattern s) : DrivesEnginePattern (evP1R d s) :=
  evP1R_induct d h
    (fun e u hu => hu.of_controlFields (peersP1R_keeps controlFields e u (fun _ _ => rfl) fun _ _ => rfl))
    (fun _ hu => handoffStep_pattern hu)
    (fun e u hu => hu.of_controlFields (by simp only [controlFields, onP1R_lines]))
    (fun e _ hu => engP1R_pattern e hu)
    fun _ hu => hu.of_controlFields rfl

theorem evP1F_pattern {s : State} (d : Drive) (p : Bits3) (pri : Bool) (h : DrivesEnginePattern s) :
    DrivesEnginePattern (evP1F d p pri s) :=
  evP1F_induct d p pri h
    (fun e u hu => hu.of_controlFields (peersP1F_keeps controlFields e p u (fun _ _ => rfl) fun _ _ => rfl))
    (fun e u hu => hu.of_controlFields (by simp only [controlFields, onP1F_lines]))
    (fun u hu => hu.of_controlFields (onSP2_controlFields p pri u))
    (fun _ hu => engP1F_pattern hu)
    fun _ hu => hu.of_controlFields rfl

/-- Settles O59: only the handoff and the engine's steps put a pattern out, and each puts out one of the engine's. -/
theorem masterPatternsAreLoadStrobeOrIdle : Obligations.MasterPatternsAreLoadStrobeOrIdle := fun _ _ _ h hstep =>
  step_induct (P := DrivesEnginePattern) hstep h (fun _ _ _ _ hu => hu.of_controlFields rfl) (fun _ _ => nofun)
    (fun d _ hu => evP1R_pattern d hu) (fun d p pri _ hu => evP1F_pattern d p pri hu)
    (fun _ hu _ => hu.of_controlFields rfl) fun _ _ _ hu _ e => hu.of_controlFields (exec_command_controlFields e)

end Sys2Proof.Machine
end

section
/-! The foreground's turns that issue no command (R113, R125), and the block commands with their arguments in range (R110
to R112). -/

namespace Sys2Proof.Machine
open Sys2Proof

/-! The foreground. -/

/-- While a command settles, the foreground's move is its request (R113). -/
theorem foregroundMove_settling {s : State} (h : s.dma.state = .dSettle) : foregroundMove s = .request := if_pos h

/-- A blocked foreground makes no move (R125). -/
theorem foregroundMove_blocked {s : State} (hs : s.dma.state ≠ .dSettle) (hw : s.fg.wait ≠ none) :
    foregroundMove s = .hold := by
  unfold foregroundMove
  rw [if_neg hs, if_pos (Option.isSome_iff_ne_none.mpr hw)]

/-- Settles O9: the foreground's move while a command settles is the request step. -/
theorem settledCommandRequestsTheBus : Obligations.SettledCommandRequestsTheBus := by
  intro s ts ht hu hs
  have hm : foregroundMove { s with turns := ts } = .request := foregroundMove_settling hs
  rw [step_unmarked ht hu]
  simp only [stepTurn, stepForeground, hm, requestStep]

/-- Settles O8: a blocked foreground holds, and without a turn there is no step to take. -/
theorem holdsChangeNothing : Obligations.HoldsChangeNothing := by
  refine fun s => ⟨fun ts ht hu hs hw => ?_, fun ht => ?_⟩
  · have hm : foregroundMove { s with turns := ts } = .hold := foregroundMove_blocked hs hw
    rw [step_unmarked ht hu]
    simp only [stepTurn, stepForeground, hm]
  · simp only [step, ht]

/-! The block commands. -/

/-- A buffer inside `BUF`, where any byte is asked for, is no overrun (R112). -/
theorem bufOverrun_inside {p : Params} {buf : Option Nat} {n : Nat}
    (h : ∀ b, buf = some b → 0 < n → b + n ≤ p.bufSize) : bufOverrun p (buf.map .buf) n = false := by
  cases buf with
  | none => rfl
  | some b =>
    by_cases hn : 0 < n
    · simp [bufOverrun, h b rfl hn]
    · simp [bufOverrun, hn]

section
variable {misuse : State → State} {dir : DmaDir} {addr : Bits16} {tgt : Option DmaTarget} {n : Nat} {c : Cmd}
  {s : State}

/-- With its arguments in range, a call that has nothing to do or finds the engine busy is a misuse (R112). -/
theorem dmaCommand_misuse (hn : n ≤ s.par.dmaCountMax) (hb : bufOverrun s.par tgt n = false)
    (h : n = 0 ∨ tgt = none ∨ s.dma.state ≠ .dIdle) : dmaCommand misuse dir addr tgt n c s = misuse s := by
  unfold dmaCommand
  rw [if_neg (Nat.not_lt.mpr hn), if_neg (by simp [hb])]
  cases tgt with
  | none => rfl
  | some t => exact if_pos (by simpa using h)

/-- Any other call is accepted (R110). -/
theorem dmaCommand_accepted {t : DmaTarget} (hn : n ≤ s.par.dmaCountMax) (hb : bufOverrun s.par (some t) n = false)
    (h0 : 0 < n) (hi : s.dma.state = .dIdle) :
    dmaCommand misuse dir addr (some t) n c s = dmaAccept dir addr t n c s := by
  unfold dmaCommand
  rw [if_neg (Nat.not_lt.mpr hn), if_neg (by simp [hb])]
  exact if_neg (by simp [Nat.ne_of_gt h0, hi])

end

/-- Settles O38: both block commands are `DmaCommand` with nothing to refuse. -/
theorem blockCommandIsAccepted : Obligations.BlockCommandIsAccepted := by
  intro s addr b n h0 hn hfit hi
  have hb : bufOverrun s.par (some (.buf b)) n = false :=
    bufOverrun_inside (buf := some b) fun _ e _ => Option.some.inj e ▸ hfit
  exact ⟨congrArg Host.Outcome.next (dmaCommand_accepted hn hb h0 hi),
    congrArg Host.Outcome.next (dmaCommand_accepted hn hb h0 hi)⟩

/-- Settles O39: what both block commands do with a misuse is to return 0. -/
theorem dmaMisuseReturnsZero : Obligations.DmaMisuseReturnsZero := by
  intro s addr buf n hn hfit h
  have hb := bufOverrun_inside hfit
  have h' : n = 0 ∨ buf.map DmaTarget.buf = none ∨ s.dma.state ≠ .dIdle := by simpa using h
  exact ⟨congrArg Host.Outcome.next (dmaCommand_misuse hn hb h'),
    congrArg Host.Outcome.next (dmaCommand_misuse hn hb h')⟩

end Sys2Proof.Machine
end

section
/-! A strobed byte of any transfer, and what follows it: the byte at its falling edge, the data edge of a read or a write,
and then the next strobe, a yield, or the release (R119 to R123). -/

namespace Sys2Proof.Machine
open Sys2Proof

/-- This device is bus master and has a strobe out (R119). -/
structure Strobed (s : State) : Prop where
  active : s.dma.active = true
  disarmed : s.en.armed = false
  transferring : s.dma.state = .dXfer
  pending : s.dma.xferPending = true

section
variable {s : State} {d : Drive} {p : Bits3} {pri : Bool} {v : Byte}

/-! The falling edge. -/

/-- Before a read's data edge the device ends its own drive, and the strobe stays out. -/
theorem Strobed.fall_read (h : Strobed s) (hd : s.dma.dir = .rd) (hk : s.dma.k ≠ s.dma.count) :
    (evP1F d p pri s).dma = { s.dma with addrDrive := false } ∧ (evP1F d p pri s).lines.drvD = none ∧
      Strobed (evP1F d p pri s) ∧ (evP1F d p pri s).fg = s.fg := by
  rw [evP1F_master d p pri h.disarmed h.active,
    engP1F_readStrobe (by simpa using h.transferring) (by simpa using hd) (by simpa using hk)]
  refine ⟨by simp [dmaEndDrive], rfl, ?_, by simp [dmaEndDrive]⟩
  constructor <;> simp [dmaEndDrive, h.active, h.disarmed, h.transferring, h.pending]

/-- Before a write's data edge it drives the byte. -/
theorem Strobed.fall_write (h : Strobed s) (hd : s.dma.dir = .wr) (hk : s.dma.k ≠ s.dma.count) :
    (evP1F d p pri s).dma = { s.dma with addrDrive := false } ∧
      (evP1F d p pri s).lines.drvD = some (dmaLoad s s.dma.k) := by
  rw [evP1F_master d p pri h.disarmed h.active,
    engP1F_writeStrobe (by simpa using h.transferring) (by simpa using hd) (by simpa using h.pending)
      (by simpa using hk)]
  simp [dmaLoad]

theorem dmaLoad_buf {b : Nat} (ht : s.dma.tgt = .buf b) (k : Nat) : dmaLoad s k = bufRead s.buf (b + k) := by
  simp only [dmaLoad, ht]

end

/-- Settles O44: a strobe's falling edge by its direction, and `Load` by its target. -/
theorem strobedWriteDrivesItsByte : Obligations.StrobedWriteDrivesItsByte := by
  intro s d p pri hactive hdisarmed hstate hpending hk t
  have hs : Strobed s := ⟨hactive, hdisarmed, hstate, hpending⟩
  have hwrite : s.dma.dir = .wr → t.lines.drvD = some (dmaLoad s s.dma.k) := fun hd => (hs.fall_write hd hk).2
  refine ⟨?_, fun hd => (hs.fall_read hd hk).2.1, fun b hd ht => ?_, fun hd ht h0 => ?_, fun hd ht h1 => ?_⟩
  · cases hd : s.dma.dir with
    | rd => exact (hs.fall_read hd hk).1
    | wr => exact (hs.fall_write hd hk).1
  · rw [hwrite hd, dmaLoad_buf ht]
  · rw [hwrite hd, dmaLoad_scratch_first ht h0]
  · rw [hwrite hd, dmaLoad_scratch_second ht h1]

/-! The data edge. -/

/-- `u` is what a data edge of `s` hands to `NextCycle`: the byte is counted, no strobe is pending, and the rest of what
`NextCycle` looks at is as before. -/
structure ByteDone (s u : State) : Prop where
  dma : u.dma = { s.dma with wbuf0 := u.dma.wbuf0, wbuf1 := u.dma.wbuf1, k := s.dma.k + 1, xferPending := false }
  par : u.par = s.par
  lines : u.lines = s.lines
  en : u.en = s.en
  fg : u.fg = s.fg
  disp : u.disp = s.disp

section
variable {s : State} {d : Drive} {v : Byte}

theorem Strobed.rise (h : Strobed s) (d : Drive) :
    ∃ u, ByteDone s u ∧ evP1R d s = markEvent .p1r (dmaNextCycle u) := by
  obtain ⟨n, x, b, w0, w1, hbyte⟩ := dmaDataEdge_state (others s d) (peersP1R (others s d) s)
  refine ⟨_, ?_, evP1R_dataEdge d h.active h.disarmed h.transferring h.pending⟩
  rw [hbyte]
  constructor <;> simp

/-- `NextCycle` moves no byte of `BUF`. -/
theorem dmaNextCycle_buf (s : State) : (dmaNextCycle s).buf = s.buf :=
  dmaNextCycle_keeps (·.buf) s fun _ _ _ _ _ => rfl

/-- The bytes a read or a write can change: `BUF` and the scratch. -/
def storage (s : State) : List Host.Cell × Byte × Byte := (s.buf, s.dma.wbuf0, s.dma.wbuf1)

theorem storage_eq_iff {m : List Host.Cell} {w0 w1 : Byte} :
    storage s = (m, w0, w1) ↔ s.buf = m ∧ s.dma.wbuf0 = w0 ∧ s.dma.wbuf1 = w1 := by
  simp [storage]

/-- After a data edge the storage is what the edge made it: `NextCycle` moves no byte. -/
theorem Strobed.rise_storage (h : Strobed s) (d : Drive) :
    storage (evP1R d s) = storage (dmaDataEdge (others s d) (peersP1R (others s d) s)) := by
  rw [evP1R_dataEdge d h.active h.disarmed h.transferring h.pending]
  obtain ⟨h0, h1⟩ := dmaNextCycle_scratch (dmaDataEdge (others s d) (peersP1R (others s d) s))
  simp only [storage, markEvent_buf, markEvent_dma, dmaNextCycle_buf, h0, h1]

theorem Strobed.rise_write (h : Strobed s) (d : Drive) (hd : s.dma.dir = .wr) :
    storage (evP1R d s) = storage s := by
  rw [h.rise_storage, dmaDataEdge_write _ (by simpa using hd)]
  simp [storage]

/-- The data edge of a read with one driver stores its byte and no other (R120). -/
theorem Strobed.rise_read (h : Strobed s) (hd : s.dma.dir = .rd) (hv : OneDriver s d v) :
    storage (evP1R d s) = storage (dmaStore s.dma.k v s) := by
  rw [h.rise_storage, dmaDataEdge_read hv (peersP1R_lines _ s) (by simpa using hd), peersP1R_dma]
  unfold storage dmaStore
  simp only [peersP1R_dma, peersP1R_buf]
  cases s.dma.tgt with
  | buf b => rfl
  | scratch => by_cases hk : s.dma.k = 0 <;> simp [hk]

theorem dmaStore_buf {k b : Nat} (v : Byte) (ht : s.dma.tgt = .buf b) :
    storage (dmaStore k v s) = (bufWrite s.buf (b + k) v, s.dma.wbuf0, s.dma.wbuf1) := by
  simp only [storage, dmaStore, ht]

theorem dmaStore_first (v : Byte) (ht : s.dma.tgt = .scratch) :
    storage (dmaStore 0 v s) = (s.buf, v, s.dma.wbuf1) := by
  simp only [storage, dmaStore, ht, if_true]

theorem dmaStore_second {k : Nat} (v : Byte) (ht : s.dma.tgt = .scratch) (hk : k ≠ 0) :
    storage (dmaStore k v s) = (s.buf, s.dma.wbuf0, v) := by
  simp only [storage, dmaStore, ht, if_neg hk]

/-! `NextCycle`, where it goes on (R121 to R123). -/

theorem dmaNextCycle_yields (hs : s.dma.state = .dXfer) (hk : s.dma.k ≠ s.dma.count)
    (hb : s.dma.burstK = s.par.burstMax) (hr : 0 < s.par.refreshIdle) : dmaNextCycle s = dmaBeginYield { s with dma := { s.dma with burstK := 0 } } := by
  simp [dmaNextCycle, hs, hk, hb, hr]

theorem dmaNextCycle_restarts (hs : s.dma.state = .dXfer) (hk : s.dma.k ≠ s.dma.count)
    (hb : s.dma.burstK = s.par.burstMax) (hr : s.par.refreshIdle = 0) :
    dmaNextCycle s = dmaIssue { s with dma := { s.dma with burstK := 0 } } := by
  simp [dmaNextCycle, hs, hk, hb, hr]

theorem dmaNextCycle_countsDown (hs : s.dma.state = .dYield) (hk : s.dma.k ≠ s.dma.count) (hy : 0 < s.dma.yieldK) :
    dmaNextCycle s = { s with
      lines := { s.lines with ctrlOut := 0b000 }, dma := { s.dma with yieldK := s.dma.yieldK - 1 } } := by
  simp [dmaNextCycle, hs, hk, hy]

theorem dmaNextCycle_resumes (hs : s.dma.state = .dYield) (hk : s.dma.k ≠ s.dma.count) (hy : s.dma.yieldK = 0) :
    dmaNextCycle s = dmaIssue s := by
  simp [dmaNextCycle, hs, hk, hy]

theorem dmaNextCycle_waits (hk : s.dma.k = s.dma.count) (hr : s.par.resume = .nextCycleP1R) :
    dmaNextCycle s = { s with lines := { s.lines with ctrlOut := 0b000 } } := by
  simp [dmaNextCycle, hk, hr]

/-- Between two bytes the count and the blocked command stay. -/
theorem dmaNextCycle_between (hk : s.dma.k ≠ s.dma.count) :
    (dmaNextCycle s).dma.k = s.dma.k ∧ (dmaNextCycle s).fg = s.fg := by
  rcases dmaNextCycle_cases s with ⟨hlast, -⟩ | ⟨hlast, -⟩ | ⟨-, -, -, -, e⟩ | ⟨-, -, -, -, e⟩ | ⟨-, -, -, e⟩ |
    ⟨-, -, -, e⟩
  · exact absurd hlast hk
  · exact absurd hlast hk
  all_goals rw [e]; exact ⟨rfl, rfl⟩

/-! What a data edge hands on, field by field. -/

theorem ByteDone.active {u : State} (h : ByteDone s u) : u.dma.active = s.dma.active := by rw [h.dma]
theorem ByteDone.armed {u : State} (h : ByteDone s u) : u.en.armed = s.en.armed := by rw [h.en]
theorem ByteDone.k {u : State} (h : ByteDone s u) : u.dma.k = s.dma.k + 1 := by rw [h.dma]
theorem ByteDone.count {u : State} (h : ByteDone s u) : u.dma.count = s.dma.count := by rw [h.dma]
theorem ByteDone.state {u : State} (h : ByteDone s u) : u.dma.state = s.dma.state := by rw [h.dma]
theorem ByteDone.burstK {u : State} (h : ByteDone s u) : u.dma.burstK = s.dma.burstK := by rw [h.dma]
theorem ByteDone.not_pending {u : State} (h : ByteDone s u) : u.dma.xferPending = false := by rw [h.dma]
theorem ByteDone.dir {u : State} (h : ByteDone s u) : u.dma.dir = s.dma.dir := by rw [h.dma]

theorem ByteDone.more {u : State} (h : ByteDone s u) (hk : s.dma.k + 1 ≠ s.dma.count) : u.dma.k ≠ u.dma.count := by
  rwa [h.k, h.count]

/-- With bytes to come and the burst not full, the next strobe is out at the data edge (R120, R121). -/
theorem Strobed.rise_strobes (h : Strobed s) (d : Drive) (hk : s.dma.k + 1 ≠ s.dma.count)
    (hb : s.dma.burstK ≠ s.par.burstMax) :
    let t := evP1R d s
    t.dma = { s.dma with
        wbuf0 := t.dma.wbuf0, wbuf1 := t.dma.wbuf1, k := s.dma.k + 1, burstK := s.dma.burstK + 1,
        xferPending := true } ∧
      t.lines = { s.lines with ctrlOut := if s.dma.dir = .rd then 0b010 else 0b001 } ∧ Strobed t ∧ t.fg = s.fg := by
  obtain ⟨u, hu, e⟩ := h.rise d
  rw [dmaNextCycle_strobe (hu.state.trans h.transferring) (hu.more hk) (by rwa [hu.burstK, hu.par])] at e
  rw [e]
  refine ⟨?_, ?_, ⟨hu.active.trans h.active, hu.armed.trans h.disarmed, rfl, rfl⟩, hu.fg⟩
  · simp only [markEvent_dma, dmaIssue]
    rw [hu.dma]
    simp only [h.transferring]
  · simp only [markEvent_lines, dmaIssue, hu.lines, hu.dir]

end

/-- Settles O45: the storage by direction and target, and the strobe that follows. -/
theorem dataEdgeCompletesOneByte : Obligations.DataEdgeCompletesOneByte := by
  intro s d hactive hdisarmed hstate hpending t
  have hs : Strobed s := ⟨hactive, hdisarmed, hstate, hpending⟩
  refine ⟨fun v b hd ht hv => ?_, fun v hd ht hv => ?_, fun hd => ?_, fun hk hb => ?_⟩
  · obtain ⟨hbuf, h0, h1⟩ := storage_eq_iff.mp ((hs.rise_read hd hv).trans (dmaStore_buf v ht))
    rw [hbuf]
    exact ⟨bufRead_write_same _ _ _, fun j hj => bufRead_write_other _ _ hj, h0, h1⟩
  · have e := hs.rise_read hd hv
    by_cases hk : s.dma.k = 0
    · rw [hk, dmaStore_first v ht] at e
      obtain ⟨hbuf, h0, h1⟩ := storage_eq_iff.mp e
      exact ⟨fun j => by rw [hbuf], fun _ => ⟨h0, h1⟩, fun hk1 => by omega⟩
    · obtain ⟨hbuf, h0, h1⟩ := storage_eq_iff.mp (e.trans (dmaStore_second v ht hk))
      exact ⟨fun j => by rw [hbuf], fun hk0 => absurd hk0 hk, fun _ => ⟨h0, h1⟩⟩
  · obtain ⟨hbuf, h0, h1⟩ := storage_eq_iff.mp (hs.rise_write d hd)
    exact ⟨fun j => by rw [hbuf], h0, h1⟩
  · obtain ⟨hdma, hlines, -⟩ := hs.rise_strobes d hk hb
    exact ⟨hdma, hlines⟩

/-! A yield (R121, R122). -/

section
variable {s : State}

/-- The data edge that fills the burst restarts its count, and the byte is counted whichever way the engine goes on. -/
theorem Strobed.rise_burstFull (h : Strobed s) (d : Drive) (hk : s.dma.k + 1 ≠ s.dma.count)
    (hb : s.dma.burstK = s.par.burstMax) :
    ∃ u, ByteDone s u ∧
      (0 < s.par.refreshIdle →
        evP1R d s = markEvent .p1r (dmaBeginYield { u with dma := { u.dma with burstK := 0 } })) ∧
      (s.par.refreshIdle = 0 →
        evP1R d s = markEvent .p1r (dmaIssue { u with dma := { u.dma with burstK := 0 } })) := by
  obtain ⟨u, hu, e⟩ := h.rise d
  have hstate := hu.state.trans h.transferring
  have hfull : u.dma.burstK = u.par.burstMax := by rwa [hu.burstK, hu.par]
  refine ⟨u, hu, fun hr => ?_, fun hr => ?_⟩ <;> rw [← hu.par] at hr
  · rw [e, dmaNextCycle_yields hstate (hu.more hk) hfull hr]
  · rw [e, dmaNextCycle_restarts hstate (hu.more hk) hfull hr]

theorem evP1R_yield (d : Drive) (ha : s.dma.active = true) (h : s.en.armed = false) (hs : s.dma.state = .dYield) :
    evP1R d s = markEvent .p1r (dmaNextCycle (peersP1R (others s d) s)) := by
  rw [evP1R_master d h ha]
  simp only [engP1R, peersP1R_dma, hs]

theorem evP1F_yield (d : Drive) (p : Bits3) (pri : Bool) (ha : s.dma.active = true) (h : s.en.armed = false)
    (hs : s.dma.state = .dYield) : evP1F d p pri s = markEvent .p1f (dmaEndDrive (peersP1F (others s d) p s)) := by
  rw [evP1F_master d p pri h ha]
  simp only [engP1F, peersP1F_dma, hs]

end

/-- Settles O46: the edge that fills the burst, and each edge of the yield. -/
theorem fullBurstYields : Obligations.FullBurstYields := by
  intro s d ha h
  refine ⟨fun hs hp hk hb => ?_, fun hs hk hy => ?_, fun hs hk hy => ?_, fun hs p pri => ?_⟩
  · obtain ⟨u, hu, hyield, hissue⟩ := Strobed.rise_burstFull ⟨ha, h, hs, hp⟩ d hk hb
    by_cases hr : 0 < s.par.refreshIdle
    · rw [hyield hr]
      simp [dmaBeginYield, hu.k, hu.lines, hu.par, hu.not_pending, Nat.ne_of_gt hr]
    · have hr0 : s.par.refreshIdle = 0 := by omega
      rw [hissue hr0]
      simp [dmaIssue, hu.k, hu.lines, hu.dir, hr0]
  · rw [evP1R_yield d ha h hs, dmaNextCycle_countsDown (by simpa using hs) (by simpa using hk) (by simpa using hy)]
    simp
  · rw [evP1R_yield d ha h hs, dmaNextCycle_resumes (by simpa using hs) (by simpa using hk) (by simpa using hy)]
    simp [dmaIssue]
  · rw [evP1F_yield d p pri ha h hs]
    simp [dmaEndDrive]

end Sys2Proof.Machine
end

section
/-! The read wrappers and the late release: what the waiting command gets, and when (R120, R123, R125, R126, R128). -/

namespace Sys2Proof.Machine
open Sys2Proof

theorem dmaResult_readWord {s : State} {a : Bits16} (h : s.fg.wait = some ⟨.dmaReadWord a, rfl⟩) :
    dmaResult s = .word (assemble s.dma.wbuf1 s.dma.wbuf0) := by
  simp only [dmaResult, h]

/-- The device is bus master with a strobe of a read into the scratch out (R126). -/
structure ScratchRead (s : State) : Prop extends Strobed s where
  reading : s.dma.dir = .rd
  scratch : s.dma.tgt = .scratch

section
variable {s r : State} {d : Drive} {a : Bits16} {v : Byte}

theorem ScratchRead.first (h : ScratchRead s) (hk : s.dma.k = 0) (hv : OneDriver s d v) :
    storage (evP1R d s) = (s.buf, v, s.dma.wbuf1) := by
  rw [h.rise_read h.reading hv, hk, dmaStore_first v h.scratch]

theorem ScratchRead.second (h : ScratchRead s) (hk : s.dma.k = 1) (hv : OneDriver s d v) :
    storage (evP1R d s) = (s.buf, s.dma.wbuf0, v) := by
  rw [h.rise_read h.reading hv, dmaStore_second v h.scratch (by omega)]

/-! The result of a state `r` that still has the waiting command, and the scratch as the last data edge left it. -/

theorem ScratchRead.byte_result (h : ScratchRead s) (hk : s.dma.k = 0) (hv : OneDriver s d v) (hfg : r.fg = s.fg)
    (hr : storage r = storage (evP1R d s)) (hw : s.fg.wait = some ⟨.dmaReadByte a, rfl⟩) :
    dmaResult r = .byte v := by
  obtain ⟨-, h0, -⟩ := storage_eq_iff.mp (hr.trans (h.first hk hv))
  rw [dmaResult_readByte (by rw [hfg, hw]), h0]

theorem ScratchRead.word_result (h : ScratchRead s) (hk : s.dma.k = 1) (hv : OneDriver s d v) (hfg : r.fg = s.fg)
    (hr : storage r = storage (evP1R d s)) (hw : s.fg.wait = some ⟨.dmaReadWord a, rfl⟩) :
    ∃ w, dmaResult r = .word w ∧ w.toNat = v.toNat * 256 + s.dma.wbuf0.toNat := by
  obtain ⟨-, h0, h1⟩ := storage_eq_iff.mp (hr.trans (h.second hk hv))
  exact ⟨assemble v s.dma.wbuf0, by rw [dmaResult_readWord (by rw [hfg, hw]), h0, h1], assemble_toNat _ _⟩

/-! The edge that releases the bus (R123). -/

/-- The released command's result is that of a state with the waiting command and the scratch of the data edge. -/
theorem Strobed.lastByte_result (h : Strobed s) (d : Drive) (hk : s.dma.k + 1 = s.dma.count)
    (hr : s.par.resume = .sameCycleP1F) :
    ∃ r, r.fg = s.fg ∧ storage r = storage (evP1R d s) ∧ (evP1R d s).fg.result = some (dmaResult r) := by
  obtain ⟨r, e, -, -, -, hfg, -⟩ := evP1R_lastByte d h.active h.disarmed h.transferring h.pending hk hr
  rw [e]
  exact ⟨r, hfg, rfl, rfl⟩

end

/-! The word wrapper's two bytes (R128). -/

/-- The word wrapper for the command at `a` has the strobe of byte `k` out. -/
structure ReadingWord (a : Bits16) (k : Nat) (s : State) : Prop extends ScratchRead s where
  resume : s.par.resume = .sameCycleP1F
  count : s.dma.count = 2
  byte : s.dma.k = k
  waiting : s.fg.wait = some ⟨.dmaReadWord a, rfl⟩

section
variable {s : State} {d : Drive} {a : Bits16} {v : Byte}

theorem ReadingWord.first_kept (h : ReadingWord a 0 s) (hv : OneDriver s d v) :
    (evP1R d s).dma.wbuf0 = v ∧ (evP1R d s).dma.k = 1 ∧ (evP1R d s).fg = s.fg := by
  obtain ⟨-, h0, -⟩ := storage_eq_iff.mp (h.first h.byte hv)
  obtain ⟨u, hu, hrise⟩ := h.rise d
  obtain ⟨hk, hfg⟩ := dmaNextCycle_between (hu.more (by rw [h.byte, h.count]; decide))
  refine ⟨h0, ?_, ?_⟩ <;> rw [hrise]
  · exact hk.trans (by rw [hu.k, h.byte])
  · exact hfg.trans hu.fg

theorem ReadingWord.second_returned (h : ReadingWord a 1 s) (hv : OneDriver s d v) :
    ∃ w, (evP1R d s).fg.result = some (.word w) ∧ w.toNat = v.toNat * 256 + s.dma.wbuf0.toNat := by
  obtain ⟨r, hfg, hstore, hresult⟩ := h.lastByte_result d (by rw [h.byte, h.count]) h.resume
  obtain ⟨w, hw, hnat⟩ := h.word_result h.byte hv hfg hstore h.waiting
  exact ⟨w, by rw [hresult, hw], hnat⟩

/-- Within a burst the strobe of the second byte follows that of the first, and its falling edge keeps the first. -/
theorem ReadingWord.next (h : ReadingWord a 0 s) (d f : Drive) (p : Bits3) (pri : Bool)
    (hb : s.dma.burstK ≠ s.par.burstMax) :
    ReadingWord a 1 (evP1F f p pri (evP1R d s)) ∧
      (evP1F f p pri (evP1R d s)).dma.wbuf0 = (evP1R d s).dma.wbuf0 := by
  obtain ⟨hdma, -, hs, hfg⟩ := h.rise_strobes d (by rw [h.byte, h.count]; decide) hb
  have hd : (evP1R d s).dma.dir = .rd := by rw [hdma]; exact h.reading
  have ht : (evP1R d s).dma.tgt = .scratch := by rw [hdma]; exact h.scratch
  have hk : (evP1R d s).dma.k = 1 := by rw [hdma, h.byte]
  have hcount : (evP1R d s).dma.count = 2 := by rw [hdma]; exact h.count
  obtain ⟨hdma', -, hs', hfg'⟩ := hs.fall_read (d := f) (p := p) (pri := pri) hd (by rw [hk, hcount]; decide)
  exact ⟨{
    hs' with
    reading := by rw [hdma']; exact hd
    scratch := by rw [hdma']; exact ht
    resume := by rw [evP1F_par, evP1R_par]; exact h.resume
    count := by rw [hdma']; exact hcount
    byte := by rw [hdma']; exact hk
    waiting := by rw [hfg', hfg]; exact h.waiting }, by rw [hdma']⟩

end

/-! The edges that complete no byte. -/

theorem engP1R_keeps_first {s : State} (e : Option Byte) (h : s.dma.xferPending = false) :
    (engP1R e s).dma.wbuf0 = s.dma.wbuf0 := by
  unfold engP1R
  cases s.dma.state with
  | dXfer => simpa only [h, Bool.false_eq_true, if_false] using (dmaNextCycle_scratch s).1
  | dYield => exact (dmaNextCycle_scratch s).1
  | dWaitAck | dAddrLo | dAddrHi | dIdle | dSettle => rfl

theorem engP1F_keeps_first (s : State) : (engP1F s).dma.wbuf0 = s.dma.wbuf0 := by
  unfold engP1F
  cases s.dma.state with
  | dXfer =>
    have hdata : (dmaDriveData (dmaEndDrive s)).dma.wbuf0 = s.dma.wbuf0 := by
      unfold dmaDriveData
      split <;> rfl
    show (dmaLateRelease _).dma.wbuf0 = _
    unfold dmaLateRelease
    split <;> exact hdata
  | dYield | dWaitAck | dAddrLo | dAddrHi | dIdle | dSettle => rfl

/-- Settles O48: the byte wrapper's edge, the word wrapper's two, and the edges between them. -/
theorem readWrappersReturnTheBusBytes : Obligations.ReadWrappersReturnTheBusBytes := by
  intro s d a hactive hdisarmed hd ht hr
  refine ⟨fun v hs hp hv => ?_, fun hp => ?_, fun p pri => ?_⟩
  · have h : ScratchRead s := ⟨⟨hactive, hdisarmed, hs, hp⟩, hd, ht⟩
    refine ⟨fun hc hk hw => ?_, fun hc hk hw => ReadingWord.first_kept ⟨h, hr, hc, hk, hw⟩ hv,
      fun hc hk hw => ReadingWord.second_returned ⟨h, hr, hc, hk, hw⟩ hv, fun f p pri e u hc hk hw hb hu => ?_⟩
    · obtain ⟨r, hfg, hstore, hresult⟩ := h.lastByte_result d (by rw [hk, hc]) hr
      rw [hresult, h.byte_result hk hv hfg hstore hw]
    · have hfirst : ReadingWord a 0 s := ⟨h, hr, hc, hk, hw⟩
      obtain ⟨hsecond, hkept⟩ := hfirst.next d f p pri hb
      rw [← (hfirst.first_kept hv).1, ← hkept]
      exact hsecond.second_returned hu
  · rw [evP1R_master d hdisarmed hactive, markEvent_dma, engP1R_keeps_first _ (by simpa using hp), peersP1R_dma]
  · rw [evP1F_master d p pri hdisarmed hactive, markEvent_dma, engP1F_keeps_first, peersP1F_dma]

/-! The release at the falling edge (R123). -/

/-- All bytes have been transferred, and the device is still bus master until the next falling edge. -/
structure AwaitsLateRelease (m : State) : Prop where
  active : m.dma.active = true
  disarmed : m.en.armed = false
  transferring : m.dma.state = .dXfer
  no_strobe : m.dma.xferPending = false
  all_done : m.dma.k = m.dma.count
  resume : m.par.resume = .nextCycleP1R

/-- The last data edge leaves the bus idle and the release to the falling edge. -/
theorem Strobed.rise_awaits {s : State} (h : Strobed s) (d : Drive) (hk : s.dma.k + 1 = s.dma.count)
    (hr : s.par.resume = .nextCycleP1R) :
    AwaitsLateRelease (evP1R d s) ∧ (evP1R d s).lines = { s.lines with ctrlOut := 0b000 } ∧ (evP1R d s).fg = s.fg ∧
      (evP1R d s).disp = s.disp ∧ (evP1R d s).dma.count = s.dma.count := by
  obtain ⟨u, hu, e⟩ := h.rise d
  have hlast : u.dma.k = u.dma.count := by rw [hu.k, hu.count, hk]
  have hresume : u.par.resume = .nextCycleP1R := by rw [hu.par, hr]
  rw [dmaNextCycle_waits hlast hresume] at e
  rw [e]
  have hlines : { u.lines with ctrlOut := 0b000 } = { s.lines with ctrlOut := 0b000 } := by rw [hu.lines]
  exact ⟨⟨hu.active.trans h.active, hu.armed.trans h.disarmed, hu.state.trans h.transferring, hu.not_pending, hlast,
    hresume⟩, hlines, hu.fg, hu.disp, hu.count⟩

/-- That falling edge releases the bus, of a state with the waiting command, the scratch and the count as they are. -/
theorem AwaitsLateRelease.fall {m : State} (h : AwaitsLateRelease m) (e : Drive) (p : Bits3) (pri : Bool) :
    ∃ r, evP1F e p pri m = markEvent .p1f (dmaRelease r) ∧ r.fg = m.fg ∧ r.disp = m.disp ∧ storage r = storage m ∧
      r.dma.count = m.dma.count := by
  refine ⟨dmaEndDrive (peersP1F (others m e) p m), ?_, ?_⟩
  · rw [evP1F_master e p pri h.disarmed h.active]
    simp [engP1F, dmaDriveData, dmaLateRelease, dmaEndDrive, h.transferring, h.no_strobe, h.all_done, h.resume]
  · simp [dmaEndDrive, storage]

/-- Settles O49: the last data edge awaits the release, and the falling edge makes it, with the command's result. -/
theorem lateReleaseWaitsForTheFallingEdge : Obligations.LateReleaseWaitsForTheFallingEdge := by
  intro s d e pri hactive hdisarmed hstate hpending hk hr m t
  have hs : Strobed s := ⟨hactive, hdisarmed, hstate, hpending⟩
  obtain ⟨hawaits, hlines, hfg, hdisp, hcount⟩ := hs.rise_awaits d hk hr
  obtain ⟨r, hrelease, hfg', hdisp', hstore, hcount'⟩ := hawaits.fall e m.lines.ctrlOut pri
  have ht : t = markEvent .p1f (dmaRelease r) := hrelease
  have hwait : r.fg = s.fg := hfg'.trans hfg
  have hresults := dmaResult_count (s := r)
  rw [hwait, hcount', hcount] at hresults
  obtain ⟨hreadBlock, hwriteBlock, hwriteByte, hwriteWord⟩ := hresults
  rw [ht]
  refine ⟨hlines, hawaits.active, hfg, rfl, rfl, rfl, rfl, rfl, rfl, rfl, rfl, rfl, hdisp'.trans hdisp,
    fun a b n h => congrArg some (hreadBlock a b n h), fun a b n h => congrArg some (hwriteBlock a b n h),
    fun a x h => congrArg some (hwriteByte a x h), fun a x h => congrArg some (hwriteWord a x h),
    fun a v hw hd htgt h0 hv => ?_, fun a v hw hd htgt h1 hv => ?_⟩
  · exact congrArg some (ScratchRead.byte_result ⟨hs, hd, htgt⟩ h0 hv hwait hstore hw)
  · obtain ⟨w, hresult, hnat⟩ := ScratchRead.word_result ⟨hs, hd, htgt⟩ h1 hv hwait hstore hw
    exact ⟨w, congrArg some hresult, hnat⟩

end Sys2Proof.Machine
end

section
/-! The control commands (R133 to R135), and many pushes round the trace ring (R137). -/

namespace Sys2Proof.Machine
open Sys2Proof

/-- Settles O22: each command is one update of its bits and the result (R133 to R135). -/
theorem controlCommandsWriteTheirBits : Obligations.ControlCommandsWriteTheirBits :=
  fun _ => ⟨rfl, rfl, rfl⟩

/-- The state after the pushes `ds`, the first of the list first. -/
def tracePushes (ds : List Byte) (s : State) : State := ds.foldl (fun u x => tracePush x u) s

theorem tracePushes_append (before after : List Byte) (s : State) :
    tracePushes (before ++ after) s = tracePushes after (tracePushes before s) := List.foldl_append

theorem tracePushes_concat (ds : List Byte) (d : Byte) (s : State) :
    tracePushes (ds ++ [d]) s = tracePush d (tracePushes ds s) := tracePushes_append ds [d] s

@[simp] theorem tracePushes_par (ds : List Byte) (s : State) : (tracePushes ds s).par = s.par := by
  induction ds using List.reverseRecOn with
  | nil => rfl
  | append_singleton ds d ih => rw [tracePushes_concat, tracePush_par, ih]

/-- A push steps the index round the ring (R136). -/
theorem tracePush_idx (d : Byte) (s : State) : (tracePush d s).trace.idx = (s.trace.idx + 1) % s.par.traceSize := rfl

/-- The index goes one slot for each push (R137). -/
theorem tracePushes_idx (ds : List Byte) {s : State} (hi : s.trace.idx < s.par.traceSize) :
    (tracePushes ds s).trace.idx = (s.trace.idx + ds.length) % s.par.traceSize := by
  induction ds using List.reverseRecOn with
  | nil => exact (Nat.mod_eq_of_lt hi).symm
  | append_singleton ds d ih =>
    rw [tracePushes_concat, tracePush_idx, tracePushes_par, ih, Nat.mod_add_mod, List.length_append,
      List.length_singleton, Nat.add_assoc]

/-- Fewer than `n` steps round a ring of `n` slots, and at least one, do not come back to the slot left. -/
theorem add_mod_ne_of_pos_of_lt (a : Nat) {k n : Nat} (h0 : 0 < k) (hk : k < n) : (a + k) % n ≠ a % n :=
  fun h => Nat.not_dvd_of_pos_of_lt h0 hk (Nat.add_modEq_left_iff.mp h)

/-- Fewer than TRACE_SIZE pushes leave the slot just before the index, where the last push put its record (R137). -/
theorem tracePushes_keep_slot_before (ds : List Byte) {s : State} {j n : Nat} (hn : s.par.traceSize = n)
    (hidx : s.trace.idx = (j + 1) % n) (hlen : ds.length < n) :
    traceAt (tracePushes ds s).trace (j % n) = traceAt s.trace (j % n) := by
  have hi : s.trace.idx < s.par.traceSize := by
    rw [hidx, hn]
    exact Nat.mod_lt _ (Nat.zero_lt_of_lt hlen)
  induction ds using List.reverseRecOn with
  | nil => rfl
  | append_singleton ds d ih =>
    rw [List.length_append, List.length_singleton] at hlen
    have hother : j % n ≠ (tracePushes ds s).trace.idx := by
      rw [tracePushes_idx ds hi, hidx, hn, Nat.mod_add_mod, Nat.add_assoc, Nat.add_comm 1]
      exact (add_mod_ne_of_pos_of_lt j (Nat.succ_pos _) hlen).symm
    rw [tracePushes_concat, traceAt_push_other d _ hother, ih (Nat.lt_of_succ_lt hlen)]

/-- Settles O24: the push of `d` fills the slot at the index of that moment, and the pushes `after` do not come round to
it. -/
theorem traceRingWraps : Obligations.TraceRingWraps := by
  intro s before after d hi hlen u t slot
  have ht : t = tracePushes after u := tracePushes_append before (d :: after) s
  have hu : u = tracePushes (before ++ [d]) s := (tracePushes_concat before d s).symm
  have hsize : u.par.traceSize = s.par.traceSize := by rw [hu, tracePushes_par]
  have hidx : u.trace.idx = (s.trace.idx + before.length + 1) % s.par.traceSize := by
    rw [hu, tracePushes_idx _ hi, List.length_append, List.length_singleton, Nat.add_assoc]
  have hslot : (tracePushes before s).trace.idx = slot := tracePushes_idx before hi
  have hkeep : traceAt t.trace slot = traceAt u.trace slot := by
    rw [ht]
    exact tracePushes_keep_slot_before after hsize hidx hlen
  have hdata : (traceAt u.trace slot).data = d :=
    congrArg TraceRecord.data (hslot ▸ traceAt_push_same d (tracePushes before s))
  refine ⟨?_, hkeep, hkeep ▸ hdata⟩
  have hlength : (before ++ d :: after).length = before.length + 1 + after.length := by
    rw [List.length_append, List.length_cons, Nat.add_assoc, Nat.add_comm 1]
  exact hlength ▸ tracePushes_idx (before ++ d :: after) hi

end Sys2Proof.Machine
end

section
/-! The reset: what it gives, and that it is taken in any state (R154, R157, R158). -/

namespace Sys2Proof.Machine
open Sys2Proof

/-- The reset values are those of R158, from any state. -/
theorem externalReset_atReset (s : State) : AtReset (externalReset s) where
  lines := ⟨rfl, rfl, rfl, rfl, rfl, rfl, rfl⟩
  classification := ⟨rfl, rfl, rfl⟩
  schedule := ⟨rfl, rfl, rfl⟩
  enables := ⟨rfl, rfl, rfl, rfl⟩
  tables _ := ⟨rfl, rfl, rfl⟩
  arbiter := ⟨rfl, rfl, rfl, rfl⟩
  dma_flags := ⟨rfl, rfl, rfl, rfl⟩
  dma_counters := ⟨rfl, rfl, rfl, rfl, rfl⟩
  foreground := ⟨rfl, rfl⟩
  trace := ⟨rfl, rfl⟩
  record := ⟨rfl, rfl⟩

/-- A reset is taken in every state, whatever its record says (R154). -/
theorem step_reset {s : State} {ts : List Turn} (h : s.turns = .reset :: ts) :
    step s = .next (externalReset { s with turns := ts }) := by
  simp only [step, h, stepTurn]

/-- Settles O11: the launch state is a reset's, and `externalReset` gives the reset values and leaves what is not the
block's. -/
theorem bothResetsGiveTheResetValues : Obligations.BothResetsGiveTheResetValues := by
  refine ⟨?_, rfl, ?_⟩
  · rw [reset_eq_externalReset]
    exact externalReset_atReset _
  · intro s ts hts
    exact ⟨_, step_reset hts, externalReset_atReset _, externalReset_prog _, externalReset_boot _,
      externalReset_turns _, externalReset_dev _, externalReset_par _, fun _ => rfl, fun _ => rfl⟩

end Sys2Proof.Machine
end
